-- ==== Sys2Proof/Word.lean ====
section
/-! DEFINITION. The two sizes of bit vector the block moves: a byte of memory and a 32-bit word (00_scope R8, R9). -/

namespace Sys2Proof

/-- One byte of the memory space (20_memory R71). -/
abbrev Byte := BitVec 8

/-- A host register, a control word or a pixel: 32 bits (00_scope R8, R9). -/
abbrev Word := BitVec 32

end Sys2Proof
end

