-- ==== Sys2Proof/Config.lean ====
section
/-! DEFINITION. What an implementation fixes: the parameters the spec gives a value (00_scope R8, R9), the parameters it leaves
OPEN (constants with no body, so that no proof can see their value), and the free values. -/

namespace Sys2Proof.Config

/-- MAX_COUNT, the largest count of a record (00_scope R8). -/
def maxCount : Nat := 65535

/-- RUN_MIN: a span is a run when its length reaches it (00_scope R8, 90_conflicts C1). -/
def runMin : Nat := 3

/-- LINE_MAX, the largest start line (00_scope R8). -/
def lineMax : Nat := 4095

/-- The size of the memory space, 2^ADDR_W bytes (00_scope R9, 20_memory R71). -/
def addressSpace : Nat := 4294967296

/-- OIF_MAGIC, OPEN (00_scope R9, 92 D7). UNVERIFIED: the spec gives no value (log 4). -/
opaque oifMagic : Word

/-- OIF_VERSION, OPEN (00_scope R9, 92 D7). UNVERIFIED: the spec gives no value (log 4). -/
opaque oifVersion : BitVec 16

/-- OIF_SUB_VERSION, OPEN (00_scope R9, 92 D7). UNVERIFIED: the spec gives no value (log 4). -/
opaque oifSubVersion : BitVec 16

/-- HDR_RESERVED_WORDS with its bound 0..960, OPEN (10_state R32, 92 D8). UNVERIFIED: the spec gives no value (log 4). -/
opaque reservedWords : Fin 961

/-- HDR_RESERVED_WORDS as a count. -/
def hdrReservedWords : Nat := reservedWords.val

/-- BLOCK_BASE, OPEN (00_scope R9, 20_memory R71). The model addresses the window by offset, so nothing reads it (log 5). -/
opaque blockBase : Word

/-- How many instances the platform has beside this one, OPEN (00_scope R9, 92 D26). UNVERIFIED: the spec gives no value (log 5). -/
opaque moreInstances : Nat

/-- NUM_INSTANCES, at least 1 (00_scope R9, 60_exceptions R227). -/
def numInstances : Nat := moreInstances + 1

/-- A FREE VALUE: the byte drawn for an address the `draw`-th time the spec says "any value" (20_memory R80 item 4, 70_reset
R252; 93 I5, I11; log 6). -/
opaque freeByte (draw addr : Nat) : Byte

end Sys2Proof.Config
end

