-- ==== Sys2Proof/Syntax.lean ====
section
/-! DEFINITION. The instructions of both encoded languages (30_encoding): one constructor for each row of the opcode table.
The operands COUNT and LINE are counts (30_encoding R105, R106); the bits an instruction ignores are kept as bits, so that
every one of the 2^32 words of a language is one instruction (30_encoding R107, R108). -/

namespace Sys2Proof

/-- The two encoded languages: the record stream in memory and the command word written to CTRL (30_encoding). -/
inductive Lang where
  | record
  | command
  deriving DecidableEq, Repr

/-- The instruction set. A record kind that has a payload names only its control word: the payload is read from the stream
when the record executes (20_memory R85, 30_encoding R102). -/
inductive Instr where
  /-- LIT, KIND 0x1: cw[27:16] ignored (42_decoder R185). -/
  | lit (ignored : BitVec 12) (count : Nat)
  /-- LIT_WSL, KIND 0x2 (42_decoder R186). -/
  | litWsl (line : Nat) (count : Nat)
  /-- RUN, KIND 0x3: cw[27:16] ignored (42_decoder R187). -/
  | run (ignored : BitVec 12) (count : Nat)
  /-- RUN_WSL, KIND 0x4 (42_decoder R188). -/
  | runWsl (line : Nat) (count : Nat)
  /-- EOS, KIND 0xF: cw[27:0] ignored (42_decoder R184). -/
  | eos (ignored : BitVec 28)
  /-- Reserved KIND 0x0 (42_decoder R189). -/
  | reservedKind0 (ignored : BitVec 28)
  /-- Reserved KIND 0x5 (42_decoder R189). -/
  | reservedKind5 (ignored : BitVec 28)
  /-- Reserved KIND 0x6 (42_decoder R189). -/
  | reservedKind6 (ignored : BitVec 28)
  /-- Reserved KIND 0x7 (42_decoder R189). -/
  | reservedKind7 (ignored : BitVec 28)
  /-- Reserved KIND 0x8 (42_decoder R189). -/
  | reservedKind8 (ignored : BitVec 28)
  /-- Reserved KIND 0x9 (42_decoder R189). -/
  | reservedKind9 (ignored : BitVec 28)
  /-- Reserved KIND 0xA (42_decoder R189). -/
  | reservedKindA (ignored : BitVec 28)
  /-- Reserved KIND 0xB (42_decoder R189). -/
  | reservedKindB (ignored : BitVec 28)
  /-- Reserved KIND 0xC (42_decoder R189). -/
  | reservedKindC (ignored : BitVec 28)
  /-- Reserved KIND 0xD (42_decoder R189). -/
  | reservedKindD (ignored : BitVec 28)
  /-- Reserved KIND 0xE (42_decoder R189). -/
  | reservedKindE (ignored : BitVec 28)
  /-- HDR_INIT, CMD 1: CTRL[30:3] ignored (40_header R130). -/
  | hdrInit (ignored : BitVec 28)
  /-- ENCODE, CMD 2: CTRL[30:3] ignored (41_encoder R140). -/
  | encode (ignored : BitVec 28)
  /-- ENCODE_PARTIAL, CMD 3: CTRL[30:3] ignored (41_encoder R150). -/
  | encodePartial (ignored : BitVec 28)
  /-- DECODE, CMD 4: CTRL[30:3] ignored (42_decoder R180). -/
  | decode (ignored : BitVec 28)
  /-- Reserved CMD 0 (30_encoding R111). -/
  | reservedCmd0 (ignored : BitVec 28)
  /-- Reserved CMD 5 (30_encoding R111). -/
  | reservedCmd5 (ignored : BitVec 28)
  /-- Reserved CMD 6 (30_encoding R111). -/
  | reservedCmd6 (ignored : BitVec 28)
  /-- Reserved CMD 7 (30_encoding R111). -/
  | reservedCmd7 (ignored : BitVec 28)
  deriving DecidableEq, Repr

/-- The language an instruction belongs to. -/
def Instr.lang : Instr → Lang
  | .lit .. | .litWsl .. | .run .. | .runWsl .. | .eos .. => .record
  | .reservedKind0 .. | .reservedKind5 .. | .reservedKind6 .. | .reservedKind7 .. | .reservedKind8 .. => .record
  | .reservedKind9 .. | .reservedKindA .. | .reservedKindB .. | .reservedKindC .. | .reservedKindD .. => .record
  | .reservedKindE .. => .record
  | .hdrInit .. | .encode .. | .encodePartial .. | .decode .. => .command
  | .reservedCmd0 .. | .reservedCmd5 .. | .reservedCmd6 .. | .reservedCmd7 .. => .command

end Sys2Proof
end

