-- ==== Sys2Proof/WellFormed.lean ====
section
/-! DEFINITION. Which instructions have an encoding: the bounds of the operands (30_encoding R105, R106, R114). -/

namespace Sys2Proof

/-- A count fits the 16-bit field (30_encoding R105). -/
def countFits (count : Nat) : Bool := decide (count ≤ Config.maxCount)

/-- A start line fits the 12-bit field (30_encoding R106). -/
def lineFits (line : Nat) : Bool := decide (line ≤ Config.lineMax)

/-- An instruction whose operands fit their fields (30_encoding R114). The ignored bits are bit vectors of their own width. -/
def Instr.wellFormed : Instr → Bool
  | .lit _ count => countFits count
  | .litWsl line count => lineFits line && countFits count
  | .run _ count => countFits count
  | .runWsl line count => lineFits line && countFits count
  | .eos .. => true
  | .reservedKind0 .. | .reservedKind5 .. | .reservedKind6 .. | .reservedKind7 .. | .reservedKind8 .. => true
  | .reservedKind9 .. | .reservedKindA .. | .reservedKindB .. | .reservedKindC .. | .reservedKindD .. => true
  | .reservedKindE .. => true
  | .hdrInit .. | .encode .. | .encodePartial .. | .decode .. => true
  | .reservedCmd0 .. | .reservedCmd5 .. | .reservedCmd6 .. | .reservedCmd7 .. => true

end Sys2Proof
end

