-- ==== Sys2Proof/Decode.lean ====
section
/-! DEFINITION. The bit fields and the byte order of a word, the decoder of both languages, and the encoder
(30_encoding R100, R101, R112; 20_memory R70). -/

namespace Sys2Proof

/-! ### Byte order (20_memory R70) -/

/-- The word whose byte n is bn: byte n holds bits [8n+7:8n] (20_memory R70, R90). -/
def wordOfBytes (b0 b1 b2 b3 : Byte) : Word := b3 ++ b2 ++ b1 ++ b0

/-- Byte n of a word, bits [8n+7:8n] (20_memory R70). -/
def wordByte (w : Word) (n : Nat) : Byte := w.extractLsb' (8 * n) 8

/-- The four bytes of a word in memory order, the lowest address first (20_memory R70). -/
def wordBytes (w : Word) : List Byte := [wordByte w 0, wordByte w 1, wordByte w 2, wordByte w 3]

/-! ### Fields -/

/-- KIND = cw[31:28] (30_encoding R100). -/
def kindOf (w : Word) : BitVec 4 := w.extractLsb' 28 4

/-- LINE = cw[27:16] (30_encoding R100). -/
def lineOf (w : Word) : BitVec 12 := w.extractLsb' 16 12

/-- COUNT = cw[15:0] (30_encoding R100). -/
def countOf (w : Word) : BitVec 16 := w.extractLsb' 0 16

/-- cw[27:0], the bits EOS and the reserved kinds ignore (30_encoding R107). -/
def belowKind (w : Word) : BitVec 28 := w.extractLsb' 0 28

/-- START = CTRL[31] (10_state R33). -/
def startOf (w : Word) : Bool := w.getLsbD 31

/-- CMD = CTRL[2:0] (10_state R33). -/
def cmdOf (w : Word) : BitVec 3 := w.extractLsb' 0 3

/-- CTRL[30:3], ignored (10_state R33). -/
def ctrlIgnored (w : Word) : BitVec 28 := w.extractLsb' 3 28

/-! ### Decoding -/

/-- The record of a control word: KIND alone selects it (30_encoding R101, R117). Total on all 2^32 words (30_encoding R108);
the last arm is KIND 0xF. -/
def decodeRecord (w : Word) : Instr :=
  match (kindOf w).toNat with
  | 0x0 => .reservedKind0 (belowKind w)
  | 0x1 => .lit (lineOf w) (countOf w).toNat
  | 0x2 => .litWsl (lineOf w).toNat (countOf w).toNat
  | 0x3 => .run (lineOf w) (countOf w).toNat
  | 0x4 => .runWsl (lineOf w).toNat (countOf w).toNat
  | 0x5 => .reservedKind5 (belowKind w)
  | 0x6 => .reservedKind6 (belowKind w)
  | 0x7 => .reservedKind7 (belowKind w)
  | 0x8 => .reservedKind8 (belowKind w)
  | 0x9 => .reservedKind9 (belowKind w)
  | 0xA => .reservedKindA (belowKind w)
  | 0xB => .reservedKindB (belowKind w)
  | 0xC => .reservedKindC (belowKind w)
  | 0xD => .reservedKindD (belowKind w)
  | 0xE => .reservedKindE (belowKind w)
  | _ => .eos (belowKind w)

/-- The command of a word written to CTRL: none when START = 0 (10_state R33, 30_encoding R112). The last arm is CMD 7. -/
def decodeCommand (w : Word) : Option Instr :=
  if startOf w then
    match (cmdOf w).toNat with
    | 0 => some (.reservedCmd0 (ctrlIgnored w))
    | 1 => some (.hdrInit (ctrlIgnored w))
    | 2 => some (.encode (ctrlIgnored w))
    | 3 => some (.encodePartial (ctrlIgnored w))
    | 4 => some (.decode (ctrlIgnored w))
    | 5 => some (.reservedCmd5 (ctrlIgnored w))
    | 6 => some (.reservedCmd6 (ctrlIgnored w))
    | _ => some (.reservedCmd7 (ctrlIgnored w))
  else none

/-- Why bytes are no instruction. -/
inductive DecodeError where
  /-- Fewer than the four bytes of a word (42_decoder R182: a fetch needs all four). -/
  | truncated
  /-- A command word with START = 0: the write issues nothing (10_state R33). -/
  | noCommand
  deriving DecidableEq, Repr

/-- Decoding bytes in memory order: the instruction and the bytes that follow its word (30_encoding R102, R103). -/
def decode (lang : Lang) : List Byte → Except DecodeError (Instr × List Byte)
  | b0 :: b1 :: b2 :: b3 :: rest =>
    match lang with
    | .record => .ok (decodeRecord (wordOfBytes b0 b1 b2 b3), rest)
    | .command =>
      match decodeCommand (wordOfBytes b0 b1 b2 b3) with
      | some i => .ok (i, rest)
      | none => .error .noCommand
  | _ => .error .truncated

/-! ### Encoding -/

/-- A control word {KIND, LINE, COUNT} (30_encoding R100). -/
def controlWord (kind : BitVec 4) (line : BitVec 12) (count : BitVec 16) : Word := kind ++ line ++ count

/-- A control word {KIND, bits 27:0} of a kind that uses no field (30_encoding R107). -/
def bareWord (kind : BitVec 4) (low : BitVec 28) : Word := kind ++ low

/-- A command word {START = 1, ignored, CMD} (30_encoding R112). -/
def commandWord (cmd : BitVec 3) (ignored : BitVec 28) : Word := 1#1 ++ ignored ++ cmd

/-- The word of an instruction (30_encoding R101, R112). A count or a line that does not fit its field (an instruction that is
not well formed) has no encoding: its low bits are taken. -/
def encode : Instr → Word
  | .lit ignored count => controlWord 0x1 ignored (BitVec.ofNat 16 count)
  | .litWsl line count => controlWord 0x2 (BitVec.ofNat 12 line) (BitVec.ofNat 16 count)
  | .run ignored count => controlWord 0x3 ignored (BitVec.ofNat 16 count)
  | .runWsl line count => controlWord 0x4 (BitVec.ofNat 12 line) (BitVec.ofNat 16 count)
  | .eos low => bareWord 0xF low
  | .reservedKind0 low => bareWord 0x0 low
  | .reservedKind5 low => bareWord 0x5 low
  | .reservedKind6 low => bareWord 0x6 low
  | .reservedKind7 low => bareWord 0x7 low
  | .reservedKind8 low => bareWord 0x8 low
  | .reservedKind9 low => bareWord 0x9 low
  | .reservedKindA low => bareWord 0xA low
  | .reservedKindB low => bareWord 0xB low
  | .reservedKindC low => bareWord 0xC low
  | .reservedKindD low => bareWord 0xD low
  | .reservedKindE low => bareWord 0xE low
  | .hdrInit ignored => commandWord 1 ignored
  | .encode ignored => commandWord 2 ignored
  | .encodePartial ignored => commandWord 3 ignored
  | .decode ignored => commandWord 4 ignored
  | .reservedCmd0 ignored => commandWord 0 ignored
  | .reservedCmd5 ignored => commandWord 5 ignored
  | .reservedCmd6 ignored => commandWord 6 ignored
  | .reservedCmd7 ignored => commandWord 7 ignored

/-- The bytes of an instruction's word in memory order. -/
def encodeBytes (i : Instr) : List Byte := wordBytes (encode i)

/-! ### The opcode table's words -/

/-- The language a bare word of the opcode table is read in. DESIGN CHOICE (log 3): the eight words of 30_encoding R112 with
START = 1 and bits 30:3 = 0 are command words and every other word is a control word. In the machine the place a word is
fetched from decides, not this function. -/
def tableLang (w : Word) : Lang := if w.extractLsb' 3 29 = 0x10000000#29 then .command else .record

/-- The first word of an instruction given as a number with the table's bit numbering; bits from nbits up are 0. -/
def tableWord (nbits w : Nat) : Word := BitVec.ofNat 32 (w % 2 ^ nbits)

/-- What the decoder reads from a word of the opcode table. -/
def decodeTableWord (nbits w : Nat) : Option Instr :=
  match decode (tableLang (tableWord nbits w)) (wordBytes (tableWord nbits w)) with
  | .ok (i, _) => some i
  | .error _ => none

end Sys2Proof
end

