-- ==== Sys2Proof/Machine/State.lean ====
section
/-! DEFINITION. The machine's state as plain data, the reasons a step stops, and the state after reset
(10_state; 70_reset R250; 60_exceptions R238). -/

namespace Sys2Proof.Machine

/-- Why the machine faults. -/
inductive Fault where
  /-- A block access or a host access runs past the last byte of the 2^32-byte space (20_memory R71). Raised by the record
  meanings, the fetch, the encoder's turn and host memory accesses. Safe: the spec gives no such access a meaning, and for the
  block R78 shuts it out of every run (log 10). -/
  | outsideAddressSpace
  deriving DecidableEq, Repr

/-- Why the model refuses: the spec gives no defined behaviour (00_scope R16, 60_exceptions R238). -/
inductive Refusal where
  /-- An instruction with no meaning in the model yet; raised by exec's arms only. Safe. -/
  | notModelled (mnemonic : String)
  /-- refuse(RANGE): a region passes 2^32, or fl + lc > HEIGHT (20_memory R78, 41_encoder R150). Raised at issue. Safe. -/
  | range
  /-- refuse(OVERLAP): the regions share a byte (20_memory R79). Raised at issue. Safe. -/
  | overlap
  /-- refuse(DEVICE_MEMORY): a region is not ordinary memory (20_memory R89). Raised at issue. Safe. -/
  | deviceMemory
  /-- refuse(CAPACITY): the encoded length exceeds DST_CAP (41_encoder R140, R150). Raised at issue, and by the encoder's turn in
  states no run reaches (log 10). Safe. -/
  | capacity
  /-- refuse(RACE): a region of a running operation is written by the host or another agent, or clashes with another
  instance's (20_memory R80, 60_exceptions R227). Raised at issue and by host memory writes. Safe. -/
  | race
  /-- refuse(BAD_ACCESS): a register access that is not aligned 32-bit (20_memory R75). Raised by the register window. Safe. -/
  | badAccess
  /-- An operation begins on an instance the platform does not have (60_exceptions R227; log 9). Raised when another instance's
  operation begins, not when one ends. Safe: no platform has such an event. -/
  | noSuchInstance
  /-- A host access to memory the platform's map calls device memory: the spec does not say what the device does (log 8).
  Raised by host memory accesses. Safe. -/
  | hostDeviceAccess
  deriving DecidableEq, Repr

/-- The four operations (10_state R50). -/
inductive Op where
  | hdrInit
  | encode
  | encodePartial
  | decode
  deriving DecidableEq, Repr

/-- The engine's phase (10_state R50). -/
inductive Phase where
  | idle
  | busy (op : Op)
  deriving DecidableEq, Repr

/-- The codes RESULT can hold (10_state R38, 60_exceptions R222). -/
inductive ResultCode where
  /-- 0 -/
  | success
  /-- -1 -/
  | unknownCode
  /-- -2 -/
  | sourceOverrun
  /-- -3 -/
  | destinationOverrun
  deriving DecidableEq, Repr

/-- A range of `len` bytes from `base` (20_memory R72). -/
structure Region where
  base : Nat
  len : Nat
  deriving DecidableEq, Repr

/-- What an operation reads and what it writes (20_memory R72). -/
structure Claim where
  reads : Region
  writes : Region
  deriving DecidableEq, Repr

/-- A running operation of another instance: its number, from 1 to NUM_INSTANCES - 1, and its regions (60_exceptions R227;
log 9). -/
structure OtherOp where
  who : Nat
  claim : Claim
  deriving DecidableEq, Repr

/-- Who writes memory from outside the block: the host, or another agent (20_memory R80, 60_exceptions R227). -/
inductive Agent where
  | host
  | other
  deriving DecidableEq, Repr

/-- What the outside world can do to the block in one cycle (70_reset R265, R258; 60_exceptions R227). -/
inductive Event where
  /-- A register read of `width` bytes at an offset of the window. -/
  | regRead (offset : BitVec 12) (width : Nat)
  /-- A register write of `width` bytes at an offset of the window. -/
  | regWrite (offset : BitVec 12) (width : Nat) (value : Word)
  /-- A host read of `len` bytes of memory (any width: 20_memory R90). -/
  | memRead (addr len : Nat)
  /-- A write of bytes to memory by the host or another agent (any width: 20_memory R90). -/
  | memWrite (agent : Agent) (addr : Nat) (bytes : List Byte)
  /-- The host takes the interrupt, when there is one (20_memory R80 item 2, 60_exceptions R230). -/
  | takeIrq
  /-- An operation of another instance begins, with its regions (60_exceptions R227). -/
  | otherIssue (who : Nat) (claim : Claim)
  /-- The operation of another instance ends (60_exceptions R227). -/
  | otherComplete (who : Nat)
  /-- The block's reset input is asserted and released (70_reset R250, R252). -/
  | reset
  deriving DecidableEq, Repr

/-- What happens in the machine's next cycles: which agent moves (log 3). -/
inductive Input where
  /-- An event from outside, while the engine makes no progress. -/
  | external (event : Event)
  /-- The engine makes progress. -/
  | engine
  /-- An event from outside and the engine's progress in the same cycle, in the order the flag says where the spec admits both
  (10_state R35, 60_exceptions R228; log 11). -/
  | sameCycle (event : Event) (engineFirst : Bool)
  /-- The host polls STATUS until DONE = 1 (30_encoding R116). -/
  | wait
  deriving DecidableEq, Repr

/-- What the last host read returned (70_reset R265). -/
inductive Reply where
  | none
  | register (value : Word)
  | memory (bytes : List Byte)
  deriving DecidableEq, Repr

/-- Memory: (address, byte) pairs, addresses rising, no pair equal to what an unlisted address reads as. -/
abbrev Memory := List Host.Cell

/-- The whole machine. -/
structure State where
  /-- Engine phase; STATUS.BUSY is 1 exactly when it is busy (10_state R34, R50). -/
  phase : Phase
  /-- STATUS.DONE (10_state R35). -/
  done : Bool
  /-- STATUS.CMD_ERR (10_state R36). -/
  cmdErr : Bool
  /-- IRQ_EN.DONE_IE (10_state R39). -/
  doneIe : Bool
  /-- RESULT (10_state R38). -/
  result : ResultCode
  /-- MAGIC (10_state R40). -/
  magic : Word
  /-- VERSION[15:0] (10_state R41). -/
  version : BitVec 16
  /-- VERSION[31:16], SUB_VERSION (10_state R41). -/
  subVersion : BitVec 16
  /-- WIDTH (10_state R42). -/
  width : Word
  /-- HEIGHT (10_state R42). -/
  height : Word
  /-- ID (10_state R43). -/
  id : Word
  /-- UNCOMPRESSED (10_state R44). -/
  uncompressed : Word
  /-- PAYLOAD_SIZE (10_state R45). -/
  payloadSize : Word
  /-- SRC_BASE[31:2]; bits [1:0] are hardwired 0 (10_state R46). -/
  srcBaseHi : BitVec 30
  /-- DST_BASE[31:2]; bits [1:0] are hardwired 0 (10_state R46). -/
  dstBaseHi : BitVec 30
  /-- DST_CAP (10_state R47). -/
  dstCap : Word
  /-- PART_FIRST_LINE[11:0]; bits [31:12] are hardwired 0 (10_state R48). -/
  partFirstLine : BitVec 12
  /-- PART_LINE_COUNT (10_state R48). -/
  partLineCount : Word
  /-- RESERVED[r]; its length is the machine's HDR_RESERVED_WORDS (10_state R49; log 4). -/
  reserved : List Word
  /-- Encoder: lookahead start (10_state R51, R54). -/
  i : Nat
  /-- Encoder: lookahead end (10_state R51). -/
  j : Nat
  /-- Encoder: start of the pending literal span (10_state R51). -/
  k : Nat
  /-- Encoder: bytes written so far (10_state R51). -/
  out : Nat
  /-- Encoder: no record has been emitted yet by an ENCODE_PARTIAL (10_state R51). -/
  first : Bool
  /-- Encoder: first pixel of the range (10_state R51). -/
  a : Nat
  /-- Encoder: end of the range (10_state R51). -/
  b : Nat
  /-- Decoder: byte offset in the stream, its program counter (10_state R52, R53). -/
  src : Nat
  /-- Decoder: destination pixel index (10_state R52). -/
  dst : Nat
  /-- Decoder: the control word being executed (10_state R52). -/
  cw : Word
  /-- Decoder: zext(cw[15:0]) (10_state R52). -/
  count : Nat
  /-- Decoder: zext(cw[27:16]) (10_state R52). -/
  line : Nat
  /-- The memory space (20_memory R71). -/
  mem : Memory
  /-- The platform's device memory (20_memory R89; log 8). -/
  devices : List Region
  /-- NUM_INSTANCES, this instance included (60_exceptions R227; log 5). No step changes it. -/
  instances : Nat
  /-- The running operations of other instances (60_exceptions R227; log 9). -/
  others : List OtherOp
  /-- The regions of this block's operations that have completed and whose DONE = 1 the host has not seen yet: the exclusion of
  20_memory R80 item 2 and 70_reset R258 goes on for them (log 15). -/
  unseen : List Claim
  /-- MODEL's own: what the outside world and the engine do next, in order (log 3). -/
  inputs : List Input
  /-- MODEL's own: what the last host read returned (log 3). -/
  reply : Reply
  /-- MODEL's own: how many free values were drawn (log 6). -/
  draws : Nat
  deriving DecidableEq, Repr

/-- The answer of a step or a meaning. -/
abbrev Answer := Host.Outcome State Fault Refusal

/-- The machine right after reset (70_reset R250, 10_state R32). The working registers (log 2), the memory (log 1), the platform
fields (log 5, log 8, log 9) and the model's own fields (log 3, log 6) hold DESIGN CHOICE values, and no completion is unseen (log
15). -/
def State.reset : State where
  phase := .idle
  done := false
  cmdErr := false
  doneIe := false
  result := .success
  magic := 0
  version := 0
  subVersion := 0
  width := 0
  height := 0
  id := 0
  uncompressed := 0
  payloadSize := 0
  srcBaseHi := 0
  dstBaseHi := 0
  dstCap := 0
  partFirstLine := 0
  partLineCount := 0
  reserved := List.replicate Config.hdrReservedWords 0
  i := 0
  j := 0
  k := 0
  out := 0
  first := false
  a := 0
  b := 0
  src := 0
  dst := 0
  cw := 0
  count := 0
  line := 0
  mem := []
  devices := []
  instances := Config.numInstances
  others := []
  unseen := []
  inputs := []
  reply := .none
  draws := 0

end Sys2Proof.Machine
end

