-- ==== Sys2Proof/Machine/Ops.lean ====
section
/-! DEFINITION. The named operations over memory, the quantities derived from the header, the regions of an operation, and the
engine's completion (00_scope R10, R15, R16; 20_memory R70 to R79; 60_exceptions R224). -/

namespace Sys2Proof.Machine

/-! ### Memory as bytes -/

/-- What an address nothing has written reads as. DESIGN CHOICE (log 1): 0x00; reset does not touch memory (70_reset R250) and
the spec gives no power-on content. -/
def Memory.unlisted : Byte := 0x00

/-- The byte at an address. -/
def Memory.read : Memory → Nat → Byte
  | [], _ => Memory.unlisted
  | (c, v) :: rest, addr => if c = addr then v else Memory.read rest addr

/-- The memory without any entry for an address. -/
def Memory.erase (m : Memory) (addr : Nat) : Memory := m.filter fun cell => decide (cell.1 ≠ addr)

/-- An entry put before the first entry of a higher address. -/
def Memory.insert : Memory → Nat → Byte → Memory
  | [], addr, v => [(addr, v)]
  | (c, x) :: rest, addr, v =>
    if addr < c then (addr, v) :: (c, x) :: rest else (c, x) :: Memory.insert rest addr v

/-- The memory after a byte is written, in canonical form. -/
def Memory.write (m : Memory) (addr : Nat) (v : Byte) : Memory :=
  if v = Memory.unlisted then m.erase addr else (m.erase addr).insert addr v

/-- The memory with every byte of a range as an unlisted address reads, that is 0x00 (log 1). -/
def Memory.clear (m : Memory) (base len : Nat) : Memory :=
  m.filter fun cell => decide (cell.1 < base ∨ base + len ≤ cell.1)

/-- The canonical form: addresses strictly rising and inside the space, no entry equal to what an unlisted address reads as. -/
def Memory.wf (m : Memory) : Bool :=
  decide (m.Pairwise fun x y => x.1 < y.1) &&
    m.all fun cell => decide (cell.2 ≠ Memory.unlisted) && decide (cell.1 < Config.addressSpace)

/-! ### Memory as little-endian words -/

/-- MemRead(addr, 4) (00_scope R15, 20_memory R70). -/
def Memory.read32 (m : Memory) (addr : Nat) : Word :=
  wordOfBytes (m.read addr) (m.read (addr + 1)) (m.read (addr + 2)) (m.read (addr + 3))

/-- Bytes written one after another, from an address upward. -/
def Memory.writeBytes : Memory → Nat → List Byte → Memory
  | m, _, [] => m
  | m, addr, v :: rest => Memory.writeBytes (m.write addr v) (addr + 1) rest

/-- MemWrite(addr, 4, w) (00_scope R15, 20_memory R70). -/
def Memory.write32 (m : Memory) (addr : Nat) (w : Word) : Memory := m.writeBytes addr (wordBytes w)

/-- Words written one after another, 4 bytes apart (30_encoding R102). -/
def Memory.writeWords : Memory → Nat → List Word → Memory
  | m, _, [] => m
  | m, addr, w :: rest => Memory.writeWords (m.write32 addr w) (addr + 4) rest

/-- Words copied one at a time, in order, from one place to another (the loop of 42_decoder R185). -/
def Memory.copyWords : Memory → Nat → Nat → Nat → Memory
  | m, _, _, 0 => m
  | m, source, dest, n + 1 =>
    Memory.copyWords (m.write32 dest (m.read32 source)) (source + 4) (dest + 4) n

/-- One word written n times, in order (the loop of 42_decoder R187). -/
def Memory.fillWords : Memory → Nat → Word → Nat → Memory
  | m, _, _, 0 => m
  | m, dest, w, n + 1 => Memory.fillWords (m.write32 dest w) (dest + 4) w n

/-- Every byte of a range gets the free value of one draw (70_reset R252; 93 I11). -/
def Memory.scramble (m : Memory) (draw base : Nat) : Nat → Memory
  | 0 => m
  | n + 1 => (Memory.scramble m draw base n).write (base + n) (Config.freeByte draw (base + n))

/-! ### Regions -/

/-- An access of n words from an address stays inside the space; an access of no words is none. -/
def spanFits (addr n : Nat) : Bool := decide (n = 0) || decide (addr + 4 * n ≤ Config.addressSpace)

/-- A region does not pass 2^32 (20_memory R78). -/
def Region.inSpace (r : Region) : Bool := decide (r.base + r.len ≤ Config.addressSpace)

/-- An address lies in a region. -/
def Region.contains (r : Region) (addr : Nat) : Bool := decide (r.base ≤ addr ∧ addr < r.base + r.len)

/-- Two regions share a byte (20_memory R79). -/
def Region.overlaps (r t : Region) : Bool :=
  decide (0 < r.len ∧ 0 < t.len ∧ r.base < t.base + t.len ∧ t.base < r.base + r.len)

/-! ### Quantities of the header (00_scope R10), exact (00_scope R13) -/

/-- N = WIDTH * HEIGHT (00_scope R10). -/
def State.pixelCount (s : State) : Nat := s.width.toNat * s.height.toNat

/-- FRAME_BYTES = 4 * N (00_scope R10). -/
def State.frameBytes (s : State) : Nat := 4 * s.pixelCount

/-- P = PAYLOAD_SIZE (42_decoder R180). -/
def State.payload (s : State) : Nat := s.payloadSize.toNat

/-- The pixel index a start line names: line * WIDTH, exact (30_encoding R106). -/
def State.lineStart (s : State) (line : Nat) : Nat := line * s.width.toNat

/-! ### Base addresses (10_state R46) -/

/-- SRC_BASE, with its two hardwired zeros. -/
def State.srcBase (s : State) : Word := s.srcBaseHi ++ 0#2

/-- DST_BASE, with its two hardwired zeros. -/
def State.dstBase (s : State) : Word := s.dstBaseHi ++ 0#2

/-- The address of byte `off` of the source region. -/
def State.srcAddr (s : State) (off : Nat) : Nat := s.srcBase.toNat + off

/-- The address of byte `off` of the destination region. -/
def State.dstAddr (s : State) (off : Nat) : Nat := s.dstBase.toNat + off

/-! ### Regions of an operation (20_memory R72; log 7) -/

/-- The frame at SRC_BASE: the source region of an ENCODE. -/
def State.frameSource (s : State) : Region := ⟨s.srcBase.toNat, s.frameBytes⟩

/-- The pixels [a, b) of that frame: the source region of an ENCODE_PARTIAL, which reads no other (20_memory R72, 00_scope R19;
log 7). -/
def State.pixelSource (s : State) (a b : Nat) : Region := ⟨s.srcAddr (4 * a), 4 * (b - a)⟩

/-- DST_CAP bytes at DST_BASE: the destination region of an encode. -/
def State.streamDest (s : State) : Region := ⟨s.dstBase.toNat, s.dstCap.toNat⟩

/-- P bytes at SRC_BASE: the source region of a DECODE. -/
def State.streamSource (s : State) : Region := ⟨s.srcBase.toNat, s.payload⟩

/-- The frame at DST_BASE: the destination region of a DECODE. -/
def State.frameDest (s : State) : Region := ⟨s.dstBase.toNat, s.frameBytes⟩

/-- An empty region. -/
def Region.empty : Region := ⟨0, 0⟩

/-- The source region of an operation; HDR_INIT reads no memory (20_memory R72). The band of an ENCODE_PARTIAL is [a, b), set at
its issue. -/
def State.sourceOf (s : State) : Op → Region
  | .hdrInit => Region.empty
  | .encode => s.frameSource
  | .encodePartial => s.pixelSource s.a s.b
  | .decode => s.streamSource

/-- The destination region of an operation; HDR_INIT writes no memory (20_memory R72). -/
def State.destOf (s : State) : Op → Region
  | .hdrInit => Region.empty
  | .encode => s.streamDest
  | .encodePartial => s.streamDest
  | .decode => s.frameDest

/-- The source region of the running operation; none runs in IDLE. -/
def State.activeSource (s : State) : Region :=
  match s.phase with
  | .idle => Region.empty
  | .busy op => s.sourceOf op

/-- The destination region of the running operation; none runs in IDLE. -/
def State.activeDest (s : State) : Region :=
  match s.phase with
  | .idle => Region.empty
  | .busy op => s.destOf op

/-- The source regions nobody may write: the running operation's and those whose completion the host has not seen (20_memory R80,
70_reset R258; log 15). -/
def State.heldSources (s : State) : List Region := s.activeSource :: s.unseen.map Claim.reads

/-- The destination regions nobody may write and whose bytes a host reads as any value (20_memory R80, 70_reset R258; log 15). -/
def State.heldDests (s : State) : List Region := s.activeDest :: s.unseen.map Claim.writes

/-! ### Completion (60_exceptions R224) and the ways to it (00_scope R16) -/

/-- The regions of the running operation, both of them (20_memory R72). -/
def State.activeClaim (s : State) : Claim := ⟨s.activeSource, s.activeDest⟩

/-- The completion event C: RESULT, phase, BUSY and DONE in one step; nothing is saved (60_exceptions R224). There is no return
from it (60_exceptions R225). The operation's regions stay exclusive until the host sees DONE = 1 (70_reset R258; log 15). -/
def State.complete (s : State) (code : ResultCode) : State :=
  { s with result := code, phase := .idle, done := true, unseen := s.activeClaim :: s.unseen }

/-- finish(0) (00_scope R16). -/
def finish (s : State) : Answer := .next (s.complete .success)

/-- raise DecodeError(code): the only exception the block has (00_scope R16, 42_decoder R190). -/
def raiseDecodeError (code : ResultCode) (s : State) : Answer := .next (s.complete code)

/-- One answer after another; a fault or a refusal ends the run. -/
def andThen (r : Answer) (f : State → Answer) : Answer :=
  match r with
  | .next s => f s
  | .fault e => .fault e
  | .refused e => .refused e

end Sys2Proof.Machine
end

