-- ==== Sys2Proof/Machine/Operands.lean ====
section
/-! DEFINITION. What the instructions and the register window name: the pixels and the stream words, the band of a partial encode,
and the register map (00_scope R15; 10_state R32; 41_encoder R150). -/

namespace Sys2Proof.Machine

/-! ### Words of the source and the destination (00_scope R15) -/

/-- Pix(p), pixel p of the source frame (00_scope R15). -/
def State.pix (s : State) (p : Nat) : Word := s.mem.read32 (s.srcAddr (4 * p))

/-- SrcWord(off), the word at byte offset `off` of the source stream (00_scope R15). -/
def State.srcWord (s : State) (off : Nat) : Word := s.mem.read32 (s.srcAddr off)

/-- Pixel p of the destination region, as memory holds it. -/
def State.dstPix (s : State) (p : Nat) : Word := s.mem.read32 (s.dstAddr (4 * p))

/-! ### The band of ENCODE_PARTIAL (41_encoder R150) -/

/-- fl = PART_FIRST_LINE. -/
def State.firstLine (s : State) : Nat := s.partFirstLine.toNat

/-- lc = PART_LINE_COUNT. -/
def State.lineCount (s : State) : Nat := s.partLineCount.toNat

/-- a = fl * WIDTH. -/
def State.bandStart (s : State) : Nat := s.lineStart s.firstLine

/-- b = (fl + lc) * WIDTH. -/
def State.bandEnd (s : State) : Nat := s.lineStart (s.firstLine + s.lineCount)

/-! ### The register map (10_state R32) -/

/-- The registers of the window by name. RESERVED[r] is named for every offset 0x100 + 4r; those with r beyond the machine's
HDR_RESERVED_WORDS read 0 and ignore writes, as unassigned offsets do. -/
inductive Reg where
  | ctrl
  | status
  | result
  | irqEn
  | magic
  | version
  | width
  | height
  | id
  | uncompressed
  | payloadSize
  | srcBase
  | dstBase
  | dstCap
  | partFirstLine
  | partLineCount
  | reserved (r : Nat)
  | unassigned
  deriving DecidableEq, Repr

/-- The register at an offset of the window (10_state R32). -/
def regAt (offset : Nat) : Reg :=
  match offset with
  | 0x000 => .ctrl
  | 0x004 => .status
  | 0x008 => .result
  | 0x00C => .irqEn
  | 0x010 => .magic
  | 0x014 => .version
  | 0x018 => .width
  | 0x01C => .height
  | 0x020 => .id
  | 0x024 => .uncompressed
  | 0x028 => .payloadSize
  | 0x02C => .srcBase
  | 0x030 => .dstBase
  | 0x034 => .dstCap
  | 0x038 => .partFirstLine
  | 0x03C => .partLineCount
  | other => if 0x100 ≤ other ∧ other % 4 = 0 then .reserved ((other - 0x100) / 4) else .unassigned

/-- A register access the block answers: 4 bytes wide, at a multiple of 4 (20_memory R75). -/
def regAccessOk (offset : BitVec 12) (width : Nat) : Bool := decide (width = 4) && decide (offset.toNat % 4 = 0)

end Sys2Proof.Machine
end

