-- ==== Sys2Proof/Machine/Flags.lean ====
section
/-! DEFINITION. The status flags, the interrupt output and the result word: who sets each and how each reads
(10_state R34 to R39; 30_encoding R110, R111; 60_exceptions R222, R230). -/

namespace Sys2Proof.Machine

/-- STATUS.BUSY (10_state R34, R50). -/
def State.busy (s : State) : Bool :=
  match s.phase with
  | .idle => false
  | .busy _ => true

/-- One bit as a word. -/
def bitWord (b : Bool) (n : Nat) : Word := if b then BitVec.twoPow 32 n else 0#32

/-- STATUS as the host reads it: BUSY, DONE, CMD_ERR in bits 0, 1, 2, and 0 above (10_state R34 to R37). -/
def State.statusWord (s : State) : Word := bitWord s.busy 0 ||| bitWord s.done 1 ||| bitWord s.cmdErr 2

/-- A host write of STATUS: writing 1 clears DONE or CMD_ERR, BUSY is read-only (10_state R34 to R37). -/
def State.writeStatus (s : State) (v : Word) : State :=
  { s with done := s.done && !v.getLsbD 1, cmdErr := s.cmdErr && !v.getLsbD 2 }

/-- IRQ_EN as the host reads it (10_state R39). -/
def State.irqEnWord (s : State) : Word := bitWord s.doneIe 0

/-- The interrupt output: level, DONE AND DONE_IE (60_exceptions R230). -/
def State.irq (s : State) : Bool := s.done && s.doneIe

/-- RESULT as the host reads it: the code in 32-bit two's complement (10_state R38, 60_exceptions R222). -/
def ResultCode.word : ResultCode → Word
  | .success => 0x00000000
  | .unknownCode => 0xFFFFFFFF
  | .sourceOverrun => 0xFFFFFFFE
  | .destinationOverrun => 0xFFFFFFFD

/-- The flags of an accepted command: BUSY set (by the phase), DONE cleared (30_encoding R110). -/
def State.issue (s : State) (op : Op) : State := { s with phase := .busy op, done := false }

/-- A rejected command sets CMD_ERR and changes nothing else (30_encoding R111). -/
def State.rejectCommand (s : State) : State := { s with cmdErr := true }

end Sys2Proof.Machine
end

