-- ==== Sys2Proof/Machine/Scan.lean ====
section
/-! DEFINITION. The encoder's scan as functions of the pixels: run detection, the literal flush, the words one pass of the main
loop emits, and the whole stream (41_encoder R141 to R147, R151). `pix p` is pixel p of the frame; `b` is the end of the range. -/

namespace Sys2Proof.Machine

/-- KIND_LIT (41_encoder R142). -/
def kindLit : BitVec 4 := 0x1

/-- KIND_RUN (41_encoder R142). -/
def kindRun : BitVec 4 := 0x3

/-- The EOS word the encoder emits (41_encoder R147). -/
def eosWord : Word := 0xF0000000

/-- EmitRecord's control word: the WSL kind with LINE = fl for the first record of a partial encode, else LINE = 0
(41_encoder R146, R149). -/
def recordWord (first : Bool) (fl : BitVec 12) (kind : BitVec 4) (count : Nat) : Word :=
  if first then controlWord (kind + 1) fl (BitVec.ofNat 16 count) else controlWord kind 0 (BitVec.ofNat 16 count)

/-- The lookahead loop of RunLength from j on; `fuel` bounds its turns (41_encoder R143). -/
def extendRun (pix : Nat → Word) (i b : Nat) : Nat → Nat → Nat
  | 0, j => j
  | fuel + 1, j =>
    if j < b ∧ j - i < Config.maxCount ∧ pix j = pix i then extendRun pix i b fuel (j + 1) else j

/-- RunLength(i, b): the length of the run of pixels equal to pixel i, capped at MAX_COUNT and at b (41_encoder R143). -/
def runLength (pix : Nat → Word) (i b : Nat) : Nat :=
  extendRun pix i b (min Config.maxCount (b - i)) (i + 1) - i

/-- The pixels [s, s + n) in order. -/
def pixelsFrom (pix : Nat → Word) (s n : Nat) : List Word := (List.range n).map fun t => pix (s + t)

/-- FlushLiteral(s, e): records of at most MAX_COUNT pixels, in order from s; `fuel` bounds the records (41_encoder R145). -/
def flushLiteral (pix : Nat → Word) (fl : BitVec 12) (e : Nat) : Nat → Bool → Nat → List Word
  | 0, _, _ => []
  | fuel + 1, first, s =>
    if s < e then
      recordWord first fl kindLit (min Config.maxCount (e - s)) ::
        (pixelsFrom pix s (min Config.maxCount (e - s)) ++
          flushLiteral pix fl e fuel false (s + min Config.maxCount (e - s)))
    else []

/-- The words of the pending span [k, e), nothing when it is empty (41_encoder R145). -/
def literalWords (pix : Nat → Word) (fl : BitVec 12) (first : Bool) (k e : Nat) : List Word :=
  flushLiteral pix fl e (e - k) first k

/-- A pass of the main loop finds a run (41_encoder R144). -/
def isRun (pix : Nat → Word) (i b : Nat) : Bool := decide (Config.runMin ≤ runLength pix i b)

/-- The words one pass of the main loop emits: on a run, the pending literal, then the run record (41_encoder R142). -/
def passWords (pix : Nat → Word) (fl : BitVec 12) (b i k : Nat) (first : Bool) : List Word :=
  if isRun pix i b then
    literalWords pix fl first k i ++ [recordWord (first && !decide (k < i)) fl kindRun (runLength pix i b), pix i]
  else []

/-- Where the scan stands after a pass (41_encoder R142). -/
def passNext (pix : Nat → Word) (b i : Nat) : Nat := if isRun pix i b then i + runLength pix i b else i + 1

/-- Where the pending span starts after a pass (41_encoder R142). -/
def passPending (pix : Nat → Word) (b i k : Nat) : Nat := if isRun pix i b then i + runLength pix i b else k

/-- Whether no record has been emitted yet after a pass (41_encoder R146). -/
def passFirst (pix : Nat → Word) (b i : Nat) (first : Bool) : Bool := if isRun pix i b then false else first

/-- The words after the main loop: the trailing literal and EOS (41_encoder R142, R147, R156). -/
def tailWords (pix : Nat → Word) (fl : BitVec 12) (b k : Nat) (first : Bool) : List Word :=
  literalWords pix fl first k b ++ [eosWord]

/-- Whether no record has been emitted yet after the trailing flush: it emits one exactly when the span is not empty (41_encoder
R142, R146). -/
def tailFirst (b k : Nat) (first : Bool) : Bool := first && !decide (k < b)

/-- The words the scan still emits from (i, k, first) on; `fuel` bounds the passes (41_encoder R142, R153). -/
def scanWords (pix : Nat → Word) (fl : BitVec 12) (b : Nat) : Nat → Nat → Nat → Bool → List Word
  | 0, _, k, first => tailWords pix fl b k first
  | fuel + 1, i, k, first =>
    if i < b then
      passWords pix fl b i k first ++
        scanWords pix fl b fuel (passNext pix b i) (passPending pix b i k) (passFirst pix b i first)
    else tailWords pix fl b k first

/-- The words Encode(a, b, partial, fl) emits (41_encoder R141, R142). -/
def encodeWords (pix : Nat → Word) (fl : BitVec 12) (a b : Nat) (partialBand : Bool) : List Word :=
  scanWords pix fl b (b - a) a a partialBand

/-- EncLen(a, b): the bytes Encode emits, the same for a partial encode (41_encoder R151). -/
def encLen (pix : Nat → Word) (a b : Nat) : Nat := 4 * (encodeWords pix 0 a b false).length

end Sys2Proof.Machine
end

