-- ==== Sys2Proof/Machine/Commands.lean ====
section
/-! DEFINITION. The meanings of the command words: acceptance and rejection (30_encoding R110, R111), the preconditions of each
operation (20_memory R78, R79, R89; 41_encoder R140, R150; 42_decoder R180) and what it starts with (41_encoder R141, 42_decoder
R181). An accepted operation then runs in Machine/Engine.lean. -/

namespace Sys2Proof.Machine

/-! ### Preconditions; the order in which they are tried is a DESIGN CHOICE (log 12) -/

/-- Neither region passes 2^32 (20_memory R78). -/
def regionsInRange (source dest : Region) : Bool := source.inSpace && dest.inSpace

/-- A region touches the platform's device memory (20_memory R89). -/
def State.touchesDevice (s : State) (r : Region) : Bool := s.devices.any fun d => d.overlaps r

/-- The regions of an operation clash with another instance's running operation: a byte one of them writes is read or written
by the other (60_exceptions R227). -/
def claimsClash (source dest : Region) (c : Claim) : Bool :=
  c.writes.overlaps source || c.writes.overlaps dest || c.reads.overlaps dest

/-- What the regions of an operation refuse: RANGE, OVERLAP, DEVICE_MEMORY, RACE (60_exceptions R238). -/
def State.regionRefusal (s : State) (source dest : Region) : Option Refusal :=
  if !regionsInRange source dest then some .range
  else if source.overlaps dest then some .overlap
  else if s.touchesDevice source || s.touchesDevice dest then some .deviceMemory
  else if s.others.any fun o => claimsClash source dest o.claim then some .race
  else none

/-- The capacity precondition: EncLen(a, b) <= DST_CAP (41_encoder R140, R150). -/
def State.capacityRefusal (s : State) (a b : Nat) : Option Refusal :=
  if s.dstCap.toNat < encLen s.pix a b then some .capacity else none

/-- What an ENCODE issued now refuses (41_encoder R140). -/
def State.encodeRefusal (s : State) : Option Refusal :=
  match s.regionRefusal s.frameSource s.streamDest with
  | some r => some r
  | none => s.capacityRefusal 0 s.pixelCount

/-- What an ENCODE_PARTIAL issued now refuses: RANGE is tested for the whole frame, the rest for the band (41_encoder R150,
20_memory R72, R78; log 7). -/
def State.encodePartialRefusal (s : State) : Option Refusal :=
  if s.height.toNat < s.firstLine + s.lineCount then some .range
  else if !regionsInRange s.frameSource s.streamDest then some .range
  else
    match s.regionRefusal (s.pixelSource s.bandStart s.bandEnd) s.streamDest with
    | some r => some r
    | none => s.capacityRefusal s.bandStart s.bandEnd

/-- What a DECODE issued now refuses (42_decoder R180). -/
def State.decodeRefusal (s : State) : Option Refusal := s.regionRefusal s.streamSource s.frameDest

/-! ### Issue -/

/-- The encoder's working registers at the start of Encode(a, b, partial, fl) (41_encoder R141). R141 does not set j; DESIGN CHOICE
(log 2): it starts at a, and RunLength sets it before anything reads it (41_encoder R143). -/
def State.startEncode (s : State) (a b : Nat) (partialBand : Bool) : State :=
  { s with a := a, b := b, i := a, j := a, k := a, out := 0, first := partialBand }

/-- The decoder's cursors at the start of a DECODE (42_decoder R181). -/
def State.startDecode (s : State) : State := { s with src := 0, dst := 0 }

/-- A command word with START = 1: rejected while BUSY (30_encoding R111), refused when a precondition fails (00_scope R16),
else accepted and started (30_encoding R110). -/
def command (refusal : Option Refusal) (started : State) (s : State) : Answer :=
  if s.busy then .next s.rejectCommand
  else
    match refusal with
    | some r => .refused r
    | none => .next started

/-- HDR_INIT: no precondition (40_header R130). -/
def execHdrInit (s : State) : Answer := command none (s.issue .hdrInit) s

/-- ENCODE (41_encoder R140). -/
def execEncode (s : State) : Answer :=
  command s.encodeRefusal ((s.issue .encode).startEncode 0 s.pixelCount false) s

/-- ENCODE_PARTIAL (41_encoder R150). -/
def execEncodePartial (s : State) : Answer :=
  command s.encodePartialRefusal ((s.issue .encodePartial).startEncode s.bandStart s.bandEnd true) s

/-- DECODE (42_decoder R180). -/
def execDecode (s : State) : Answer := command s.decodeRefusal (s.issue .decode).startDecode s

/-- A reserved command is rejected, BUSY or not (30_encoding R111). -/
def reservedCommand (s : State) : Answer := .next s.rejectCommand

/-- RESERVED_CMD_0 (30_encoding R111). -/
def execReservedCmd0 (s : State) : Answer := reservedCommand s

/-- RESERVED_CMD_5 (30_encoding R111). -/
def execReservedCmd5 (s : State) : Answer := reservedCommand s

/-- RESERVED_CMD_6 (30_encoding R111). -/
def execReservedCmd6 (s : State) : Answer := reservedCommand s

/-- RESERVED_CMD_7 (30_encoding R111). -/
def execReservedCmd7 (s : State) : Answer := reservedCommand s

end Sys2Proof.Machine
end

