-- ==== Sys2Proof/Machine/Records.lean ====
section
/-! DEFINITION. The meanings of the record kinds (42_decoder R184 to R189). They run after the fetch: `s.src` is the offset just
after the control word (42_decoder R182). The check order is destination, then source (42_decoder R195). -/

namespace Sys2Proof.Machine

/-- The copy of a literal's pixels, and both cursors behind it (42_decoder R185). -/
def State.copied (s : State) (count : Nat) : State :=
  { s with
    mem := s.mem.copyWords (s.srcAddr s.src) (s.dstAddr (4 * s.dst)) count
    src := s.src + 4 * count
    dst := s.dst + count }

/-- The fill with a run's pixel, and both cursors behind it (42_decoder R187). -/
def State.filled (s : State) (count : Nat) : State :=
  { s with
    mem := s.mem.fillWords (s.dstAddr (4 * s.dst)) (s.srcWord s.src) count
    src := s.src + 4
    dst := s.dst + count }

/-- LIT(count): both checks, then the copy, then both cursors (42_decoder R185). -/
def literalRecord (count : Nat) (s : State) : Answer :=
  if s.pixelCount < s.dst + count then raiseDecodeError .destinationOverrun s
  else if s.payload < s.src + 4 * count then raiseDecodeError .sourceOverrun s
  else if spanFits (s.srcAddr s.src) count && spanFits (s.dstAddr (4 * s.dst)) count then
    .next (s.copied count)
  else .fault .outsideAddressSpace

/-- RUN(count): both checks, the pixel read, then the fill, then both cursors (42_decoder R187). -/
def runRecord (count : Nat) (s : State) : Answer :=
  if s.pixelCount < s.dst + count then raiseDecodeError .destinationOverrun s
  else if s.payload < s.src + 4 then raiseDecodeError .sourceOverrun s
  else if spanFits (s.srcAddr s.src) 1 && spanFits (s.dstAddr (4 * s.dst)) count then
    .next (s.filled count)
  else .fault .outsideAddressSpace

/-- A start-line record first repositions the destination cursor: dst <- line * WIDTH (42_decoder R186, R188). -/
def State.repositioned (s : State) (line : Nat) : State := { s with dst := s.lineStart line }

/-- LIT (42_decoder R185). -/
def execLit (count : Nat) (s : State) : Answer := literalRecord count s

/-- LIT_WSL (42_decoder R186). -/
def execLitWsl (line count : Nat) (s : State) : Answer := literalRecord count (s.repositioned line)

/-- RUN (42_decoder R187). -/
def execRun (count : Nat) (s : State) : Answer := runRecord count s

/-- RUN_WSL (42_decoder R188). -/
def execRunWsl (line count : Nat) (s : State) : Answer := runRecord count (s.repositioned line)

/-- EOS: finish(0) (42_decoder R184). -/
def execEos (s : State) : Answer := finish s

/-- A reserved kind: raise DecodeError(-1), nothing read (42_decoder R189). -/
def unknownKind (s : State) : Answer := raiseDecodeError .unknownCode s

/-- RESERVED_KIND_0x0 (42_decoder R189). -/
def execReservedKind0 (s : State) : Answer := unknownKind s

/-- RESERVED_KIND_0x5 (42_decoder R189). -/
def execReservedKind5 (s : State) : Answer := unknownKind s

/-- RESERVED_KIND_0x6 (42_decoder R189). -/
def execReservedKind6 (s : State) : Answer := unknownKind s

/-- RESERVED_KIND_0x7 (42_decoder R189). -/
def execReservedKind7 (s : State) : Answer := unknownKind s

/-- RESERVED_KIND_0x8 (42_decoder R189). -/
def execReservedKind8 (s : State) : Answer := unknownKind s

/-- RESERVED_KIND_0x9 (42_decoder R189). -/
def execReservedKind9 (s : State) : Answer := unknownKind s

/-- RESERVED_KIND_0xA (42_decoder R189). -/
def execReservedKindA (s : State) : Answer := unknownKind s

/-- RESERVED_KIND_0xB (42_decoder R189). -/
def execReservedKindB (s : State) : Answer := unknownKind s

/-- RESERVED_KIND_0xC (42_decoder R189). -/
def execReservedKindC (s : State) : Answer := unknownKind s

/-- RESERVED_KIND_0xD (42_decoder R189). -/
def execReservedKindD (s : State) : Answer := unknownKind s

/-- RESERVED_KIND_0xE (42_decoder R189). -/
def execReservedKindE (s : State) : Answer := unknownKind s

end Sys2Proof.Machine
end

