-- ==== Sys2Proof/Machine/Dispatch.lean ====
section
/-! DEFINITION. One arm for each instruction: the record kinds (42_decoder R183) and the command words (30_encoding R112). -/

namespace Sys2Proof.Machine

def exec (i : Instr) (s : State) : Host.Outcome State Fault Refusal :=
  match i with
  -- record kinds
  | .lit _ count => Sys2Proof.Machine.execLit count s
  | .litWsl line count => Sys2Proof.Machine.execLitWsl line count s
  | .run _ count => Sys2Proof.Machine.execRun count s
  | .runWsl line count => Sys2Proof.Machine.execRunWsl line count s
  | .eos _ => Sys2Proof.Machine.execEos s
  | .reservedKind0 _ => Sys2Proof.Machine.execReservedKind0 s
  | .reservedKind5 _ => Sys2Proof.Machine.execReservedKind5 s
  | .reservedKind6 _ => Sys2Proof.Machine.execReservedKind6 s
  | .reservedKind7 _ => Sys2Proof.Machine.execReservedKind7 s
  | .reservedKind8 _ => Sys2Proof.Machine.execReservedKind8 s
  | .reservedKind9 _ => Sys2Proof.Machine.execReservedKind9 s
  | .reservedKindA _ => Sys2Proof.Machine.execReservedKindA s
  | .reservedKindB _ => Sys2Proof.Machine.execReservedKindB s
  | .reservedKindC _ => Sys2Proof.Machine.execReservedKindC s
  | .reservedKindD _ => Sys2Proof.Machine.execReservedKindD s
  | .reservedKindE _ => Sys2Proof.Machine.execReservedKindE s
  -- command words
  | .hdrInit _ => Sys2Proof.Machine.execHdrInit s
  | .encode _ => Sys2Proof.Machine.execEncode s
  | .encodePartial _ => Sys2Proof.Machine.execEncodePartial s
  | .decode _ => Sys2Proof.Machine.execDecode s
  | .reservedCmd0 _ => Sys2Proof.Machine.execReservedCmd0 s
  | .reservedCmd5 _ => Sys2Proof.Machine.execReservedCmd5 s
  | .reservedCmd6 _ => Sys2Proof.Machine.execReservedCmd6 s
  | .reservedCmd7 _ => Sys2Proof.Machine.execReservedCmd7 s

end Sys2Proof.Machine
end

