-- ==== Sys2Proof/Machine/Engine.lean ====
section
/-! DEFINITION. The engine's turn: what the running operation does next (40_header R130; 41_encoder R142; 42_decoder R182, R183).
One turn is one HDR_INIT, one pass of the encoder's main loop or its ending, or one record of the decoder (log 3). -/

namespace Sys2Proof.Machine

/-! ### HDR_INIT -/

/-- What HDR_INIT writes (40_header R130); WIDTH, HEIGHT, PAYLOAD_SIZE and the rest keep their values (40_header R131). -/
def State.headerInitialised (s : State) : State :=
  { s with
    magic := Config.oifMagic
    version := Config.oifVersion
    subVersion := Config.oifSubVersion
    id := 0
    uncompressed := 0
    reserved := s.reserved.map fun _ => 0 }

/-- HDR_INIT runs and finishes (40_header R130). -/
def hdrInitTurn (s : State) : Answer := finish s.headerInitialised

/-! ### The encoder -/

/-- The words the encoder's next turn emits: a pass of the main loop, or the ending (41_encoder R142). -/
def State.turnWords (s : State) : List Word :=
  if s.i < s.b then passWords s.pix s.partFirstLine s.b s.i s.k s.first
  else tailWords s.pix s.partFirstLine s.b s.k s.first

/-- The words written by Emit, and `out` after them (00_scope R15). -/
def State.emitted (s : State) (ws : List Word) : State :=
  { s with mem := s.mem.writeWords (s.dstAddr s.out) ws, out := s.out + 4 * ws.length }

/-- The scan's cursors after a pass (41_encoder R142, R143, R146). -/
def State.scanned (s : State) : State :=
  { s with
    i := passNext s.pix s.b s.i
    j := s.i + runLength s.pix s.i s.b
    k := passPending s.pix s.b s.i s.k
    first := passFirst s.pix s.b s.i s.first }

/-- `first` after the trailing flush, which clears it when it emits the first record (41_encoder R146). Nothing reads it after that
(10_state R55); that the value stays there after the completion is the model's choice (log 2). -/
def State.flushed (s : State) : State := { s with first := tailFirst s.b s.k s.first }

/-- PAYLOAD_SIZE <- out (41_encoder R148). -/
def State.payloadWritten (s : State) (bytes : Nat) : State := { s with payloadSize := BitVec.ofNat 32 bytes }

/-- One turn of the encoder. The first two tests are true of no state a run reaches: the issue tested RANGE and CAPACITY
(log 10). The pixels are read from the memory before the turn's writes, which R79 and R81 make the same as the spec's order. -/
def encodeTurn (s : State) : Answer :=
  if s.dstCap.toNat < s.out + 4 * s.turnWords.length then .refused .capacity
  else if !(spanFits (s.srcAddr 0) s.b && spanFits (s.dstAddr s.out) s.turnWords.length) then .fault .outsideAddressSpace
  else if s.i < s.b then .next (s.scanned.emitted s.turnWords)
  else finish ((s.flushed.emitted s.turnWords).payloadWritten (s.out + 4 * s.turnWords.length))

/-! ### The decoder -/

/-- The fetch's effect: cw, its fields, and src past it (42_decoder R182, R183). -/
def State.fetched (s : State) : State :=
  { s with
    cw := s.srcWord s.src
    count := (countOf (s.srcWord s.src)).toNat
    line := (lineOf (s.srcWord s.src)).toNat
    src := s.src + 4 }

/-- One record: fetch with its check first, then dispatch on KIND (42_decoder R182, R183). -/
def decodeTurn (s : State) : Answer :=
  if s.payload < s.src + 4 then raiseDecodeError .sourceOverrun s
  else if !spanFits (s.srcAddr s.src) 1 then .fault .outsideAddressSpace
  else exec (decodeRecord (s.srcWord s.src)) s.fetched

/-! ### The engine -/

/-- The engine's turn; in IDLE it waits for a command (70_reset R251). -/
def engineTurn (s : State) : Answer :=
  match s.phase with
  | .idle => .next s
  | .busy .hdrInit => hdrInitTurn s
  | .busy .encode => encodeTurn s
  | .busy .encodePartial => encodeTurn s
  | .busy .decode => decodeTurn s

end Sys2Proof.Machine
end

