-- ==== Sys2Proof/Machine/HostPort.lean ====
section
/-! DEFINITION. What the outside world does to the block: register and memory accesses, other instances, reset, and the cycle they
share with the engine (10_state R32 to R49, R56; 20_memory R75, R80; 60_exceptions R227, R228; 70_reset R250, R252, R265). -/

namespace Sys2Proof.Machine

/-! ### The register window -/

/-- The value a register reads as (10_state R32). -/
def State.readReg (s : State) : Reg → Word
  | .ctrl => 0
  | .status => s.statusWord
  | .result => s.result.word
  | .irqEn => s.irqEnWord
  | .magic => s.magic
  | .version => s.subVersion ++ s.version
  | .width => s.width
  | .height => s.height
  | .id => s.id
  | .uncompressed => s.uncompressed
  | .payloadSize => s.payloadSize
  | .srcBase => s.srcBase
  | .dstBase => s.dstBase
  | .dstCap => s.dstCap
  | .partFirstLine => s.partFirstLine.zeroExtend 32
  | .partLineCount => s.partLineCount
  | .reserved r => s.reserved.getD r 0
  | .unassigned => 0

/-- A write of a configuration register in IDLE: the RW bits take the value, the others ignore it (10_state R40 to R49). -/
def State.configured (s : State) (r : Reg) (v : Word) : State :=
  match r with
  | .magic => { s with magic := v }
  | .version => { s with version := v.extractLsb' 0 16, subVersion := v.extractLsb' 16 16 }
  | .width => { s with width := v }
  | .height => { s with height := v }
  | .id => { s with id := v }
  | .uncompressed => { s with uncompressed := v }
  | .payloadSize => { s with payloadSize := v }
  | .srcBase => { s with srcBaseHi := v.extractLsb' 2 30 }
  | .dstBase => { s with dstBaseHi := v.extractLsb' 2 30 }
  | .dstCap => { s with dstCap := v }
  | .partFirstLine => { s with partFirstLine := v.extractLsb' 0 12 }
  | .partLineCount => { s with partLineCount := v }
  | .reserved r => { s with reserved := s.reserved.set r v }
  | .ctrl | .status | .result | .irqEn | .unassigned => s

/-- A write of a register other than CTRL: IRQ_EN and the W1C bits of STATUS always take effect, configuration only in IDLE
(10_state R32, R35, R36, R39, R56). -/
def State.writeReg (s : State) (r : Reg) (v : Word) : State :=
  match r with
  | .status => s.writeStatus v
  | .irqEn => { s with doneIe := v.getLsbD 0 }
  | other => if s.busy then s else s.configured other v

/-- A write of CTRL: START = 1 issues the command word, START = 0 does nothing (10_state R33, 30_encoding R110, R111). -/
def writeCtrl (v : Word) (s : State) : Answer :=
  match decodeCommand v with
  | some i => exec i s
  | none => .next s

/-- A register write: only aligned 32-bit accesses have a meaning (20_memory R75). -/
def registerWrite (offset : BitVec 12) (width : Nat) (v : Word) (s : State) : Answer :=
  if !regAccessOk offset width then .refused .badAccess
  else if regAt offset.toNat = .ctrl then writeCtrl v s
  else .next (s.writeReg (regAt offset.toNat) v)

/-- The host has seen DONE = 1: no completion is unseen any more, and the buffers are its own again (20_memory R80 item 2, 70_reset
R258; log 15). -/
def State.seen (s : State) : State := { s with unseen := [] }

/-- What a host that reads a register learns of DONE: a read of STATUS that returns DONE = 1 sees the completion (20_memory R80
item 2). -/
def State.afterReading (s : State) (r : Reg) : State := if r = .status ∧ s.done = true then s.seen else s

/-- A register read returns the value and changes no register (20_memory R75, 70_reset R265). -/
def registerRead (offset : BitVec 12) (width : Nat) (s : State) : Answer :=
  if !regAccessOk offset width then .refused .badAccess
  else .next { s.afterReading (regAt offset.toNat) with reply := .register (s.readReg (regAt offset.toNat)) }

/-- The host takes the interrupt: it sees DONE = 1; with irq = 0 there is none to take (20_memory R80 item 2, 60_exceptions R230). -/
def interruptTaken (s : State) : Answer := .next (if s.irq then s.seen else s)

/-! ### Memory -/

/-- A byte as the host reads it: a free value in a destination region from the issue until the host sees DONE = 1, else what memory
holds (20_memory R80 items 2, 4, 70_reset R258; log 6, log 15). -/
def State.hostByte (s : State) (addr : Nat) : Byte :=
  if s.heldDests.any fun r => r.contains addr then Config.freeByte s.draws addr else s.mem.read addr

/-- A host read of `len` bytes (20_memory R80, R90). One for which both stops hold gets the first, DESIGN CHOICE (log 12). -/
def memoryRead (addr len : Nat) (s : State) : Answer :=
  if !(Region.mk addr len).inSpace then .fault .outsideAddressSpace
  else if s.touchesDevice ⟨addr, len⟩ then .refused .hostDeviceAccess
  else .next { s with
    reply := .memory ((List.range len).map fun t => s.hostByte (addr + t))
    draws := s.draws + 1 }

/-- A write of bytes by the host or another agent: refuse(RACE) in a region of an operation from its issue until the host sees
DONE = 1 (20_memory R80 item 3, 60_exceptions R227, 70_reset R258; log 15). A write for which several stops hold gets the first one
named here, DESIGN CHOICE (log 12). -/
def memoryWrite (addr : Nat) (bytes : List Byte) (s : State) : Answer :=
  if !(Region.mk addr bytes.length).inSpace then .fault .outsideAddressSpace
  else if s.touchesDevice ⟨addr, bytes.length⟩ then .refused .hostDeviceAccess
  else if (s.heldSources ++ s.heldDests).any fun r => (Region.mk addr bytes.length).overlaps r then .refused .race
  else .next { s with mem := s.mem.writeBytes addr bytes }

/-! ### Other instances (60_exceptions R227; log 9) -/

/-- An operation of the instance numbered `who` begins: no meaning for a number the platform does not have; no effect while that
instance runs one (60_exceptions R226: its command is rejected); refuse(RACE) when it clashes with the one running here
(60_exceptions R227). -/
def otherBegins (who : Nat) (c : Claim) (s : State) : Answer :=
  if who = 0 ∨ s.instances ≤ who then .refused .noSuchInstance
  else if s.others.any fun o => decide (o.who = who) then .next s
  else if claimsClash s.activeSource s.activeDest c then .refused .race
  else .next { s with others := ⟨who, c⟩ :: s.others }

/-- The operation of the instance numbered `who` ends, and holds its regions no more. For an instance that runs nothing here, or a
number the platform does not have, there is nothing to end and the event does nothing, DESIGN CHOICE (log 9). -/
def otherEnds (who : Nat) (s : State) : Answer :=
  .next { s with others := s.others.filter fun o => decide (o.who ≠ who) }

/-! ### Reset -/

/-- Memory after the reset input: the destination region of an operation cut short holds any value per byte (70_reset R252;
93 I11; log 6), all else is untouched (70_reset R250). -/
def State.memoryAfterReset (s : State) : Memory := s.mem.scramble s.draws s.activeDest.base s.activeDest.len

/-- The reset input: every register at its reset value, no completion event (70_reset R250, R252), and no completion left to see
(log 15). Memory, the platform's fields
and the outside world are not the block's to reset. -/
def resetBlock (s : State) : State :=
  { State.reset with
    reserved := s.reserved.map fun _ => 0
    mem := s.memoryAfterReset
    devices := s.devices
    instances := s.instances
    others := s.others
    inputs := s.inputs
    reply := s.reply
    draws := s.draws + 1 }

/-! ### The machine's turn -/

/-- What an event from outside does (70_reset R265). -/
def eventTurn (e : Event) (s : State) : Answer :=
  match e with
  | .regRead offset width => registerRead offset width s
  | .regWrite offset width v => registerWrite offset width v s
  | .memRead addr len => memoryRead addr len s
  | .memWrite _ addr bytes => memoryWrite addr bytes s
  | .takeIrq => interruptTaken s
  | .otherIssue who c => otherBegins who c s
  | .otherComplete who => otherEnds who s
  | .reset => .next (resetBlock s)

/-- An event is an aligned write of STATUS. -/
def isStatusWrite : Event → Bool
  | .regWrite offset width _ => regAccessOk offset width && decide (regAt offset.toNat = .status)
  | _ => false

/-- An event and the engine's progress in one cycle: a write of STATUS goes first, so that a completion wins over it (10_state
R35); for the rest both orders are admitted and the flag says which (60_exceptions R228; log 11). -/
def sameCycleTurn (e : Event) (engineFirst : Bool) (s : State) : Answer :=
  if engineFirst && !isStatusWrite e then andThen (engineTurn s) (eventTurn e)
  else andThen (eventTurn e s) engineTurn

/-- A poll of STATUS: the host goes on when it sees DONE = 1, and until then the engine does (30_encoding R116). -/
def pollTurn (rest : List Input) (s : State) : Answer :=
  if s.done then .next { s.seen with inputs := rest, reply := .register s.statusWord }
  else engineTurn { s with reply := .register s.statusWord }

/-- The machine's turn: the next input, or the engine when nothing comes from outside (log 3). -/
def machineTurn (s : State) : Answer :=
  match s.inputs with
  | [] => engineTurn s
  | .engine :: rest => engineTurn { s with inputs := rest }
  | .external e :: rest => eventTurn e { s with inputs := rest }
  | .sameCycle e engineFirst :: rest => sameCycleTurn e engineFirst { s with inputs := rest }
  | .wait :: rest => pollTurn rest s

end Sys2Proof.Machine
end

