-- ==== Sys2Proof/Machine/Load.lean ====
section
/-! DEFINITION. Placing one instruction where the machine's next step takes it (log 3): a command word is what the host writes
to CTRL next; a record is the first of a stream in memory, with a DECODE of that stream issued. -/

namespace Sys2Proof.Machine

/-- The host's next action writes a command word to CTRL (10_state R33). -/
def State.withCommand (s : State) (w : Word) : State :=
  { s with inputs := .external (.regWrite 0x000 4 w) :: s.inputs }

/-- The bytes of a record: its control word and its payload (30_encoding R101). -/
def recordLength (w : Word) : Nat :=
  match decodeRecord w with
  | .lit _ count => 4 + 4 * count
  | .litWsl _ count => 4 + 4 * count
  | .run _ _ => 8
  | .runWsl _ _ => 8
  | _ => 4

/-- n words of the number w, from word number `start` on. -/
def laterWords (nbits w : Nat) : Nat → Nat → List Word
  | _, 0 => []
  | start, n + 1 => BitVec.ofNat 32 ((w % 2 ^ nbits) >>> (32 * start)) :: laterWords nbits w (start + 1) n

/-- The record is the first of the stream: its words at SRC_BASE, 0 where the number w has no bits, PAYLOAD_SIZE its length, a DECODE running at src = 0, dst = 0,
and the engine to move (42_decoder R180, R181). -/
def State.withRecord (s : State) (nbits w : Nat) : State :=
  { s with
    phase := .busy .decode
    src := 0
    dst := 0
    payloadSize := BitVec.ofNat 32 (recordLength (tableWord nbits w))
    mem := (s.mem.clear (s.srcAddr 0) (recordLength (tableWord nbits w))).writeWords (s.srcAddr 0)
      (tableWord nbits w :: laterWords nbits w 1 (min ((nbits + 31) / 32 - 1) (recordLength (tableWord nbits w) / 4 - 1)))
    inputs := .engine :: s.inputs }

/-- The word placed by the language the opcode table gives it. -/
def State.withTableWord (s : State) (nbits w : Nat) : State :=
  match tableLang (tableWord nbits w) with
  | .command => s.withCommand (tableWord nbits w)
  | .record => s.withRecord nbits w

end Sys2Proof.Machine
end

