-- ==== Sys2Proof/Machine/Step.lean ====
section
/-! DEFINITION. One step of the machine, and the placing of one instruction for it (log 3). -/

namespace Sys2Proof.Machine

/-- One step: the next thing that happens, from outside or in the engine. -/
def step (s : State) : Host.Outcome State Fault Refusal := machineTurn s

/-- The state whose next step runs the instruction w, a number with the opcode table's bit numbering. -/
def State.withFetchWord (s : State) (nbits w : Nat) : State := s.withTableWord nbits w

end Sys2Proof.Machine
end

