-- ==== Sys2Proof/Machine/Assembler.lean ====
section
/-! DEFINITION. The text forms of the spec as data: the lines of a record stream and their words (30_encoding R114), the
pseudo-instructions (30_encoding R115), and the lines of a host program as inputs of the machine (30_encoding R116). -/

namespace Sys2Proof.Machine

/-- A line of a record stream (30_encoding R114, R115). -/
inductive StreamLine where
  /-- LIT c: p0, ..., with c the number of pixels. -/
  | lit (pixels : List Word)
  /-- LIT_WSL line, c: p0, ... -/
  | litWsl (line : BitVec 12) (pixels : List Word)
  /-- RUN c, p -/
  | run (count : BitVec 16) (pixel : Word)
  /-- RUN_WSL line, c, p -/
  | runWsl (line : BitVec 12) (count : BitVec 16) (pixel : Word)
  /-- EOS -/
  | eos
  /-- .word v -/
  | word (v : Word)
  /-- FILL n, p -/
  | fill (n : Nat) (pixel : Word)
  /-- PIXELS p0, ... -/
  | pixels (ps : List Word)
  deriving DecidableEq, Repr

/-- FILL n, p: runs of 65535 and, when a remainder is left, one run of it (30_encoding R115). -/
def fillExpansion (n : Nat) (pixel : Word) : List Word :=
  (List.replicate (n / Config.maxCount) [controlWord 0x3 0 (BitVec.ofNat 16 Config.maxCount), pixel]).flatten ++
    (if n % Config.maxCount = 0 then [] else [controlWord 0x3 0 (BitVec.ofNat 16 (n % Config.maxCount)), pixel])

/-- PIXELS: literals of at most 65535 pixels each, in order; `fuel` bounds the records (30_encoding R115). -/
def pixelsExpansion : Nat → List Word → List Word
  | 0, _ => []
  | _, [] => []
  | fuel + 1, ps =>
    controlWord 0x1 0 (BitVec.ofNat 16 (min Config.maxCount ps.length)) ::
      (ps.take Config.maxCount ++ pixelsExpansion fuel (ps.drop Config.maxCount))

/-- The words of a line (30_encoding R114, R115). -/
def StreamLine.words : StreamLine → List Word
  | .lit ps => controlWord 0x1 0 (BitVec.ofNat 16 ps.length) :: ps
  | .litWsl line ps => controlWord 0x2 line (BitVec.ofNat 16 ps.length) :: ps
  | .run count p => [controlWord 0x3 0 count, p]
  | .runWsl line count p => [controlWord 0x4 line count, p]
  | .eos => [eosWord]
  | .word v => [v]
  | .fill n p => fillExpansion n p
  | .pixels ps => pixelsExpansion ps.length ps

/-- A line the syntax admits: a written list has at most 65535 entries (30_encoding R114). -/
def StreamLine.wellFormed : StreamLine → Bool
  | .lit ps => decide (ps.length ≤ Config.maxCount)
  | .litWsl _ ps => decide (ps.length ≤ Config.maxCount)
  | _ => true

/-- The words of a stream, line after line. -/
def assemble (lines : List StreamLine) : List Word := (lines.map StreamLine.words).flatten

/-- The offset of a named register (10_state R32). -/
def Reg.offset : Reg → Nat
  | .ctrl => 0x000
  | .status => 0x004
  | .result => 0x008
  | .irqEn => 0x00C
  | .magic => 0x010
  | .version => 0x014
  | .width => 0x018
  | .height => 0x01C
  | .id => 0x020
  | .uncompressed => 0x024
  | .payloadSize => 0x028
  | .srcBase => 0x02C
  | .dstBase => 0x030
  | .dstCap => 0x034
  | .partFirstLine => 0x038
  | .partLineCount => 0x03C
  | .reserved r => 0x100 + 4 * r
  | .unassigned => 0x040

/-- The CTRL word of an operation (30_encoding R112). -/
def Op.ctrlWord : Op → Word
  | .hdrInit => 0x80000001
  | .encode => 0x80000002
  | .encodePartial => 0x80000003
  | .decode => 0x80000004

/-- A line of a host program (30_encoding R116). -/
inductive HostLine where
  /-- wr NAME, v -/
  | wr (r : Reg) (v : Word)
  /-- rd NAME -/
  | rd (r : Reg)
  /-- cmd OP -/
  | cmd (op : Op)
  /-- wait -/
  | wait
  /-- mem A: w0, w1, ... -/
  | mem (addr : Nat) (ws : List Word)
  deriving DecidableEq, Repr

/-- What the host does for a line (30_encoding R116). -/
def HostLine.input : HostLine → Input
  | .wr r v => .external (.regWrite (BitVec.ofNat 12 r.offset) 4 v)
  | .rd r => .external (.regRead (BitVec.ofNat 12 r.offset) 4)
  | .cmd op => .external (.regWrite (BitVec.ofNat 12 Reg.ctrl.offset) 4 op.ctrlWord)
  | .wait => .wait
  | .mem addr ws => .external (.memWrite .host addr (ws.flatMap wordBytes))

/-- A host program as the machine's inputs. -/
def hostProgram (lines : List HostLine) : List Input := lines.map HostLine.input

end Sys2Proof.Machine
end

