-- ==== Sys2Proof/Safety.lean ====
section
/-! DEFINITION. The terms claims are made in: running the machine, the invariant of every run, the parts of the state a frame
speaks of, and the shape of a record stream (30_encoding R104, R109; 41_encoder R152). -/

namespace Sys2Proof.Machine

/-! ### Runs -/

/-- n steps, stopping at the first fault or refusal. -/
def steps : Nat → State → Answer
  | 0, s => .next s
  | n + 1, s => andThen (step s) (steps n)

/-! ### The invariant (20_memory R76, R78, R79; 10_state R49, R50, R53) -/

/-- Between an operation's issue and its completion its regions lie in the space and share no byte (20_memory R78, R79). -/
def State.regionsKept (s : State) : Prop :=
  regionsInRange s.activeSource s.activeDest = true ∧ s.activeSource.overlaps s.activeDest = false

/-- The decoder's cursors while a DECODE runs (10_state R53; 42_decoder R191). -/
def State.decoderKept (s : State) : Prop :=
  s.phase = .busy .decode → s.src % 4 = 0 ∧ s.src ≤ s.payload ∧ s.dst ≤ s.pixelCount

/-- An encode runs. -/
def State.encoding (s : State) : Prop := s.phase = .busy .encode ∨ s.phase = .busy .encodePartial

/-- The words a running encode still has to emit. -/
def State.remainingWords (s : State) : List Word :=
  scanWords s.pix s.partFirstLine s.b (s.b - s.i) s.i s.k s.first

/-- The scan's cursors while an encode runs, and the room left for the words to come (41_encoder R140, R142). -/
def State.encoderKept (s : State) : Prop :=
  s.encoding →
    s.a ≤ s.k ∧ s.k ≤ s.i ∧ s.i ≤ s.b ∧ s.b ≤ s.pixelCount ∧ s.out % 4 = 0 ∧
      s.out + 4 * s.remainingWords.length ≤ s.dstCap.toNat

/-- Every other instance the platform has runs at most one operation (60_exceptions R226, R227). -/
def State.othersKept (s : State) : Prop :=
  (s.others.Pairwise fun x y => x.who ≠ y.who) ∧ ∀ o ∈ s.others, 0 < o.who ∧ o.who < s.instances

/-- What every run keeps. -/
structure State.Inv (s : State) : Prop where
  /-- Memory is in its canonical form. -/
  memory : s.mem.wf = true
  /-- RESERVED[] has HDR_RESERVED_WORDS registers (10_state R49). -/
  reservedWords : s.reserved.length = Config.hdrReservedWords
  /-- STATUS never shows BUSY and DONE together (10_state R34, R35). -/
  notBusyAndDone : s.busy = true → s.done = false
  /-- The platform's number of instances is fixed (00_scope R9). -/
  instances : s.instances = Config.numInstances
  others : s.othersKept
  regions : s.regionsKept
  decoder : s.decoderKept
  encoder : s.encoderKept

/-! ### What a frame speaks of -/

/-- The registers a host configures, and the ones HDR_INIT writes: none of them changes (10_state R39 to R49). -/
def sameRegisters (s t : State) : Prop :=
  t.doneIe = s.doneIe ∧ t.magic = s.magic ∧ t.version = s.version ∧ t.subVersion = s.subVersion ∧ t.width = s.width ∧
    t.height = s.height ∧ t.id = s.id ∧ t.uncompressed = s.uncompressed ∧ t.payloadSize = s.payloadSize ∧
    t.srcBaseHi = s.srcBaseHi ∧ t.dstBaseHi = s.dstBaseHi ∧ t.dstCap = s.dstCap ∧ t.partFirstLine = s.partFirstLine ∧
    t.partLineCount = s.partLineCount ∧ t.reserved = s.reserved

/-- STATUS and RESULT do not change (10_state R34 to R38). -/
def sameStatus (s t : State) : Prop :=
  t.phase = s.phase ∧ t.done = s.done ∧ t.cmdErr = s.cmdErr ∧ t.result = s.result

/-- The completion event's effect on STATUS and RESULT (60_exceptions R224). -/
def completedWith (code : ResultCode) (s t : State) : Prop :=
  t.phase = .idle ∧ t.done = true ∧ t.result = code ∧ t.cmdErr = s.cmdErr

/-- The encoder's working registers do not change (10_state R51). -/
def sameEncoder (s t : State) : Prop :=
  t.i = s.i ∧ t.j = s.j ∧ t.k = s.k ∧ t.out = s.out ∧ t.first = s.first ∧ t.a = s.a ∧ t.b = s.b

/-- The decoder's working registers do not change (10_state R52). -/
def sameDecoder (s t : State) : Prop :=
  t.src = s.src ∧ t.dst = s.dst ∧ t.cw = s.cw ∧ t.count = s.count ∧ t.line = s.line

/-- The platform's fields and the model's own do not change; which completions the host has seen is apart (`sameUnseen`). -/
def sameOutside (s t : State) : Prop :=
  t.devices = s.devices ∧ t.instances = s.instances ∧ t.others = s.others ∧ t.inputs = s.inputs ∧ t.reply = s.reply ∧ t.draws = s.draws

/-- The completions the host has not seen are the same (70_reset R258; log 15). -/
def sameUnseen (s t : State) : Prop := t.unseen = s.unseen

/-- One more completion the host has not seen: that of the operation that ran in s (70_reset R258; log 15). -/
def addsUnseen (s t : State) : Prop := t.unseen = s.activeClaim :: s.unseen

/-- The completions the host has not seen after a move of the engine from s to t: one more when the move completed the operation
(70_reset R258; log 15). -/
def State.unseenAfterEngine (s t : State) : List Claim :=
  if s.busy = true ∧ t.busy = false then s.activeClaim :: s.unseen else s.unseen

/-- The completions the host has not seen after an event in s: none when the event shows it DONE = 1, that is a read of STATUS with
DONE = 1 or an interrupt taken while there is one, and none after the reset input; else those it had not seen before
(20_memory R80 item 2; log 15). -/
def State.unseenAfterEvent (s : State) (e : Event) : List Claim :=
  if e = .reset ∨ (e = .regRead 0x004 4 ∧ s.done = true) ∨ (e = .takeIrq ∧ s.done = true ∧ s.doneIe = true) then []
  else s.unseen

/-- The header fields no operation reads to decide anything: MAGIC, VERSION, SUB_VERSION, ID, UNCOMPRESSED, RESERVED[] (40_header
R133, 10_state R43, R49). -/
def State.withIdentity (s : State) (magic : Word) (version subVersion : BitVec 16) (id uncompressed : Word)
    (reserved : List Word) : State :=
  { s with magic := magic, version := version, subVersion := subVersion, id := id, uncompressed := uncompressed,
           reserved := reserved }

/-- An operation on these regions may be issued: they lie in the space, share no byte, are ordinary memory and clash with no
other instance (20_memory R78, R79, R89; 60_exceptions R227). -/
def State.regionsReady (s : State) (source dest : Region) : Prop :=
  regionsInRange source dest = true ∧ source.overlaps dest = false ∧ s.touchesDevice source = false ∧
    s.touchesDevice dest = false ∧ (s.others.any fun o => claimsClash source dest o.claim) = false

/-- A precondition of an operation on these regions fails, by the reason the spec gives it (60_exceptions R238; 20_memory R78, R79,
R89). -/
def State.regionsFail (s : State) (source dest : Region) : Refusal → Prop
  | .range => regionsInRange source dest = false
  | .overlap => source.overlaps dest = true
  | .deviceMemory => s.touchesDevice source = true ∨ s.touchesDevice dest = true
  | .race => (s.others.any fun o => claimsClash source dest o.claim) = true
  | _ => False

/-- A precondition of ENCODE fails, by its reason (41_encoder R140). -/
def State.encodeFails (s : State) : Refusal → Prop
  | .capacity => s.dstCap.toNat < encLen s.pix 0 s.pixelCount
  | r => s.regionsFail s.frameSource s.streamDest r

/-- A precondition of ENCODE_PARTIAL fails, by its reason: RANGE is that of the whole frame, the rest that of the band (41_encoder
R150, 20_memory R78; log 7). -/
def State.encodePartialFails (s : State) : Refusal → Prop
  | .capacity => s.dstCap.toNat < encLen s.pix s.bandStart s.bandEnd
  | .range => s.height.toNat < s.firstLine + s.lineCount ∨ regionsInRange s.frameSource s.streamDest = false
  | r => s.regionsFail (s.pixelSource s.bandStart s.bandEnd) s.streamDest r

/-- A precondition of DECODE fails, by its reason (42_decoder R180). -/
def State.decodeFails (s : State) : Refusal → Prop := s.regionsFail s.streamSource s.frameDest

/-- The bits of a register a host write in IDLE puts in place (10_state R32, R46, R48, R49). -/
def State.writableBits (s : State) : Reg → Word
  | .ctrl | .status | .result | .unassigned => 0
  | .irqEn => 0x00000001
  | .srcBase | .dstBase => 0xFFFFFFFC
  | .partFirstLine => 0x00000FFF
  | .reserved r => if r < s.reserved.length then 0xFFFFFFFF else 0
  | .magic | .version | .width | .height | .id | .uncompressed | .payloadSize | .dstCap | .partLineCount => 0xFFFFFFFF

/-- Every byte of memory outside [base, base + len) reads as before. -/
def memoryKeptOutside (base len : Nat) (s t : State) : Prop :=
  ∀ addr, addr < base ∨ base + len ≤ addr → t.mem.read addr = s.mem.read addr

/-- An answer that is a completion with a code and nothing else: no register but STATUS and RESULT, no byte of memory and
nothing outside the block changes (42_decoder R190, 60_exceptions R224), and the host has yet to see it (log 15). -/
def completesOnly (code : ResultCode) (s : State) (r : Answer) : Prop :=
  ∃ t, r = .next t ∧ completedWith code s t ∧ sameRegisters s t ∧ t.mem = s.mem ∧ sameEncoder s t ∧
    addsUnseen s t ∧ sameOutside s t

/-- What a record that wrote pixels leaves alone: registers, STATUS, RESULT, the encoder, the fetched word and its fields, and
everything outside the block (42_decoder R185 to R188). -/
def recordFrame (s t : State) : Prop :=
  sameRegisters s t ∧ sameStatus s t ∧ sameEncoder s t ∧ t.cw = s.cw ∧ t.count = s.count ∧ t.line = s.line ∧
    sameUnseen s t ∧ sameOutside s t

/-! ### Record streams -/

/-- A well-formed stream: zero or more literal and run records, then exactly one EOS, and nothing after it (30_encoding R104);
`fuel` bounds the records. -/
def wellFormedStream : Nat → List Word → Bool
  | 0, _ => false
  | _, [] => false
  | fuel + 1, w :: rest =>
    match decodeRecord w, rest with
    | .eos _, more => more.isEmpty
    | .lit _ count, more => decide (count ≤ more.length) && wellFormedStream fuel (more.drop count)
    | .litWsl _ count, more => decide (count ≤ more.length) && wellFormedStream fuel (more.drop count)
    | .run _ _, _ :: more => wellFormedStream fuel more
    | .runWsl _ _, _ :: more => wellFormedStream fuel more
    | _, _ => false

/-- A stream of the canonical words the encoder emits (30_encoding R109; 41_encoder R149, R150, R155 item 1): the first record is a
start-line one with LINE = fl when `first` holds, every other record is a LIT or a RUN with LINE = 0, literal counts are 1 to
65535 and run counts 3 to 65535, and 0xF0000000 ends the stream. `fuel` bounds the records. -/
def canonicalStream (fl : BitVec 12) : Nat → Bool → List Word → Bool
  | 0, _, _ => false
  | _, _, [] => false
  | fuel + 1, first, w :: rest =>
    if w = 0xF0000000 then rest.isEmpty
    else if lineOf w ≠ (if first then fl else 0) then false
    else if kindOf w = (if first then 0x2 else 0x1) then
      decide (1 ≤ (countOf w).toNat ∧ (countOf w).toNat ≤ rest.length) &&
        canonicalStream fl fuel false (rest.drop (countOf w).toNat)
    else if kindOf w = (if first then 0x4 else 0x3) then
      decide (3 ≤ (countOf w).toNat ∧ 1 ≤ rest.length) && canonicalStream fl fuel false (rest.drop 1)
    else false

/-- The pixels a well-formed stream stands for, record after record, start lines left aside (30_encoding R101); none where the
stream is not well formed. `fuel` bounds the records. -/
def streamPixels : Nat → List Word → Option (List Word)
  | 0, _ => none
  | _, [] => none
  | fuel + 1, w :: rest =>
    match decodeRecord w, rest with
    | .eos _, [] => some []
    | .lit _ count, more =>
      if count ≤ more.length then (streamPixels fuel (more.drop count)).map (more.take count ++ ·) else none
    | .litWsl _ count, more =>
      if count ≤ more.length then (streamPixels fuel (more.drop count)).map (more.take count ++ ·) else none
    | .run _ count, v :: more => (streamPixels fuel more).map (List.replicate count v ++ ·)
    | .runWsl _ count, v :: more => (streamPixels fuel more).map (List.replicate count v ++ ·)
    | _, _ => none

/-- WC(n), the worst case of EncLen for n pixels (41_encoder R152). -/
def worstCase (n : Nat) : Nat := 4 * n + 4 * (n / Config.maxCount) + 8

/-- The words stand in memory from an address upward, 4 bytes apart. -/
def wordsAt (s : State) (addr : Nat) (ws : List Word) : Prop :=
  ∀ q, (h : q < ws.length) → s.mem.read32 (addr + 4 * q) = ws[q]

end Sys2Proof.Machine
end

