-- ==== Sys2Proof/Certificates/Slice0/Obligations.lean ====
section
/-! DEFINITION. The statements for the provers, each a rule of spec/ or a consequence of several: encoding, the record kinds, the
commands, the encoder, the register window, memory, reset, and the whole machine. -/

open Sys2Proof Sys2Proof.Machine

/-! ### Encoding -/

/-- Decoding the bytes of a well-formed record's control word gives it back, whatever bytes follow (30_encoding R100 to R103). -/
def Obligations.RecordWordsDecodeToTheirRecord : Prop :=
  ∀ (i : Instr) (rest : List Byte), i.lang = .record → i.wellFormed = true →
    decode .record (encodeBytes i ++ rest) = .ok (i, rest)

/-- Decoding the bytes of a command word gives it back, with the ignored bits at every value (30_encoding R112). -/
def Obligations.CommandWordsDecodeToTheirCommand : Prop :=
  ∀ (i : Instr) (rest : List Byte), i.lang = .command → i.wellFormed = true →
    decode .command (encodeBytes i ++ rest) = .ok (i, rest)

/-- Each of the 2^32 control words is one well-formed record, whose encoding it is (30_encoding R108). -/
def Obligations.EveryControlWordIsOneRecord : Prop :=
  ∀ w : Word, (decodeRecord w).lang = .record ∧ (decodeRecord w).wellFormed = true ∧ encode (decodeRecord w) = w

/-- A word with START = 1 is one command, whose encoding it is; a word with START = 0 is none (30_encoding R112). -/
def Obligations.EveryStartWordIsOneCommand : Prop :=
  ∀ w : Word, if startOf w = true then ∃ i, decodeCommand w = some i ∧ i.lang = .command ∧ encode i = w
    else decodeCommand w = none

/-- The words the spec writes out (95 L1-6, L1-8, 30_encoding R112 and its row with START = 0) decode to the instructions it writes beside them. -/
def Obligations.WordsOfTheSpecDecode : Prop :=
  decodeRecord 0x10000003 = .lit 0 3 ∧ decodeRecord 0x20050002 = .litWsl 5 2 ∧
    decodeRecord 0x3000FFFF = .run 0 65535 ∧ decodeRecord 0x4FFF0001 = .runWsl 4095 1 ∧
    decodeRecord 0xF0000000 = .eos 0 ∧ decodeRecord 0x50000000 = .reservedKind5 0 ∧
    decodeCommand 0x80000001 = some (.hdrInit 0) ∧ decodeCommand 0x80000002 = some (.encode 0) ∧
    decodeCommand 0x80000003 = some (.encodePartial 0) ∧ decodeCommand 0x80000004 = some (.decode 0) ∧
    decodeCommand 0x80000000 = some (.reservedCmd0 0) ∧ decodeCommand 0x80000005 = some (.reservedCmd5 0) ∧
    decodeCommand 0x80000006 = some (.reservedCmd6 0) ∧ decodeCommand 0x80000007 = some (.reservedCmd7 0) ∧
    decodeCommand 0x00000002 = none

/-- The bits a control word's kind does not use change nothing in what the machine does: cw[27:16] of LIT and RUN, cw[27:0] of
EOS (30_encoding R107), cw[27:0] of a reserved kind (42_decoder R189). -/
def Obligations.UnusedControlWordBitsAreIgnored : Prop :=
  ∀ (w v : Word) (s : State), kindOf w = kindOf v →
    (kindOf w = 0x1 ∨ kindOf w = 0x3 → countOf w = countOf v) →
    (kindOf w = 0x2 ∨ kindOf w = 0x4 → countOf w = countOf v ∧ lineOf w = lineOf v) →
    exec (decodeRecord w) s = exec (decodeRecord v) s

/-! ### A step runs the decoded instruction -/

/-- While a DECODE runs, a step in which the engine moves runs the record whose four bytes stand at src, with cw, count and line
loaded and src behind the word (42_decoder R182, R183). One record a step is the model's choice (log 3). -/
def Obligations.StepRunsTheFetchedRecord : Prop :=
  ∀ (s : State) (i : Instr), s.phase = .busy .decode → s.inputs = [] → s.src + 4 ≤ s.payload →
    s.srcAddr s.src + 4 ≤ Config.addressSpace →
    decode .record [s.mem.read (s.srcAddr s.src), s.mem.read (s.srcAddr s.src + 1), s.mem.read (s.srcAddr s.src + 2),
      s.mem.read (s.srcAddr s.src + 3)] = .ok (i, []) →
    step s = exec i { s with
      cw := s.srcWord s.src
      count := (countOf (s.srcWord s.src)).toNat
      line := (lineOf (s.srcWord s.src)).toNat
      src := s.src + 4 }

/-- A host write of CTRL runs the command the word decodes to, once the write is taken from the inputs; a word with START = 0
changes nothing (10_state R33, 30_encoding R110). That the host's accesses come as a list is the model's form (log 3). -/
def Obligations.StepRunsTheWrittenCommand : Prop :=
  ∀ (s : State) (rest : List Input) (w : Word), s.inputs = .external (.regWrite 0x000 4 w) :: rest →
    (∀ i, decode .command (wordBytes w) = .ok (i, []) → step s = exec i { s with inputs := rest }) ∧
    (startOf w = false → step s = .next { s with inputs := rest })

/-! ### The record kinds -/

/-- LIT (42_decoder R185): -3 when the pixels do not fit the frame, else -2 when the payload does not fit P, else the pixels are
copied in order and both cursors advance; nothing else changes. A completion's regions stay held until the host sees it (log
15). -/
def Obligations.LitChecksThenCopies : Prop :=
  ∀ (s : State) (ignored : BitVec 12) (count : Nat),
    if s.pixelCount < s.dst + count then completesOnly .destinationOverrun s (exec (.lit ignored count) s)
    else if s.payload < s.src + 4 * count then completesOnly .sourceOverrun s (exec (.lit ignored count) s)
    else regionsInRange s.streamSource s.frameDest = true → s.streamSource.overlaps s.frameDest = false →
      ∃ t, exec (.lit ignored count) s = .next t ∧ t.src = s.src + 4 * count ∧ t.dst = s.dst + count ∧
        (∀ q < count, t.dstPix (s.dst + q) = s.srcWord (s.src + 4 * q)) ∧
        memoryKeptOutside (s.dstAddr (4 * s.dst)) (4 * count) s t ∧ recordFrame s t

/-- LIT_WSL (42_decoder R186): the cursor goes to line * WIDTH, exactly, and then all is as for LIT, a completion's regions held
until the host sees it (log 15). -/
def Obligations.LitWslRepositionsThenCopies : Prop :=
  ∀ (s : State) (line count : Nat),
    if s.pixelCount < line * s.width.toNat + count then
      completesOnly .destinationOverrun s (exec (.litWsl line count) s)
    else if s.payload < s.src + 4 * count then completesOnly .sourceOverrun s (exec (.litWsl line count) s)
    else regionsInRange s.streamSource s.frameDest = true → s.streamSource.overlaps s.frameDest = false →
      ∃ t, exec (.litWsl line count) s = .next t ∧ t.src = s.src + 4 * count ∧
        t.dst = line * s.width.toNat + count ∧
        (∀ q < count, t.dstPix (line * s.width.toNat + q) = s.srcWord (s.src + 4 * q)) ∧
        memoryKeptOutside (s.dstAddr (4 * (line * s.width.toNat))) (4 * count) s t ∧ recordFrame s t

/-- RUN (42_decoder R187): -3 when the pixels do not fit the frame, else -2 when the one payload word does not fit P, else that
word is written count times and both cursors advance; nothing else changes. A completion's regions stay held until the host
sees it (log 15). -/
def Obligations.RunChecksThenFills : Prop :=
  ∀ (s : State) (ignored : BitVec 12) (count : Nat),
    if s.pixelCount < s.dst + count then completesOnly .destinationOverrun s (exec (.run ignored count) s)
    else if s.payload < s.src + 4 then completesOnly .sourceOverrun s (exec (.run ignored count) s)
    else regionsInRange s.streamSource s.frameDest = true →
      ∃ t, exec (.run ignored count) s = .next t ∧ t.src = s.src + 4 ∧ t.dst = s.dst + count ∧
        (∀ q < count, t.dstPix (s.dst + q) = s.srcWord s.src) ∧
        memoryKeptOutside (s.dstAddr (4 * s.dst)) (4 * count) s t ∧ recordFrame s t

/-- RUN_WSL (42_decoder R188): the cursor goes to line * WIDTH, exactly, and then all is as for RUN, a completion's regions held
until the host sees it (log 15). -/
def Obligations.RunWslRepositionsThenFills : Prop :=
  ∀ (s : State) (line count : Nat),
    if s.pixelCount < line * s.width.toNat + count then
      completesOnly .destinationOverrun s (exec (.runWsl line count) s)
    else if s.payload < s.src + 4 then completesOnly .sourceOverrun s (exec (.runWsl line count) s)
    else regionsInRange s.streamSource s.frameDest = true →
      ∃ t, exec (.runWsl line count) s = .next t ∧ t.src = s.src + 4 ∧ t.dst = line * s.width.toNat + count ∧
        (∀ q < count, t.dstPix (line * s.width.toNat + q) = s.srcWord s.src) ∧
        memoryKeptOutside (s.dstAddr (4 * (line * s.width.toNat))) (4 * count) s t ∧ recordFrame s t

/-- EOS completes the DECODE with RESULT = 0 and does nothing else, whatever its bits 27:0 (42_decoder R184). That the regions stay
held until the host sees the completion is log 15. -/
def Obligations.EosFinishesWithSuccess : Prop :=
  ∀ (s : State) (ignored : BitVec 28), completesOnly .success s (exec (.eos ignored) s)

/-- A reserved kind completes the DECODE with -1 and does nothing else, whatever its bits 27:0 (42_decoder R189). That the regions
stay held until the host sees the completion is log 15. -/
def Obligations.ReservedKindsRaiseUnknownCode : Prop :=
  ∀ (s : State) (ignored : BitVec 28) (i : Instr),
    i ∈ [.reservedKind0 ignored, .reservedKind5 ignored, .reservedKind6 ignored, .reservedKind7 ignored,
      .reservedKind8 ignored, .reservedKind9 ignored, .reservedKindA ignored, .reservedKindB ignored,
      .reservedKindC ignored, .reservedKindD ignored, .reservedKindE ignored] →
    completesOnly .unknownCode s (exec i s)

/-- The frame of LIT and RUN: when exec answers a next state, every byte outside the count pixels at the destination cursor
reads as before, no register but STATUS and RESULT changes, and those only by a completion (42_decoder R185, R187, R190),
which the host has yet to see (log 15). -/
def Obligations.PlainRecordsKeepEverythingElse : Prop :=
  ∀ (s t : State) (ignored : BitVec 12) (count : Nat) (i : Instr), i ∈ [.lit ignored count, .run ignored count] →
    exec i s = .next t →
    memoryKeptOutside (s.dstAddr (4 * s.dst)) (4 * count) s t ∧ sameRegisters s t ∧ sameEncoder s t ∧ sameOutside s t ∧
      (sameStatus s t ∧ sameUnseen s t ∨
        (completedWith .destinationOverrun s t ∨ completedWith .sourceOverrun s t) ∧ t.mem = s.mem ∧ addsUnseen s t)

/-- The frame of LIT_WSL and RUN_WSL: as for LIT and RUN, with the pixels at line * WIDTH (42_decoder R186, R188, R190); a
completion is one the host has yet to see (log 15). -/
def Obligations.StartLineRecordsKeepEverythingElse : Prop :=
  ∀ (s t : State) (line count : Nat) (i : Instr), i ∈ [.litWsl line count, .runWsl line count] →
    exec i s = .next t →
    memoryKeptOutside (s.dstAddr (4 * s.lineStart line)) (4 * count) s t ∧ sameRegisters s t ∧ sameEncoder s t ∧
      sameOutside s t ∧
      (sameStatus s t ∧ sameUnseen s t ∨
        (completedWith .destinationOverrun s t ∨ completedWith .sourceOverrun s t) ∧ t.mem = s.mem ∧ addsUnseen s t)

/-! ### DECODE -/

/-- DECODE issued in IDLE with its preconditions met: BUSY, DONE = 0, src = 0, dst = 0, and nothing else (42_decoder R180, R181;
30_encoding R110). -/
def Obligations.DecodeStartsAtTheStream : Prop :=
  ∀ (s : State) (ignored : BitVec 28), s.phase = .idle → s.regionsReady s.streamSource s.frameDest →
    exec (.decode ignored) s = .next { s with phase := .busy .decode, done := false, src := 0, dst := 0 }

/-- The order of the checks of one record, as a step of a running DECODE sees it: fetch -2, kind -1, destination -3, source -2
(42_decoder R195). `dst` is the cursor after a start-line record has repositioned it, `need` the payload's bytes. That one step
does the fetch and all checks of a record is the model's choice (log 3); behind the fetch check the control word is read, and
its address is in the space in every run (log 10). A completion is one the host has yet to see (log 15). -/
def Obligations.FirstFailingCheckIsReported : Prop :=
  ∀ s : State, s.phase = .busy .decode → s.inputs = [] →
    let kind := kindOf (s.srcWord s.src)
    let count := (countOf (s.srcWord s.src)).toNat
    let dst := if kind = 0x2 ∨ kind = 0x4 then (lineOf (s.srcWord s.src)).toNat * s.width.toNat else s.dst
    let need := if kind = 0x1 ∨ kind = 0x2 then 4 * count else 4
    if s.payload < s.src + 4 then completesOnly .sourceOverrun s (step s)
    else s.srcAddr s.src + 4 ≤ Config.addressSpace →
      if kind ∉ [0x1, 0x2, 0x3, 0x4, 0xF] then completesOnly .unknownCode s (step s)
      else if kind = 0xF then completesOnly .success s (step s)
      else if s.pixelCount < dst + count then completesOnly .destinationOverrun s (step s)
      else s.payload < s.src + 4 + need → completesOnly .sourceOverrun s (step s)

/-- A step of a running DECODE writes no byte outside the frame at DST_BASE, whatever the stream holds (42_decoder R191). -/
def Obligations.DecodeWritesOnlyTheFrame : Prop :=
  ∀ s t : State, s.phase = .busy .decode → s.inputs = [] → step s = .next t →
    memoryKeptOutside s.dstBase.toNat s.frameBytes s t

/-- A step of a running DECODE depends on no byte outside the first P bytes of the stream: another memory that agrees on those
gives the same registers and cursors, and each byte is written alike in both or in neither (42_decoder R191, R193). -/
def Obligations.DecodeReadsOnlyTheStream : Prop :=
  ∀ (s t : State) (m : Memory), s.phase = .busy .decode → s.inputs = [] → s.regionsKept →
    (∀ addr, s.streamSource.contains addr = true → m.read addr = s.mem.read addr) →
    step s = .next t →
    ∃ t', step { s with mem := m } = .next t' ∧ { t' with mem := t.mem } = t ∧
      ∀ addr, t'.mem.read addr = t.mem.read addr ∨
        (t.mem.read addr = s.mem.read addr ∧ t'.mem.read addr = m.read addr)

/-- A running DECODE completes within P / 4 + 1 records, without a fault or a refusal (42_decoder R192, 60_exceptions
R237). One record a step is the model's choice (log 3). The host has yet to see the completion (log 15). -/
def Obligations.DecodeAlwaysCompletes : Prop :=
  ∀ s : State, s.Inv → s.phase = .busy .decode → s.inputs = [] →
    ∃ n u, n ≤ s.payload / 4 + 1 ∧ steps n s = .next u ∧ u.phase = .idle ∧ u.done = true ∧ addsUnseen s u ∧ sameRegisters s u ∧
      memoryKeptOutside s.dstBase.toNat s.frameBytes s u

/-- No operation of the engine reads MAGIC, VERSION, SUB_VERSION, ID, UNCOMPRESSED or RESERVED[]: while a DECODE or an encode
runs, other values there give the same step (40_header R133, 10_state R43, R44, R49). -/
def Obligations.HeaderIdentityIsNeverRead : Prop :=
  ∀ (s t : State) (magic : Word) (version subVersion : BitVec 16) (id uncompressed : Word) (reserved : List Word),
    s.busy = true → s.phase ≠ .busy .hdrInit → s.inputs = [] → step s = .next t →
    step (s.withIdentity magic version subVersion id uncompressed reserved) =
      .next (t.withIdentity magic version subVersion id uncompressed reserved)

/-! ### HDR_INIT -/

/-- HDR_INIT issued in IDLE: BUSY and DONE = 0 first, and the engine's next move writes MAGIC, VERSION, ID, UNCOMPRESSED and
every RESERVED[r], leaves every other register and memory alone, and completes with 0 (40_header R130, R131). Their values
are the machine's own constants (log 4), one move is the model's step (log 3), and the host has yet to see the completion (log
15). -/
def Obligations.HdrInitWritesTheIdentity : Prop :=
  ∀ (s : State) (ignored : BitVec 28), s.phase = .idle → s.inputs = [] →
    ∃ t u, exec (.hdrInit ignored) s = .next t ∧ t = { s with phase := .busy .hdrInit, done := false } ∧
      step t = .next u ∧ completedWith .success s u ∧
      u.magic = Config.oifMagic ∧ u.version = Config.oifVersion ∧ u.subVersion = Config.oifSubVersion ∧
      u.id = 0 ∧ u.uncompressed = 0 ∧ u.reserved.length = s.reserved.length ∧ (∀ v ∈ u.reserved, v = 0) ∧
      u.width = s.width ∧ u.height = s.height ∧ u.payloadSize = s.payloadSize ∧ u.srcBase = s.srcBase ∧
      u.dstBase = s.dstBase ∧ u.dstCap = s.dstCap ∧ u.partFirstLine = s.partFirstLine ∧
      u.partLineCount = s.partLineCount ∧ u.doneIe = s.doneIe ∧ u.mem = s.mem ∧ sameEncoder s u ∧ sameDecoder s u ∧
      addsUnseen t u ∧ sameOutside s u

/-! ### The encoder -/

/-- ENCODE issued in IDLE with its preconditions met: BUSY and DONE = 0 with nothing else but the working registers changed, and
the engine then completes with 0, the words of Encode(0, N, 0, 0) at DST_BASE, PAYLOAD_SIZE their bytes, and no other register
or byte changed (41_encoder R140, R142, R148). The host has yet to see the completion (log 15). -/
def Obligations.EncodeWritesTheStream : Prop :=
  ∀ (s : State) (ignored : BitVec 28), s.phase = .idle → s.inputs = [] →
    s.regionsReady s.frameSource s.streamDest → encLen s.pix 0 s.pixelCount ≤ s.dstCap.toNat →
    ∃ t n u, exec (.encode ignored) s = .next t ∧ t.phase = .busy .encode ∧ t.done = false ∧ t.cmdErr = s.cmdErr ∧
      t.result = s.result ∧ sameRegisters s t ∧ t.mem = s.mem ∧ sameDecoder s t ∧ sameUnseen s t ∧
      sameOutside s t ∧ steps n t = .next u ∧ completedWith .success s u ∧ addsUnseen t u ∧
      wordsAt u s.dstBase.toNat (encodeWords s.pix 0 0 s.pixelCount false) ∧
      memoryKeptOutside s.dstBase.toNat (encLen s.pix 0 s.pixelCount) s u ∧
      u.payload = encLen s.pix 0 s.pixelCount ∧ sameRegisters s { u with payloadSize := s.payloadSize } ∧
      sameDecoder s u ∧ sameOutside s u

/-- ENCODE_PARTIAL issued in IDLE with its preconditions met: as ENCODE, for the pixels of the rows fl to fl + lc - 1, the first
record with LINE = fl (41_encoder R150). That its source region is the band alone is read from 20_memory R72 (log 7), and
the host has yet to see the completion (log 15). -/
def Obligations.EncodePartialWritesTheBand : Prop :=
  ∀ (s : State) (ignored : BitVec 28), s.phase = .idle → s.inputs = [] →
    s.firstLine + s.lineCount ≤ s.height.toNat → regionsInRange s.frameSource s.streamDest = true →
    s.regionsReady (s.pixelSource s.bandStart s.bandEnd) s.streamDest →
    encLen s.pix s.bandStart s.bandEnd ≤ s.dstCap.toNat →
    ∃ t n u, exec (.encodePartial ignored) s = .next t ∧ t.phase = .busy .encodePartial ∧ t.done = false ∧
      t.cmdErr = s.cmdErr ∧ t.result = s.result ∧ sameRegisters s t ∧ t.mem = s.mem ∧ sameDecoder s t ∧
      sameUnseen s t ∧ sameOutside s t ∧ steps n t = .next u ∧ completedWith .success s u ∧ addsUnseen t u ∧
      wordsAt u s.dstBase.toNat (encodeWords s.pix s.partFirstLine (s.firstLine * s.width.toNat)
        ((s.firstLine + s.lineCount) * s.width.toNat) true) ∧
      memoryKeptOutside s.dstBase.toNat (encLen s.pix s.bandStart s.bandEnd) s u ∧
      u.payload = encLen s.pix s.bandStart s.bandEnd ∧ sameRegisters s { u with payloadSize := s.payloadSize } ∧
      sameDecoder s u ∧ sameOutside s u

/-- RunLength(i, b) is the longest run of pixels equal to pixel i that starts at i, ends at b at the latest and has at most 65535
pixels (41_encoder R143). -/
def Obligations.RunLengthIsTheLongestRun : Prop :=
  ∀ (pix : Nat → Word) (i b : Nat), i < b →
    1 ≤ runLength pix i b ∧ runLength pix i b ≤ min 65535 (b - i) ∧
      (∀ q < runLength pix i b, pix (i + q) = pix i) ∧
      (runLength pix i b < min 65535 (b - i) → pix (i + runLength pix i b) ≠ pix i)

/-- A pass of the scan emits a run record of L = RunLength(i, b) pixels exactly when pixels i, i + 1, i + 2 lie before b and are
equal, that is when L >= 3, and then moves behind it; else, L being 1 or 2, it emits nothing, moves by one pixel and leaves
the pending span (41_encoder R144). -/
def Obligations.RunsStartAtThreeEqualPixels : Prop :=
  ∀ (pix : Nat → Word) (fl : BitVec 12) (b i k : Nat) (first : Bool), i < b →
    if i + 2 < b ∧ pix (i + 1) = pix i ∧ pix (i + 2) = pix i then
      3 ≤ runLength pix i b ∧ passNext pix b i = i + runLength pix i b ∧ passPending pix b i k = i + runLength pix i b ∧
        ∃ pending w, passWords pix fl b i k first = pending ++ [w, pix i] ∧ (countOf w).toNat = runLength pix i b ∧
          (kindOf w = 0x3 ∨ kindOf w = 0x4)
    else runLength pix i b ≤ 2 ∧ passNext pix b i = i + 1 ∧ passPending pix b i k = k ∧ passWords pix fl b i k first = []

/-- The encoder's streams are well formed and canonical: literal and run records, then the one EOS word 0xF0000000, and nothing
after it; the first record of a partial encode is the start-line one with LINE = fl and no other record is one; the unused
fields are 0; literal counts are 1 to 65535, run counts 3 to 65535 (41_encoder R147, R149, R150, R155 item 1; 30_encoding R104,
R109). -/
def Obligations.EncodedStreamsAreWellFormed : Prop :=
  ∀ (pix : Nat → Word) (fl : BitVec 12) (a b : Nat) (partialBand : Bool),
    wellFormedStream (encodeWords pix fl a b partialBand).length (encodeWords pix fl a b partialBand) = true ∧
      canonicalStream fl (encodeWords pix fl a b partialBand).length partialBand (encodeWords pix fl a b partialBand) = true

/-- The records of a stream stand for the pixels of [a, b), in order, each once (41_encoder R155 item 5). -/
def Obligations.EncodedStreamsCoverTheRange : Prop :=
  ∀ (pix : Nat → Word) (fl : BitVec 12) (a b : Nat) (partialBand : Bool),
    streamPixels (encodeWords pix fl a b partialBand).length (encodeWords pix fl a b partialBand) =
      some (pixelsFrom pix a (b - a))

/-- EncLen(a, b) is at most WC(b - a) = 4n + 4 floor(n / 65535) + 8, and 4 for an empty range (41_encoder R152). -/
def Obligations.EncodedLengthIsBounded : Prop :=
  ∀ (pix : Nat → Word) (a b : Nat),
    encLen pix a b ≤ 4 * (b - a) + 4 * ((b - a) / 65535) + 8 ∧ (b ≤ a → encLen pix a b = 4)

/-- A step of a running encode writes no byte outside the words it emits at DST_BASE + out, and those lie in the destination
region (20_memory R72, 41_encoder R140). Outside the invariant the second holds by the turn's own test of DST_CAP (log 10). -/
def Obligations.EncodeStepWritesOnlyItsWords : Prop :=
  ∀ s t : State, s.encoding → s.inputs = [] → step s = .next t →
    memoryKeptOutside (s.dstAddr s.out) (4 * s.turnWords.length) s t ∧
      s.out + 4 * s.turnWords.length ≤ s.dstCap.toNat ∧
      (t.busy = true → sameRegisters s t ∧ sameStatus s t ∧ sameDecoder s t ∧ sameUnseen s t ∧ sameOutside s t)

/-- A step of a running encode depends on no byte but those of the pixels [a, b): another memory that agrees on those, with
anything in the destination region and elsewhere, gives the same registers and cursors, and each byte is written alike in both
or in neither (41_encoder R154, R158). -/
def Obligations.EncodeReadsOnlyItsPixels : Prop :=
  ∀ (s t : State) (m : Memory), s.encoding → s.encoderKept → s.inputs = [] →
    (∀ addr, (s.pixelSource s.a s.b).contains addr = true → m.read addr = s.mem.read addr) →
    step s = .next t →
    ∃ t', step { s with mem := m } = .next t' ∧ { t' with mem := t.mem } = t ∧
      ∀ addr, t'.mem.read addr = t.mem.read addr ∨
        (t.mem.read addr = s.mem.read addr ∧ t'.mem.read addr = m.read addr)

/-- A DECODE of the stream ENCODE makes of a frame ends with 0 and leaves that frame at DST_BASE (41_encoder R157). -/
def Obligations.DecodeInvertsEncode : Prop :=
  ∀ (s : State) (pix : Nat → Word), s.phase = .busy .decode → s.inputs = [] → s.regionsKept → s.src = 0 → s.dst = 0 →
    wordsAt s s.srcBase.toNat (encodeWords pix 0 0 s.pixelCount false) → s.payload = encLen pix 0 s.pixelCount →
    ∃ n u, steps n s = .next u ∧ completedWith .success s u ∧ (∀ p < s.pixelCount, u.dstPix p = pix p) ∧
      memoryKeptOutside s.dstBase.toNat s.frameBytes s u ∧ sameRegisters s u

/-- A DECODE of the stream ENCODE_PARTIAL makes of a band ends with 0, leaves the band's pixels in place and every other byte as
it was (41_encoder R157). -/
def Obligations.DecodeInvertsEncodePartial : Prop :=
  ∀ (s : State) (pix : Nat → Word) (fl : BitVec 12) (lc : Nat), s.phase = .busy .decode → s.inputs = [] →
    s.regionsKept → s.src = 0 → s.dst = 0 → fl.toNat + lc ≤ s.height.toNat →
    wordsAt s s.srcBase.toNat (encodeWords pix fl (s.lineStart fl.toNat) (s.lineStart (fl.toNat + lc)) true) →
    s.payload = encLen pix (s.lineStart fl.toNat) (s.lineStart (fl.toNat + lc)) →
    ∃ n u, steps n s = .next u ∧ completedWith .success s u ∧
      (∀ p, s.lineStart fl.toNat ≤ p → p < s.lineStart (fl.toNat + lc) → u.dstPix p = pix p) ∧
      memoryKeptOutside (s.dstAddr (4 * s.lineStart fl.toNat)) (4 * (lc * s.width.toNat)) s u ∧ sameRegisters s u

/-! ### Commands -/

/-- A host write of CTRL with START = 1 whose CMD is 0, 5, 6 or 7, or while BUSY, sets CMD_ERR and changes nothing else; that is
what exec answers for the reserved commands always and for the four others while BUSY (30_encoding R111). -/
def Obligations.RejectedCommandsOnlySetCmdErr : Prop :=
  ∀ s : State,
    (∀ (rest : List Input) (w : Word), s.inputs = .external (.regWrite 0x000 4 w) :: rest → startOf w = true →
      cmdOf w ∈ [0, 5, 6, 7] ∨ s.busy = true → step s = .next { s with inputs := rest, cmdErr := true }) ∧
    (∀ (i : Instr) (ignored : BitVec 28),
      i ∈ [.reservedCmd0 ignored, .reservedCmd5 ignored, .reservedCmd6 ignored, .reservedCmd7 ignored] ∨
        (s.busy = true ∧ i ∈ [.hdrInit ignored, .encode ignored, .encodePartial ignored, .decode ignored]) →
      exec i s = .next { s with cmdErr := true })

/-- In IDLE an operation with a failing precondition is refused, with no state, and the reason named is that of a precondition
that fails; so where exactly one fails, it is that one's: RANGE, OVERLAP, DEVICE_MEMORY, CAPACITY or RACE (60_exceptions R238;
41_encoder R140, R150; 42_decoder R180). Which is named when several fail is the model's choice (log 12), and the band as the
source region of ENCODE_PARTIAL is read from 20_memory R72 (log 7). That RACE, a clash with another instance's running operation,
is a precondition at issue is read from 60_exceptions R227 (log 9). -/
def Obligations.FailedPreconditionsAreRefused : Prop :=
  ∀ (s : State) (ignored : BitVec 28), s.phase = .idle →
    ((∃ r, s.encodeFails r) → ∃ r, s.encodeFails r ∧ exec (.encode ignored) s = .refused r) ∧
    ((∃ r, s.encodePartialFails r) → ∃ r, s.encodePartialFails r ∧ exec (.encodePartial ignored) s = .refused r) ∧
    ((∃ r, s.decodeFails r) → ∃ r, s.decodeFails r ∧ exec (.decode ignored) s = .refused r)

/-- The frame of the command words: when exec answers a next state, no register of the host's, no byte of memory and nothing
outside the block changes; either only CMD_ERR is set, or BUSY is set and DONE cleared (30_encoding R110, R111). -/
def Obligations.CommandsKeepRegistersAndMemory : Prop :=
  ∀ (s t : State) (i : Instr), i.lang = .command → exec i s = .next t →
    sameRegisters s t ∧ t.mem = s.mem ∧ t.result = s.result ∧ sameUnseen s t ∧ sameOutside s t ∧
      (t = { s with cmdErr := true } ∨ (s.busy = false ∧ t.busy = true ∧ t.done = false ∧ t.cmdErr = s.cmdErr))

/-! ### The register window -/

/-- A register write in IDLE other than CTRL and STATUS: the register then reads as the written value in its writable bits and 0
in the others, RESULT keeps its value, and every other register reads as before. Each offset of the map sets its own field and nothing else
(10_state R32, R38 to R49). -/
def Obligations.RegisterWritesInIdleTakeEffect : Prop :=
  (∀ (s : State) (rest : List Input) (offset : BitVec 12) (v : Word),
    s.inputs = .external (.regWrite offset 4 v) :: rest → s.phase = .idle → offset.toNat % 4 = 0 →
    regAt offset.toNat ≠ .ctrl → regAt offset.toNat ≠ .status →
    ∃ t, step s = .next t ∧
      (regAt offset.toNat ≠ .result → t.readReg (regAt offset.toNat) = v &&& s.writableBits (regAt offset.toNat)) ∧
      (∀ r, r ≠ regAt offset.toNat ∨ r = .result → t.readReg r = s.readReg r) ∧ t.mem = s.mem ∧ sameStatus s t ∧
      sameUnseen s t ∧ sameOutside { s with inputs := rest } t) ∧
  ∀ (s : State) (rest : List Input) (v : Word), s.phase = .idle →
    let s' : State := { s with inputs := rest }
    ∀ p ∈ [((0x008 : BitVec 12), s'), (0x00C, { s' with doneIe := v.getLsbD 0 }), (0x010, { s' with magic := v }),
        (0x014, { s' with version := v.extractLsb' 0 16, subVersion := v.extractLsb' 16 16 }),
        (0x018, { s' with width := v }), (0x01C, { s' with height := v }), (0x020, { s' with id := v }),
        (0x024, { s' with uncompressed := v }), (0x028, { s' with payloadSize := v }),
        (0x02C, { s' with srcBaseHi := v.extractLsb' 2 30 }), (0x030, { s' with dstBaseHi := v.extractLsb' 2 30 }),
        (0x034, { s' with dstCap := v }), (0x038, { s' with partFirstLine := v.extractLsb' 0 12 }),
        (0x03C, { s' with partLineCount := v })] ++
        (List.range 960).map fun r => (BitVec.ofNat 12 (0x100 + 4 * r), { s' with reserved := s.reserved.set r v }),
      s.inputs = .external (.regWrite p.1 4 v) :: rest → step s = .next p.2

/-- A register write while BUSY to anything but CTRL, STATUS and IRQ_EN is lost (70_reset R259). -/
def Obligations.ConfigurationWritesWhileBusyAreLost : Prop :=
  ∀ (s : State) (rest : List Input) (offset : BitVec 12) (v : Word),
    s.inputs = .external (.regWrite offset 4 v) :: rest → s.busy = true → offset.toNat % 4 = 0 →
    regAt offset.toNat ∉ [.ctrl, .status, .irqEn] → step s = .next { s with inputs := rest }

/-- STATUS: bits 0, 1, 2 read BUSY, DONE, CMD_ERR and bits 31:3 read 0; a write, BUSY or not, clears DONE where bit 1 is 1 and
CMD_ERR where bit 2 is 1, and changes nothing else (10_state R34 to R37). That word is what a host read of offset 0x004 returns, in
every state. -/
def Obligations.StatusReadsAndClearsByOnes : Prop :=
  (∀ (s : State) (n : Nat), s.statusWord.getLsbD n =
      ((decide (n = 0) && s.busy) || (decide (n = 1) && s.done) || (decide (n = 2) && s.cmdErr))) ∧
  (∀ (s : State) (rest : List Input), s.inputs = .external (.regRead 0x004 4) :: rest →
    ∃ t, step s = .next t ∧ t.reply = .register s.statusWord ∧ sameRegisters s t ∧ sameStatus s t ∧ t.mem = s.mem) ∧
  ∀ (s : State) (rest : List Input) (v : Word), s.inputs = .external (.regWrite 0x004 4 v) :: rest →
    step s = .next { s with
      inputs := rest
      done := s.done && !v.getLsbD 1
      cmdErr := s.cmdErr && !v.getLsbD 2 }

/-- A register access that is not 4 bytes wide at a multiple of 4 is refuse(BAD_ACCESS), read or write (20_memory R75). -/
def Obligations.UnalignedRegisterAccessesAreRefused : Prop :=
  ∀ (s : State) (rest : List Input) (offset : BitVec 12) (width : Nat) (v : Word),
    width ≠ 4 ∨ offset.toNat % 4 ≠ 0 →
    (s.inputs = .external (.regWrite offset width v) :: rest → step s = .refused .badAccess) ∧
    (s.inputs = .external (.regRead offset width) :: rest → step s = .refused .badAccess)

/-- A register read returns the register's value and changes nothing else, but that a read of STATUS with DONE = 1 is how the host
sees it (20_memory R80 item 2; log 15). Each offset of the map reads its own field: RESULT the two's complement of its code (10_state
R38, 60_exceptions R222), VERSION, the bases and PART_FIRST_LINE with their halves and hardwired zeros, CTRL and unassigned
offsets 0, among them RESERVED[r] past the last one (10_state R32, R33, R39 to R49). -/
def Obligations.RegisterReadsReturnTheRegister : Prop :=
  ∀ (s : State) (rest : List Input) (offset : BitVec 12), offset.toNat % 4 = 0 →
    s.inputs = .external (.regRead offset 4) :: rest →
    step s = .next { s with
        inputs := rest
        reply := .register (s.readReg (regAt offset.toNat))
        unseen := if offset = 0x004 ∧ s.done = true then [] else s.unseen } ∧
      (∀ p ∈ [(0x000, 0), (0x004, s.statusWord),
          (0x008, match s.result with
            | .success => 0x00000000
            | .unknownCode => 0xFFFFFFFF
            | .sourceOverrun => 0xFFFFFFFE
            | .destinationOverrun => 0xFFFFFFFD),
          (0x00C, if s.doneIe = true then 1 else 0), (0x010, s.magic), (0x014, s.subVersion ++ s.version),
          (0x018, s.width), (0x01C, s.height), (0x020, s.id), (0x024, s.uncompressed), (0x028, s.payloadSize),
          (0x02C, s.srcBaseHi ++ 0#2), (0x030, s.dstBaseHi ++ 0#2), (0x034, s.dstCap),
          (0x038, 0#20 ++ s.partFirstLine), (0x03C, s.partLineCount)], s.readReg (regAt p.1) = p.2) ∧
      (0x040 ≤ offset.toNat ∧ offset.toNat < 0x100 → s.readReg (regAt offset.toNat) = 0) ∧
      ∀ r, s.readReg (regAt (0x100 + 4 * r)) = s.reserved.getD r 0 ∧ (s.reserved.length ≤ r → s.reserved.getD r 0 = 0)

/-- The interrupt output is DONE AND DONE_IE. A write of STATUS with bit 1 set, an accepted command and a write of IRQ_EN with
bit 0 clear each leave it 0; a completion leaves it DONE_IE (60_exceptions R230). A write of IRQ_EN sets DONE_IE to its bit 0 and
changes nothing else, BUSY or not (10_state R39, R56). An interrupt can be taken only while there is one: with irq = 0 the event
does nothing (log 3). -/
def Obligations.InterruptFollowsDoneAndEnable : Prop :=
  ∀ s : State, (s.irq = true ↔ s.done = true ∧ s.doneIe = true) ∧
    (∀ rest v, s.inputs = .external (.regWrite 0x004 4 v) :: rest → v.getLsbD 1 = true →
      ∃ t, step s = .next t ∧ t.irq = false) ∧
    (∀ rest v, s.inputs = .external (.regWrite 0x00C 4 v) :: rest → v.getLsbD 0 = false →
      ∃ t, step s = .next t ∧ t.irq = false) ∧
    (∀ rest v, s.inputs = .external (.regWrite 0x00C 4 v) :: rest →
      step s = .next { s with inputs := rest, doneIe := v.getLsbD 0 }) ∧
    (∀ rest, s.inputs = .external .takeIrq :: rest → s.irq = false → step s = .next { s with inputs := rest }) ∧
    (∀ i t, i.lang = .command → s.busy = false → exec i s = .next t → t.busy = true → t.irq = false) ∧
    (∀ t, s.busy = true → s.inputs = [] → step s = .next t → t.busy = false → t.irq = s.doneIe)

/-- A W1C write of STATUS in the cycle of a completion loses: DONE reads 1 after it (10_state R35). How one cycle holds
both is the model's form (log 11). -/
def Obligations.CompletionWinsOverClearingDone : Prop :=
  ∀ (s u : State) (rest : List Input) (v : Word) (engineFirst : Bool),
    s.inputs = .sameCycle (.regWrite 0x004 4 v) engineFirst :: rest → s.busy = true →
    engineTurn { s with inputs := rest } = .next u → u.busy = false →
    ∃ t, step s = .next t ∧ t.done = true ∧ t.busy = false ∧ t.result = u.result ∧ t.mem = u.mem

/-- A command written in the cycle of a completion: in one admitted order it is rejected and the completion follows, in the other
it is a new command after the completion (60_exceptions R228). The flag that names the order is the model's form (log 11). -/
def Obligations.CommandAndCompletionMayComeInEitherOrder : Prop :=
  ∀ (s u : State) (rest : List Input) (w : Word) (i : Instr) (engineFirst : Bool),
    s.inputs = .sameCycle (.regWrite 0x000 4 w) engineFirst :: rest → s.busy = true → decodeCommand w = some i →
    engineTurn { s with inputs := rest } = .next u → u.busy = false →
    if engineFirst = true then step s = exec i u
    else ∃ t, step s = .next t ∧ t.cmdErr = true ∧ t.busy = false ∧ t.done = true ∧ t.result = u.result ∧ t.mem = u.mem

/-- While BUSY, RESULT and PAYLOAD_SIZE hold their old values: a step of the engine that does not complete leaves them
(70_reset R261, 10_state R38). -/
def Obligations.ResultsChangeOnlyAtCompletion : Prop :=
  ∀ s t : State, s.inputs = [] → step s = .next t → t.busy = true →
    t.result = s.result ∧ t.payloadSize = s.payloadSize ∧ t.done = s.done ∧ t.cmdErr = s.cmdErr

/-! ### Memory and the outside world -/

/-- Four bytes the host or another agent writes at an address are read by the block as the word {b3, b2, b1, b0}, and every other
byte reads as before (20_memory R70, R90). -/
def Obligations.HostBytesAreLittleEndianWords : Prop :=
  ∀ (s : State) (rest : List Input) (agent : Agent) (addr : Nat) (b0 b1 b2 b3 : Byte),
    s.inputs = .external (.memWrite agent addr [b0, b1, b2, b3]) :: rest → s.phase = .idle → s.unseen = [] →
    s.devices = [] → addr + 4 ≤ Config.addressSpace →
    ∃ t, step s = .next t ∧ t.mem.read32 addr = b3 ++ b2 ++ b1 ++ b0 ∧ memoryKeptOutside addr 4 s t ∧
      sameRegisters s t ∧ sameStatus s t ∧ sameEncoder s t ∧ sameDecoder s t ∧ sameUnseen s t ∧
      sameOutside { s with inputs := rest } t

/-- A write by the host or another agent to a byte of an operation's regions, from its issue until the host has seen DONE = 1, is
refuse(RACE) (20_memory R80, 70_reset R258; that the exclusion goes on after the completion is log 15); any other write puts
its bytes in memory, BUSY or not, and changes nothing else, so that every byte of those regions is as it was. The regions of a running ENCODE_PARTIAL are its band and its DST_CAP bytes (log 7). -/
def Obligations.WritesToARunningOperationsRegionsRace : Prop :=
  ∀ (s : State) (rest : List Input) (agent : Agent) (addr : Nat) (bytes : List Byte),
    s.inputs = .external (.memWrite agent addr bytes) :: rest → addr + bytes.length ≤ Config.addressSpace →
    s.touchesDevice ⟨addr, bytes.length⟩ = false →
    if ∃ c ∈ s.activeClaim :: s.unseen, (Region.mk addr bytes.length).overlaps c.reads = true ∨
        (Region.mk addr bytes.length).overlaps c.writes = true then step s = .refused .race
    else ∃ t, step s = .next t ∧ (∀ q, (h : q < bytes.length) → t.mem.read (addr + q) = bytes[q]) ∧
      memoryKeptOutside addr bytes.length s t ∧ sameRegisters s t ∧ sameStatus s t ∧ sameEncoder s t ∧ sameDecoder s t ∧
      sameUnseen s t ∧ sameOutside { s with inputs := rest } t ∧
      ∀ c ∈ s.activeClaim :: s.unseen, ∀ a,
        c.reads.contains a = true ∨ c.writes.contains a = true → t.mem.read a = s.mem.read a

/-- A host read returns memory's content except for bytes of the destination region of an operation from its issue until the host
has seen DONE = 1, which are free values; it changes nothing but the host's answer and the model's count of draws (20_memory R80
items 2 and 4, 70_reset R258; log 6, log 15). -/
def Obligations.HostReadsSeeTheSourceRegion : Prop :=
  ∀ (s : State) (rest : List Input) (addr len : Nat), s.inputs = .external (.memRead addr len) :: rest →
    addr + len ≤ Config.addressSpace → s.touchesDevice ⟨addr, len⟩ = false →
    ∃ bytes, step s = .next { s with inputs := rest, reply := .memory bytes, draws := s.draws + 1 } ∧
      bytes.length = len ∧
      ∀ q, (h : q < bytes.length) → (∀ c ∈ s.activeClaim :: s.unseen, c.writes.contains (addr + q) = false) →
        bytes[q] = s.mem.read (addr + q)

/-- The host sees DONE = 1 by a read of STATUS, by a poll, or by taking the interrupt, and then no operation's regions are held any
more; until one of these or a reset, every completion stays unseen, and a completion adds its own (20_memory R80 item 2,
70_reset R258). So it is for every step there is: a move of the engine, a poll, an event, and an event in the engine's cycle, in the
order that cycle has (log 11). What ends the exclusion, where the spec's files differ, is the model's choice (log 15). -/
def Obligations.ExclusionLastsUntilDoneIsSeen : Prop :=
  (∀ (s : State) (rest : List Input), s.done = true →
    (s.inputs = .external (.regRead 0x004 4) :: rest →
      step s = .next { s with inputs := rest, reply := .register s.statusWord, unseen := [] }) ∧
    (s.inputs = .wait :: rest →
      step s = .next { s with inputs := rest, reply := .register s.statusWord, unseen := [] }) ∧
    (s.inputs = .external .takeIrq :: rest → s.doneIe = true → step s = .next { s with inputs := rest, unseen := [] })) ∧
  ∀ s t : State, step s = .next t →
    match s.inputs with
    | [] => t.unseen = s.unseenAfterEngine t
    | .engine :: _ => t.unseen = s.unseenAfterEngine t
    | .wait :: _ => t.unseen = if s.done = true then [] else s.unseenAfterEngine t
    | .external e :: _ => t.unseen = s.unseenAfterEvent e
    | .sameCycle e engineFirst :: rest =>
      if engineFirst = true ∧ isStatusWrite e = false then
        ∃ u, engineTurn { s with inputs := rest } = .next u ∧ eventTurn e u = .next t ∧
          u.unseen = s.unseenAfterEngine u ∧ t.unseen = u.unseenAfterEvent e
      else ∃ u, eventTurn e { s with inputs := rest } = .next u ∧ engineTurn u = .next t ∧
          u.unseen = s.unseenAfterEvent e ∧ t.unseen = u.unseenAfterEngine t

/-- An operation of another instance that would write a byte this one's running operation reads or writes, or read a byte this
one's writes, is refuse(RACE) (60_exceptions R227). That the clash is found when it begins, that its regions are kept in a
list, that the instance has a number below NUM_INSTANCES and runs one operation at a time there, is the model's form (log 9);
the source region of an ENCODE_PARTIAL is its band (log 7). When the operation of an instance ends, its regions leave the list and
nothing else changes; the end of one that does not run does nothing (log 9). -/
def Obligations.ClashingInstancesRace : Prop :=
  (∀ (s : State) (rest : List Input) (who : Nat) (c : Claim), s.inputs = .external (.otherIssue who c) :: rest →
    if who = 0 ∨ s.instances ≤ who then step s = .refused .noSuchInstance
    else if ∃ o ∈ s.others, o.who = who then step s = .next { s with inputs := rest }
    else if c.writes.overlaps s.activeSource = true ∨ c.writes.overlaps s.activeDest = true ∨
        c.reads.overlaps s.activeDest = true then step s = .refused .race
    else step s = .next { s with inputs := rest, others := ⟨who, c⟩ :: s.others }) ∧
  ∀ (s : State) (rest : List Input) (who : Nat), s.inputs = .external (.otherComplete who) :: rest →
    step s = .next { s with inputs := rest, others := s.others.filter fun o => decide (o.who ≠ who) } ∧
      ((∀ o ∈ s.others, o.who ≠ who) → step s = .next { s with inputs := rest })

/-! ### Reset -/

/-- Every register of the window reads 0 right after reset, the engine is idle and the interrupt output is 0 (70_reset R250). -/
def Obligations.EveryRegisterResetsToZero : Prop :=
  (∀ offset : Nat, State.reset.readReg (regAt offset) = 0) ∧ State.reset.phase = .idle ∧ State.reset.irq = false

/-- The reset input at any time: every register reads 0, the engine is idle without a completion (DONE = 0), irq = 0; every byte
outside the destination region of an operation cut short is unchanged, and so is the source region, which shares no byte with
it (70_reset R250, R252). The bytes of the destination region are free values (log 6), RESERVED[] keeps its
number of words (log 14), and no completion is left to see (log 15). The platform and what comes next from outside are not the
block's to reset (log 14). -/
def Obligations.ResetInputClearsTheBlock : Prop :=
  ∀ (s : State) (rest : List Input), s.inputs = .external .reset :: rest →
    ∃ t, step s = .next t ∧ (∀ offset : Nat, t.readReg (regAt offset) = 0) ∧ t.phase = .idle ∧ t.done = false ∧
      t.irq = false ∧ t.unseen = [] ∧ memoryKeptOutside s.activeDest.base s.activeDest.len s t ∧
      (s.regionsKept → ∀ addr, s.activeSource.contains addr = true → t.mem.read addr = s.mem.read addr) ∧
      (s.phase = .idle → ∀ addr, t.mem.read addr = s.mem.read addr) ∧ t.reserved.length = s.reserved.length ∧
      t.devices = s.devices ∧ t.instances = s.instances ∧ t.others = s.others ∧ t.inputs = rest ∧ t.reply = s.reply

/-- In IDLE with nothing coming from outside the machine waits: the step changes nothing (70_reset R251, 60_exceptions R236). That
it is the engine's turn then is the model's choice (log 3). -/
def Obligations.IdleEngineWaits : Prop :=
  ∀ s : State, s.phase = .idle → s.inputs = [] → step s = .next s

/-! ### The whole machine -/

/-- The invariant holds right after reset. The working registers and the memory there are the model's choice (log 1, log 2),
and so is the platform (log 5, log 9). -/
def Obligations.InvariantHoldsAtReset : Prop := State.reset.Inv

/-- Every step keeps the invariant: memory canonical, HDR_RESERVED_WORDS and NUM_INSTANCES
fixed, one operation at most for each other instance (log 9), never BUSY and DONE together, the running
operation's regions in range and disjoint, src a multiple of 4 within P and dst within N while a DECODE runs, the scan's cursors
ordered and the room sufficient while an encode runs (20_memory R76, R78, R79; 10_state R50, R53; 60_exceptions R226, R227). -/
def Obligations.EveryStepKeepsTheInvariant : Prop :=
  ∀ s t : State, s.Inv → step s = .next t → t.Inv

/-- An accepted operation is never stopped: under the invariant each step of the engine answers a next state (60_exceptions
R237, 42_decoder R191, 41_encoder R140). -/
def Obligations.AcceptedOperationsNeverStop : Prop :=
  ∀ s : State, s.Inv → s.inputs = [] → ∃ t, step s = .next t

/-- Every accepted operation completes: under the invariant a busy engine left to itself reaches IDLE with DONE = 1
(60_exceptions R237, 70_reset R262; 41_encoder R153, 42_decoder R192). -/
def Obligations.AcceptedOperationsComplete : Prop :=
  ∀ s : State, s.Inv → s.busy = true → s.inputs = [] →
    ∃ n u, steps n s = .next u ∧ u.phase = .idle ∧ u.done = true

/-- The engine makes the same move whichever input lets it move: the one it makes with no input at hand, the inputs themselves apart.
So it moves under the input that names it, and under a poll of STATUS with DONE = 0, which stays and has read STATUS (30_encoding
R116); with an event in its cycle its move and the event's follow one another, the event first when it writes STATUS (10_state R35)
or the flag says so (60_exceptions R228). The inputs and their order are the model's form (log 3, log 11); with this, what is said
of the engine's step where nothing comes from outside holds for all of them. -/
def Obligations.EngineMovesAlikeUnderEveryInput : Prop :=
  ∀ (s : State) (rest : List Input),
    (s.inputs = .engine :: rest →
      step s = andThen (step { s with inputs := [] }) fun t => .next { t with inputs := rest }) ∧
    (s.inputs = .wait :: rest → s.done = false →
      step s = andThen (step { s with inputs := [] }) fun t =>
        .next { t with inputs := s.inputs, reply := .register s.statusWord }) ∧
    ∀ (e : Event) (engineFirst : Bool), s.inputs = .sameCycle e engineFirst :: rest →
      if engineFirst = true ∧ isStatusWrite e = false then
        step s = andThen (step { s with inputs := [] }) fun t => step { t with inputs := .external e :: rest }
      else
        step s = andThen (step { s with inputs := .external e :: rest }) fun t =>
          andThen (step { t with inputs := [] }) fun u => .next { u with inputs := rest }
end

