-- ==== Sys2Proof/Laws/Memory.lean ====
section
/-! SUPPORT. The laws of memory: a read after a write, what each write leaves alone, and that every operation keeps the canonical
form (20_memory R70, R71). Later proofs cite these and do not unfold an operation. -/

namespace Sys2Proof.Machine

/-! ### Bytes -/

theorem Memory.read_filter_ne (m : List Host.Cell) (addr c : Nat) :
    Memory.read (m.filter fun cell => decide (cell.1 ≠ addr)) c =
      if c = addr then Memory.unlisted else Memory.read m c := by
  induction m with
  | nil => simp [Memory.read]
  | cons cell rest ih =>
    obtain ⟨d, v⟩ := cell
    by_cases hd : d = addr
    · subst hd
      rw [List.filter_cons_of_neg (by simp), ih]
      by_cases hc : c = d
      · simp [hc]
      · simp [hc, Memory.read, Ne.symm hc]
    · rw [List.filter_cons_of_pos (by simpa using hd)]
      simp only [Memory.read, ih]
      by_cases hc : d = c
      · subst hc; simp [hd]
      · simp [hc]

/-- Clearing a range makes its addresses unlisted and leaves every other address alone. -/
theorem Memory.read_clear (m : Memory) (base len c : Nat) :
    (m.clear base len).read c = if base ≤ c ∧ c < base + len then Memory.unlisted else m.read c := by
  induction m with
  | nil => simp [Memory.clear, Memory.read]
  | cons cell rest ih =>
    obtain ⟨d, v⟩ := cell
    unfold Memory.clear at ih ⊢
    by_cases hd : d < base ∨ base + len ≤ d
    · rw [List.filter_cons_of_pos (by simpa using hd)]
      simp only [Memory.read, ih]
      by_cases hc : d = c
      · subst hc; simp; omega
      · simp [hc]
    · rw [List.filter_cons_of_neg (by simpa using hd), ih]
      by_cases hc : d = c
      · subst hc
        rw [if_pos (by omega), if_pos (by omega)]
      · simp [Memory.read, hc]

/-- Erasing an entry makes its address unlisted and leaves every other address alone. -/
theorem Memory.read_erase (m : Memory) (addr c : Nat) :
    (m.erase addr).read c = if c = addr then Memory.unlisted else m.read c :=
  Memory.read_filter_ne m addr c

theorem Memory.read_insert (m : Memory) (addr c : Nat) (v : Byte) (h : ∀ cell ∈ m, cell.1 ≠ addr) :
    (m.insert addr v).read c = if c = addr then v else m.read c := by
  induction m with
  | nil => simp [Memory.insert, Memory.read, eq_comm]
  | cons cell rest ih =>
    obtain ⟨d, x⟩ := cell
    have hd : d ≠ addr := h (d, x) (by simp)
    have ih := ih (fun cell hc => h cell (by simp [hc]))
    unfold Memory.insert
    split
    · simp [Memory.read, eq_comm]
    · simp only [Memory.read, ih]
      by_cases hc : d = c
      · subst hc; simp [hd]
      · simp [hc]

theorem Memory.erase_ne (m : Memory) (addr : Nat) : ∀ cell ∈ m.erase addr, cell.1 ≠ addr := by
  intro cell hc
  simp only [Memory.erase, List.mem_filter, decide_eq_true_eq] at hc
  exact hc.2

/-- A read after a write: the byte written at its address, every other byte as before. -/
theorem Memory.read_write (m : Memory) (addr c : Nat) (v : Byte) :
    (m.write addr v).read c = if c = addr then v else m.read c := by
  unfold Memory.write
  split
  · rename_i hv; rw [Memory.read_erase, hv]
  · rw [Memory.read_insert _ _ _ _ (m.erase_ne addr), Memory.read_erase]
    by_cases hc : c = addr <;> simp [hc]

@[simp] theorem Memory.read_write_same (m : Memory) (addr : Nat) (v : Byte) : (m.write addr v).read addr = v := by
  simp [Memory.read_write]

theorem Memory.read_write_ne (m : Memory) {addr c : Nat} (v : Byte) (h : c ≠ addr) :
    (m.write addr v).read c = m.read c := by
  simp [Memory.read_write, h]

/-- A read after bytes written from an address upward. -/
theorem Memory.read_writeBytes (m : Memory) (addr c : Nat) (bs : List Byte) :
    (m.writeBytes addr bs).read c =
      if h : addr ≤ c ∧ c < addr + bs.length then bs[c - addr]'(by omega) else m.read c := by
  induction bs generalizing m addr with
  | nil => simp [Memory.writeBytes]
  | cons v rest ih =>
    simp only [Memory.writeBytes, ih, List.length_cons]
    by_cases h0 : c = addr
    · subst h0; simp
    · by_cases h1 : addr + 1 ≤ c ∧ c < addr + 1 + rest.length
      · have h2 : addr ≤ c ∧ c < addr + (rest.length + 1) := by omega
        obtain ⟨d, hd⟩ : ∃ d, c - addr = d + 1 := ⟨c - addr - 1, by omega⟩
        have hd' : c - (addr + 1) = d := by omega
        simp only [h1, h2, and_self, dif_pos, hd', hd, List.getElem_cons_succ]
      · have h2 : ¬(addr ≤ c ∧ c < addr + (rest.length + 1)) := by omega
        rw [dif_neg h1, dif_neg h2, Memory.read_write_ne _ _ h0]

theorem Memory.read_writeBytes_outside (m : Memory) {addr c : Nat} (bs : List Byte)
    (h : c < addr ∨ addr + bs.length ≤ c) : (m.writeBytes addr bs).read c = m.read c := by
  rw [Memory.read_writeBytes, dif_neg (by omega)]

/-! ### Words (20_memory R70, R90) -/

@[simp] theorem wordBytes_length (w : Word) : (wordBytes w).length = 4 := rfl

theorem wordOfBytes_wordByte (w : Word) :
    wordOfBytes (wordByte w 0) (wordByte w 1) (wordByte w 2) (wordByte w 3) = w := by
  apply BitVec.eq_of_getLsbD_eq
  intro n hn
  simp only [wordOfBytes, wordByte, BitVec.getLsbD_append, BitVec.getLsbD_extractLsb']
  by_cases h0 : n < 8
  · simp [h0]
  · by_cases h1 : n - 8 < 8
    · simp [h0, h1]; congr 1; omega
    · by_cases h2 : n - 8 - 8 < 8
      · simp [h0, h1, h2]; congr 1; omega
      · have h3 : n - 8 - 8 - 8 < 8 := by omega
        simp [h0, h1, h2, h3]; congr 1; omega

theorem Memory.read_write32_outside (m : Memory) {addr c : Nat} (w : Word) (h : c < addr ∨ addr + 4 ≤ c) :
    (m.write32 addr w).read c = m.read c :=
  Memory.read_writeBytes_outside m (wordBytes w) (by simpa using h)

/-- Byte n of the word at an address holds bits [8n+7:8n] (20_memory R70). -/
theorem Memory.read_write32_byte (m : Memory) (addr n : Nat) (w : Word) (h : n < 4) :
    (m.write32 addr w).read (addr + n) = wordByte w n := by
  unfold Memory.write32
  rw [Memory.read_writeBytes, dif_pos (by simp; omega)]
  simp only [Nat.add_sub_cancel_left]
  match n, h with
  | 0, _ => rfl
  | 1, _ => rfl
  | 2, _ => rfl
  | 3, _ => rfl

/-- A word read back is the word written. -/
@[simp] theorem Memory.read32_write32_same (m : Memory) (addr : Nat) (w : Word) :
    (m.write32 addr w).read32 addr = w := by
  have h0 := m.read_write32_byte addr 0 w (by omega)
  rw [Nat.add_zero] at h0
  unfold Memory.read32
  rw [h0, m.read_write32_byte addr 1 w (by omega), m.read_write32_byte addr 2 w (by omega),
    m.read_write32_byte addr 3 w (by omega), wordOfBytes_wordByte]

/-- Memories that agree on a word's four bytes agree on the word. -/
theorem Memory.read32_congr {m m' : Memory} {addr : Nat}
    (h : ∀ c, addr ≤ c → c < addr + 4 → m'.read c = m.read c) : m'.read32 addr = m.read32 addr := by
  unfold Memory.read32
  rw [h addr (by omega) (by omega), h (addr + 1) (by omega) (by omega), h (addr + 2) (by omega) (by omega),
    h (addr + 3) (by omega) (by omega)]

theorem Memory.read32_write32_ne (m : Memory) {addr c : Nat} (w : Word) (h : c + 4 ≤ addr ∨ addr + 4 ≤ c) :
    (m.write32 addr w).read32 c = m.read32 c :=
  Memory.read32_congr fun _ _ _ => Memory.read_write32_outside m w (by omega)

/-! ### Runs of words -/

theorem Memory.read_writeWords_outside (m : Memory) {addr c : Nat} (ws : List Word)
    (h : c < addr ∨ addr + 4 * ws.length ≤ c) : (m.writeWords addr ws).read c = m.read c := by
  induction ws generalizing m addr with
  | nil => rfl
  | cons w rest ih =>
    simp only [List.length_cons] at h
    rw [Memory.writeWords, ih (m.write32 addr w) (by omega), Memory.read_write32_outside m w (by omega)]

theorem Memory.read32_writeWords_outside (m : Memory) {addr c : Nat} (ws : List Word)
    (h : c + 4 ≤ addr ∨ addr + 4 * ws.length ≤ c) : (m.writeWords addr ws).read32 c = m.read32 c :=
  Memory.read32_congr fun _ _ _ => Memory.read_writeWords_outside m ws (by omega)

/-- Word q of a run of words written is read back at its place. -/
theorem Memory.read32_writeWords (m : Memory) (addr q : Nat) (ws : List Word) (h : q < ws.length) :
    (m.writeWords addr ws).read32 (addr + 4 * q) = ws[q] := by
  induction ws generalizing m addr q with
  | nil => simp at h
  | cons w rest ih =>
    rw [Memory.writeWords]
    cases q with
    | zero =>
      rw [Memory.read32_writeWords_outside _ _ (by omega)]
      simp
    | succ q =>
      have h' : q < rest.length := by simpa using h
      have := ih (m.write32 addr w) (addr + 4) q h'
      rw [show addr + 4 * (q + 1) = addr + 4 + 4 * q by omega, this]
      simp

theorem Memory.writeWords_append (m : Memory) (addr : Nat) (us vs : List Word) :
    m.writeWords addr (us ++ vs) = (m.writeWords addr us).writeWords (addr + 4 * us.length) vs := by
  induction us generalizing m addr with
  | nil => simp [Memory.writeWords]
  | cons w rest ih =>
    simp only [List.cons_append, Memory.writeWords, ih, List.length_cons]
    congr 1; omega

theorem Memory.read_fillWords_outside (m : Memory) {dest c n : Nat} (w : Word)
    (h : c < dest ∨ dest + 4 * n ≤ c) : (m.fillWords dest w n).read c = m.read c := by
  induction n generalizing m dest with
  | zero => rfl
  | succ n ih =>
    rw [Memory.fillWords, ih (m.write32 dest w) (by omega), Memory.read_write32_outside m w (by omega)]

/-- Every word of a fill is the word filled with. -/
theorem Memory.read32_fillWords (m : Memory) (dest q n : Nat) (w : Word) (h : q < n) :
    (m.fillWords dest w n).read32 (dest + 4 * q) = w := by
  induction n generalizing m dest q with
  | zero => omega
  | succ n ih =>
    rw [Memory.fillWords]
    cases q with
    | zero =>
      rw [Memory.read32_congr fun c _ _ => Memory.read_fillWords_outside _ w (by omega)]
      simp
    | succ q =>
      rw [show dest + 4 * (q + 1) = dest + 4 + 4 * q by omega]
      exact ih _ _ _ (by omega)

theorem Memory.read_copyWords_outside (m : Memory) {source dest c n : Nat}
    (h : c < dest ∨ dest + 4 * n ≤ c) : (m.copyWords source dest n).read c = m.read c := by
  induction n generalizing m source dest with
  | zero => rfl
  | succ n ih =>
    rw [Memory.copyWords, ih (m.write32 dest _) (by omega), Memory.read_write32_outside m _ (by omega)]

/-- Word q of a copy is word q of the source, when source and destination share no byte. -/
theorem Memory.read32_copyWords (m : Memory) (source dest q n : Nat) (h : q < n)
    (hd : source + 4 * n ≤ dest ∨ dest + 4 * n ≤ source) :
    (m.copyWords source dest n).read32 (dest + 4 * q) = m.read32 (source + 4 * q) := by
  induction n generalizing m source dest q with
  | zero => omega
  | succ n ih =>
    rw [Memory.copyWords]
    cases q with
    | zero =>
      rw [Memory.read32_congr fun c _ _ => Memory.read_copyWords_outside _ (by omega)]
      simp
    | succ q =>
      rw [show dest + 4 * (q + 1) = dest + 4 + 4 * q by omega, ih _ _ _ _ (by omega) (by omega),
        show source + 4 * (q + 1) = source + 4 + 4 * q by omega]
      exact Memory.read32_write32_ne m _ (by omega)

theorem Memory.read_scramble_outside (m : Memory) (draw : Nat) {base c n : Nat} (h : c < base ∨ base + n ≤ c) :
    (m.scramble draw base n).read c = m.read c := by
  induction n with
  | zero => rfl
  | succ n ih => rw [Memory.scramble, Memory.read_write_ne _ _ (by omega), ih (by omega)]

/-- Every byte of a scrambled range is the free value of that draw. -/
theorem Memory.read_scramble (m : Memory) (draw base t n : Nat) (h : t < n) :
    (m.scramble draw base n).read (base + t) = Config.freeByte draw (base + t) := by
  induction n with
  | zero => omega
  | succ n ih =>
    rw [Memory.scramble]
    by_cases ht : t = n
    · subst ht; simp
    · rw [Memory.read_write_ne _ _ (by omega), ih (by omega)]

/-! ### The canonical form -/

theorem Memory.wf_iff (m : Memory) :
    m.wf = true ↔ (m.Pairwise fun x y => x.1 < y.1) ∧
      ∀ cell ∈ m, cell.2 ≠ Memory.unlisted ∧ cell.1 < Config.addressSpace := by
  simp [Memory.wf, List.all_eq_true]

theorem Memory.wf_nil : Memory.wf [] = true := by decide

theorem Memory.wf_erase {m : Memory} (h : m.wf = true) (addr : Nat) : (m.erase addr).wf = true := by
  rw [Memory.wf_iff] at h ⊢
  exact ⟨h.1.filter _, fun cell hc => h.2 cell (List.mem_of_mem_filter hc)⟩

theorem Memory.wf_clear {m : Memory} (h : m.wf = true) (base len : Nat) : (m.clear base len).wf = true := by
  rw [Memory.wf_iff] at h ⊢
  exact ⟨h.1.filter _, fun cell hc => h.2 cell (List.mem_of_mem_filter hc)⟩

theorem Memory.mem_insert (m : Memory) (addr : Nat) (v : Byte) (cell : Host.Cell) :
    cell ∈ m.insert addr v ↔ cell = (addr, v) ∨ cell ∈ m := by
  induction m with
  | nil => simp [Memory.insert]
  | cons head rest ih =>
    obtain ⟨d, x⟩ := head
    unfold Memory.insert
    split
    · simp
    · simp only [List.mem_cons, ih]; tauto

theorem Memory.pairwise_insert {m : Memory} (h : m.Pairwise fun x y => x.1 < y.1) (addr : Nat) (v : Byte)
    (hne : ∀ cell ∈ m, cell.1 ≠ addr) : (m.insert addr v).Pairwise fun x y => x.1 < y.1 := by
  induction m with
  | nil => simp [Memory.insert]
  | cons head rest ih =>
    obtain ⟨d, x⟩ := head
    rw [List.pairwise_cons] at h
    have hd : d ≠ addr := hne (d, x) (by simp)
    unfold Memory.insert
    split
    · rename_i hlt
      rw [List.pairwise_cons]
      refine ⟨fun y hy => ?_, List.pairwise_cons.2 h⟩
      rcases List.mem_cons.1 hy with rfl | hy
      · exact hlt
      · exact Nat.lt_trans hlt (h.1 y hy)
    · rename_i hge
      rw [List.pairwise_cons]
      refine ⟨fun y hy => ?_, ih h.2 fun cell hc => hne cell (by simp [hc])⟩
      rcases (Memory.mem_insert rest addr v y).1 hy with rfl | hy
      · simp only; omega
      · exact h.1 y hy

/-- A write inside the space keeps the canonical form. -/
theorem Memory.wf_write {m : Memory} (h : m.wf = true) {addr : Nat} (ha : addr < Config.addressSpace) (v : Byte) :
    (m.write addr v).wf = true := by
  unfold Memory.write
  split
  · exact Memory.wf_erase h addr
  · rename_i hv
    have he := (Memory.wf_iff _).1 (Memory.wf_erase h addr)
    rw [Memory.wf_iff]
    refine ⟨Memory.pairwise_insert he.1 addr v (m.erase_ne addr), fun cell hc => ?_⟩
    rcases (Memory.mem_insert _ addr v cell).1 hc with rfl | hc
    · exact ⟨hv, ha⟩
    · exact he.2 cell hc

theorem Memory.wf_writeBytes {m : Memory} (h : m.wf = true) {addr : Nat} (bs : List Byte)
    (ha : addr + bs.length ≤ Config.addressSpace) : (m.writeBytes addr bs).wf = true := by
  induction bs generalizing m addr with
  | nil => exact h
  | cons v rest ih =>
    simp only [List.length_cons] at ha
    exact ih (Memory.wf_write h (by omega) v) (by omega)

theorem Memory.wf_write32 {m : Memory} (h : m.wf = true) {addr : Nat} (w : Word)
    (ha : addr + 4 ≤ Config.addressSpace) : (m.write32 addr w).wf = true :=
  Memory.wf_writeBytes h (wordBytes w) (by simpa using ha)

theorem Memory.wf_writeWords {m : Memory} (h : m.wf = true) {addr : Nat} (ws : List Word)
    (ha : ws = [] ∨ addr + 4 * ws.length ≤ Config.addressSpace) : (m.writeWords addr ws).wf = true := by
  induction ws generalizing m addr with
  | nil => exact h
  | cons w rest ih =>
    simp only [List.length_cons, List.cons_ne_nil, false_or] at ha
    exact ih (Memory.wf_write32 h w (by omega)) (.inr (by omega))

theorem Memory.wf_fillWords {m : Memory} (h : m.wf = true) {dest n : Nat} (w : Word)
    (ha : n = 0 ∨ dest + 4 * n ≤ Config.addressSpace) : (m.fillWords dest w n).wf = true := by
  induction n generalizing m dest with
  | zero => exact h
  | succ n ih => exact ih (Memory.wf_write32 h w (by omega)) (by omega)

theorem Memory.wf_copyWords {m : Memory} (h : m.wf = true) {source dest n : Nat}
    (ha : n = 0 ∨ dest + 4 * n ≤ Config.addressSpace) : (m.copyWords source dest n).wf = true := by
  induction n generalizing m source dest with
  | zero => exact h
  | succ n ih => exact ih (Memory.wf_write32 h _ (by omega)) (by omega)

theorem Memory.wf_scramble {m : Memory} (h : m.wf = true) (draw : Nat) {base n : Nat}
    (ha : base + n ≤ Config.addressSpace) : (m.scramble draw base n).wf = true := by
  induction n with
  | zero => exact h
  | succ n ih => exact Memory.wf_write (ih (by omega)) (by omega) _

/-! ### Regions -/

theorem spanFits_iff (addr n : Nat) : spanFits addr n = true ↔ n = 0 ∨ addr + 4 * n ≤ Config.addressSpace := by
  simp [spanFits]

theorem Region.inSpace_iff (r : Region) : r.inSpace = true ↔ r.base + r.len ≤ Config.addressSpace := by
  simp [Region.inSpace]

/-- Regions that share no byte: one is empty or they lie apart. -/
theorem Region.overlaps_eq_false (r t : Region) :
    r.overlaps t = false ↔ r.len = 0 ∨ t.len = 0 ∨ t.base + t.len ≤ r.base ∨ r.base + r.len ≤ t.base := by
  simp only [Region.overlaps, decide_eq_false_iff_not]; omega

end Sys2Proof.Machine
end

