-- ==== Sys2Proof/Laws/Encoding.lean ====
section
/-! SUPPORT. The fields of the words the encoder builds, and the words rebuilt from their fields (30_encoding R100, R112). -/

namespace Sys2Proof

open Sys2Proof.Machine

/-! ### Fields of a built word -/

@[simp] theorem kindOf_controlWord (kind : BitVec 4) (line : BitVec 12) (count : BitVec 16) :
    kindOf (controlWord kind line count) = kind := by
  apply BitVec.eq_of_getLsbD_eq; intro n hn
  simp only [kindOf, controlWord, BitVec.getLsbD_extractLsb', BitVec.getLsbD_append]
  simp [hn, show ¬28 + n < 16 by omega, show ¬28 + n - 16 < 12 by omega, show 28 + n - 16 - 12 = n by omega]

@[simp] theorem lineOf_controlWord (kind : BitVec 4) (line : BitVec 12) (count : BitVec 16) :
    lineOf (controlWord kind line count) = line := by
  apply BitVec.eq_of_getLsbD_eq; intro n hn
  simp only [lineOf, controlWord, BitVec.getLsbD_extractLsb', BitVec.getLsbD_append]
  simp [hn]

@[simp] theorem countOf_controlWord (kind : BitVec 4) (line : BitVec 12) (count : BitVec 16) :
    countOf (controlWord kind line count) = count := by
  apply BitVec.eq_of_getLsbD_eq; intro n hn
  simp only [countOf, controlWord, BitVec.getLsbD_extractLsb', BitVec.getLsbD_append]
  simp [hn]

@[simp] theorem kindOf_bareWord (kind : BitVec 4) (low : BitVec 28) : kindOf (bareWord kind low) = kind := by
  apply BitVec.eq_of_getLsbD_eq; intro n hn
  simp only [kindOf, bareWord, BitVec.getLsbD_extractLsb', BitVec.getLsbD_append]
  simp [hn]

@[simp] theorem belowKind_bareWord (kind : BitVec 4) (low : BitVec 28) : belowKind (bareWord kind low) = low := by
  apply BitVec.eq_of_getLsbD_eq; intro n hn
  simp only [belowKind, bareWord, BitVec.getLsbD_extractLsb', BitVec.getLsbD_append]
  simp [hn]

@[simp] theorem startOf_commandWord (cmd : BitVec 3) (ignored : BitVec 28) :
    startOf (commandWord cmd ignored) = true := by
  simp only [startOf, commandWord, BitVec.getLsbD_append]; simp

@[simp] theorem cmdOf_commandWord (cmd : BitVec 3) (ignored : BitVec 28) : cmdOf (commandWord cmd ignored) = cmd := by
  apply BitVec.eq_of_getLsbD_eq; intro n hn
  simp only [cmdOf, commandWord, BitVec.getLsbD_extractLsb', BitVec.getLsbD_append]
  simp [hn]

@[simp] theorem ctrlIgnored_commandWord (cmd : BitVec 3) (ignored : BitVec 28) :
    ctrlIgnored (commandWord cmd ignored) = ignored := by
  apply BitVec.eq_of_getLsbD_eq; intro n hn
  simp only [ctrlIgnored, commandWord, BitVec.getLsbD_extractLsb', BitVec.getLsbD_append]
  simp [hn]

/-! ### A word from its fields -/

theorem controlWord_fields (w : Word) : controlWord (kindOf w) (lineOf w) (countOf w) = w := by
  apply BitVec.eq_of_getLsbD_eq; intro n hn
  simp only [kindOf, lineOf, countOf, controlWord, BitVec.getLsbD_extractLsb', BitVec.getLsbD_append]
  by_cases h0 : n < 16
  · simp [h0]
  · by_cases h1 : n - 16 < 12
    · simp [h0, h1, show 16 + (n - 16) = n by omega]
    · simp [h0, h1, show 28 + (n - 16 - 12) = n by omega]; omega

theorem bareWord_fields (w : Word) : bareWord (kindOf w) (belowKind w) = w := by
  apply BitVec.eq_of_getLsbD_eq; intro n hn
  simp only [kindOf, belowKind, bareWord, BitVec.getLsbD_extractLsb', BitVec.getLsbD_append]
  by_cases h0 : n < 28
  · simp [h0]
  · simp [h0, show 28 + (n - 28) = n by omega]; omega

theorem commandWord_fields (w : Word) (h : startOf w = true) : commandWord (cmdOf w) (ctrlIgnored w) = w := by
  apply BitVec.eq_of_getLsbD_eq; intro n hn
  simp only [cmdOf, ctrlIgnored, commandWord, BitVec.getLsbD_extractLsb', BitVec.getLsbD_append]
  by_cases h0 : n < 3
  · simp [h0]
  · by_cases h1 : n - 3 < 28
    · simp [h0, h1, show 3 + (n - 3) = n by omega]
    · have h31 : n = 31 := by omega
      subst h31; simpa [startOf] using h.symm

/-- The bytes of a word read back as the word. -/
theorem decode_wordBytes (lang : Lang) (w : Word) (rest : List Byte) :
    decode lang (wordBytes w ++ rest) =
      match lang with
      | .record => .ok (decodeRecord w, rest)
      | .command =>
        match decodeCommand w with
        | some i => .ok (i, rest)
        | none => .error .noCommand := by
  have h := wordOfBytes_wordByte w
  cases lang <;>
    simp only [wordBytes, List.cons_append, List.nil_append, decode, h] <;> rfl

/-! ### What each KIND and each CMD decodes to (30_encoding R101, R112) -/

variable {w : Word}

theorem decodeRecord_kind0 (h : kindOf w = 0x0) : decodeRecord w = .reservedKind0 (belowKind w) := by
  unfold decodeRecord; rw [h]; rfl

theorem decodeRecord_kind1 (h : kindOf w = 0x1) : decodeRecord w = .lit (lineOf w) (countOf w).toNat := by
  unfold decodeRecord; rw [h]; rfl

theorem decodeRecord_kind2 (h : kindOf w = 0x2) : decodeRecord w = .litWsl (lineOf w).toNat (countOf w).toNat := by
  unfold decodeRecord; rw [h]; rfl

theorem decodeRecord_kind3 (h : kindOf w = 0x3) : decodeRecord w = .run (lineOf w) (countOf w).toNat := by
  unfold decodeRecord; rw [h]; rfl

theorem decodeRecord_kind4 (h : kindOf w = 0x4) : decodeRecord w = .runWsl (lineOf w).toNat (countOf w).toNat := by
  unfold decodeRecord; rw [h]; rfl

theorem decodeRecord_kind5 (h : kindOf w = 0x5) : decodeRecord w = .reservedKind5 (belowKind w) := by
  unfold decodeRecord; rw [h]; rfl

theorem decodeRecord_kind6 (h : kindOf w = 0x6) : decodeRecord w = .reservedKind6 (belowKind w) := by
  unfold decodeRecord; rw [h]; rfl

theorem decodeRecord_kind7 (h : kindOf w = 0x7) : decodeRecord w = .reservedKind7 (belowKind w) := by
  unfold decodeRecord; rw [h]; rfl

theorem decodeRecord_kind8 (h : kindOf w = 0x8) : decodeRecord w = .reservedKind8 (belowKind w) := by
  unfold decodeRecord; rw [h]; rfl

theorem decodeRecord_kind9 (h : kindOf w = 0x9) : decodeRecord w = .reservedKind9 (belowKind w) := by
  unfold decodeRecord; rw [h]; rfl

theorem decodeRecord_kindA (h : kindOf w = 0xA) : decodeRecord w = .reservedKindA (belowKind w) := by
  unfold decodeRecord; rw [h]; rfl

theorem decodeRecord_kindB (h : kindOf w = 0xB) : decodeRecord w = .reservedKindB (belowKind w) := by
  unfold decodeRecord; rw [h]; rfl

theorem decodeRecord_kindC (h : kindOf w = 0xC) : decodeRecord w = .reservedKindC (belowKind w) := by
  unfold decodeRecord; rw [h]; rfl

theorem decodeRecord_kindD (h : kindOf w = 0xD) : decodeRecord w = .reservedKindD (belowKind w) := by
  unfold decodeRecord; rw [h]; rfl

theorem decodeRecord_kindE (h : kindOf w = 0xE) : decodeRecord w = .reservedKindE (belowKind w) := by
  unfold decodeRecord; rw [h]; rfl

theorem decodeRecord_kindF (h : kindOf w = 0xF) : decodeRecord w = .eos (belowKind w) := by
  unfold decodeRecord; rw [h]; rfl

theorem decodeCommand_cmd0 (hs : startOf w = true) (h : cmdOf w = 0) :
    decodeCommand w = some (.reservedCmd0 (ctrlIgnored w)) := by
  unfold decodeCommand; rw [if_pos hs, h]; rfl

theorem decodeCommand_cmd1 (hs : startOf w = true) (h : cmdOf w = 1) :
    decodeCommand w = some (.hdrInit (ctrlIgnored w)) := by
  unfold decodeCommand; rw [if_pos hs, h]; rfl

theorem decodeCommand_cmd2 (hs : startOf w = true) (h : cmdOf w = 2) :
    decodeCommand w = some (.encode (ctrlIgnored w)) := by
  unfold decodeCommand; rw [if_pos hs, h]; rfl

theorem decodeCommand_cmd3 (hs : startOf w = true) (h : cmdOf w = 3) :
    decodeCommand w = some (.encodePartial (ctrlIgnored w)) := by
  unfold decodeCommand; rw [if_pos hs, h]; rfl

theorem decodeCommand_cmd4 (hs : startOf w = true) (h : cmdOf w = 4) :
    decodeCommand w = some (.decode (ctrlIgnored w)) := by
  unfold decodeCommand; rw [if_pos hs, h]; rfl

theorem decodeCommand_cmd5 (hs : startOf w = true) (h : cmdOf w = 5) :
    decodeCommand w = some (.reservedCmd5 (ctrlIgnored w)) := by
  unfold decodeCommand; rw [if_pos hs, h]; rfl

theorem decodeCommand_cmd6 (hs : startOf w = true) (h : cmdOf w = 6) :
    decodeCommand w = some (.reservedCmd6 (ctrlIgnored w)) := by
  unfold decodeCommand; rw [if_pos hs, h]; rfl

theorem decodeCommand_cmd7 (hs : startOf w = true) (h : cmdOf w = 7) :
    decodeCommand w = some (.reservedCmd7 (ctrlIgnored w)) := by
  unfold decodeCommand; rw [if_pos hs, h]; rfl

theorem decodeCommand_noStart (hs : startOf w = false) : decodeCommand w = none := by
  unfold decodeCommand; rw [hs]; rfl

/-- The sixteen kinds. -/
theorem kind_cases (k : BitVec 4) : k = 0x0 ∨ k = 0x1 ∨ k = 0x2 ∨ k = 0x3 ∨ k = 0x4 ∨ k = 0x5 ∨ k = 0x6 ∨ k = 0x7 ∨
    k = 0x8 ∨ k = 0x9 ∨ k = 0xA ∨ k = 0xB ∨ k = 0xC ∨ k = 0xD ∨ k = 0xE ∨ k = 0xF := by
  revert k; decide

/-- The eight commands. -/
theorem cmd_cases (c : BitVec 3) : c = 0 ∨ c = 1 ∨ c = 2 ∨ c = 3 ∨ c = 4 ∨ c = 5 ∨ c = 6 ∨ c = 7 := by
  revert c; decide

/-- Every control word is a record (30_encoding R108). -/
theorem decodeRecord_lang (w : Word) : (decodeRecord w).lang = .record := by
  unfold decodeRecord; split <;> rfl

/-- Every decoded command word is a command. -/
theorem decodeCommand_lang {i : Instr} (h : decodeCommand w = some i) : i.lang = .command := by
  unfold decodeCommand at h
  split at h
  · split at h <;> (cases h; rfl)
  · cases h

end Sys2Proof
end

