-- ==== Sys2Proof/Laws/Scan.lean ====
section
/-! SUPPORT. The laws of the encoder's scan: the bounds of RunLength, what the scan reads, that its length does not depend on the
start line, and its unfolding by one pass (41_encoder R142 to R146, R153, R158). -/

namespace Sys2Proof.Machine

variable {pix pix' : Nat → Word} {fl : BitVec 12} {a b i k e : Nat} {first : Bool}

/-! ### RunLength (41_encoder R143) -/

theorem le_extendRun (pix : Nat → Word) (i b fuel j : Nat) : j ≤ extendRun pix i b fuel j := by
  induction fuel generalizing j with
  | zero => exact le_rfl
  | succ fuel ih =>
    unfold extendRun
    split
    · exact Nat.le_of_succ_le (ih (j + 1))
    · exact le_rfl

theorem extendRun_le (pix : Nat → Word) {i b fuel j : Nat} (hb : j ≤ b) (hm : j - i ≤ Config.maxCount) :
    extendRun pix i b fuel j ≤ b ∧ extendRun pix i b fuel j - i ≤ Config.maxCount := by
  induction fuel generalizing j with
  | zero => exact ⟨hb, hm⟩
  | succ fuel ih =>
    unfold extendRun
    split
    · rename_i h; exact ih (by omega) (by omega)
    · exact ⟨hb, hm⟩

/-- The run includes its first pixel, ends at b at the latest and fits a record (41_encoder R143). -/
theorem runLength_bounds (pix : Nat → Word) (h : i < b) :
    1 ≤ runLength pix i b ∧ runLength pix i b ≤ b - i ∧ runLength pix i b ≤ Config.maxCount := by
  have h1 := le_extendRun pix i b (min Config.maxCount (b - i)) (i + 1)
  have h2 := extendRun_le pix (i := i) (b := b) (fuel := min Config.maxCount (b - i)) (j := i + 1) (by omega)
    (by simp [Config.maxCount])
  unfold runLength
  omega

theorem extendRun_congr (fuel j : Nat) (h : ∀ p, i ≤ p → p < b → pix' p = pix p) (hi : i < b) (hj : i ≤ j) :
    extendRun pix' i b fuel j = extendRun pix i b fuel j := by
  induction fuel generalizing j with
  | zero => rfl
  | succ fuel ih =>
    unfold extendRun
    by_cases hb : j < b
    · rw [h j hj hb, h i le_rfl hi, ih (j + 1) (by omega)]
    · simp [hb]

/-- RunLength reads only pixels of [i, b) (41_encoder R158). -/
theorem runLength_congr (h : ∀ p, i ≤ p → p < b → pix' p = pix p) (hi : i < b) :
    runLength pix' i b = runLength pix i b := by
  unfold runLength; rw [extendRun_congr _ _ h hi (by omega)]

/-! ### One pass (41_encoder R142) -/

theorem passNext_bounds (pix : Nat → Word) (h : i < b) : i < passNext pix b i ∧ passNext pix b i ≤ b := by
  have := runLength_bounds pix h
  unfold passNext; split <;> omega

theorem passPending_bounds (pix : Nat → Word) (h : i < b) (hk : k ≤ i) :
    k ≤ passPending pix b i k ∧ passPending pix b i k ≤ passNext pix b i := by
  have := runLength_bounds pix h
  unfold passPending passNext; split <;> omega

theorem isRun_congr (h : ∀ p, i ≤ p → p < b → pix' p = pix p) (hi : i < b) : isRun pix' i b = isRun pix i b := by
  unfold isRun; rw [runLength_congr h hi]

/-! ### What the scan reads (41_encoder R158) -/

theorem pixelsFrom_congr {s n : Nat} (h : ∀ p, s ≤ p → p < s + n → pix' p = pix p) :
    pixelsFrom pix' s n = pixelsFrom pix s n := by
  refine List.map_congr_left fun t ht => h _ (by omega) ?_
  have := List.mem_range.1 ht; omega

theorem flushLiteral_congr (fuel s : Nat) (first : Bool) (h : ∀ p, s ≤ p → p < e → pix' p = pix p) :
    flushLiteral pix' fl e fuel first s = flushLiteral pix fl e fuel first s := by
  induction fuel generalizing s first with
  | zero => rfl
  | succ fuel ih =>
    unfold flushLiteral
    split
    · rw [pixelsFrom_congr fun p hp hp' => h p hp (by omega), ih _ _ fun p hp hp' => h p (by omega) hp']
    · rfl

theorem literalWords_congr (h : ∀ p, k ≤ p → p < e → pix' p = pix p) :
    literalWords pix' fl first k e = literalWords pix fl first k e := flushLiteral_congr _ _ _ h

theorem passWords_congr (h : ∀ p, k ≤ p → p < b → pix' p = pix p) (hi : i < b) (hk : k ≤ i) :
    passWords pix' fl b i k first = passWords pix fl b i k first := by
  have hr := fun p (hp : i ≤ p) hb => h p (by omega) hb
  unfold passWords
  rw [isRun_congr hr hi, runLength_congr hr hi, h i hk hi, literalWords_congr fun p hp he => h p hp (by omega)]

/-- The words still to come read only pixels of [k, b) (41_encoder R158). -/
theorem scanWords_congr (fuel : Nat) (h : ∀ p, k ≤ p → p < b → pix' p = pix p) (hk : k ≤ i) :
    scanWords pix' fl b fuel i k first = scanWords pix fl b fuel i k first := by
  induction fuel generalizing i k first with
  | zero => simp only [scanWords, tailWords, literalWords_congr h]
  | succ fuel ih =>
    unfold scanWords
    split
    · rename_i hi
      have hr := fun p (hp : i ≤ p) hb => h p (by omega) hb
      have hpend := passPending_bounds pix hi hk
      rw [passWords_congr h hi hk]
      unfold passNext passPending passFirst at *
      rw [isRun_congr hr hi, runLength_congr hr hi]
      rw [ih (fun p hp hb => h p (by omega) hb) hpend.2]
    · simp only [tailWords, literalWords_congr h]

/-- The stream of a range is a function of its pixels (41_encoder R154). -/
theorem encodeWords_congr {part : Bool} (h : ∀ p, a ≤ p → p < b → pix' p = pix p) :
    encodeWords pix' fl a b part = encodeWords pix fl a b part := scanWords_congr _ h le_rfl

/-! ### Lengths do not depend on the start line (41_encoder R151) -/

theorem flushLiteral_length (fl' : BitVec 12) (fuel s : Nat) (first first' : Bool) :
    (flushLiteral pix fl e fuel first s).length = (flushLiteral pix fl' e fuel first' s).length := by
  induction fuel generalizing s first first' with
  | zero => rfl
  | succ fuel ih =>
    unfold flushLiteral
    split
    · simp [ih _ false false]
    · rfl

theorem passWords_length (fl' : BitVec 12) (first' : Bool) :
    (passWords pix fl b i k first).length = (passWords pix fl' b i k first').length := by
  unfold passWords
  split
  · simp [literalWords, flushLiteral_length fl' _ _ first first']
  · rfl

theorem scanWords_length (fl' : BitVec 12) (fuel : Nat) (first' : Bool) :
    (scanWords pix fl b fuel i k first).length = (scanWords pix fl' b fuel i k first').length := by
  induction fuel generalizing i k first first' with
  | zero => simp [scanWords, tailWords, literalWords, flushLiteral_length fl' _ _ first first']
  | succ fuel ih =>
    unfold scanWords
    split
    · simp [passWords_length fl' first', ih (passFirst pix b i first')]
    · simp [tailWords, literalWords, flushLiteral_length fl' _ _ first first']

/-- EncLen is the length of every encode of the range (41_encoder R151). -/
theorem encodeWords_length (fl : BitVec 12) (part : Bool) :
    4 * (encodeWords pix fl a b part).length = encLen pix a b := by
  unfold encLen encodeWords; rw [scanWords_length 0 _ false]

/-! ### Unfolding by one pass (41_encoder R142) -/

theorem scanWords_fuel (fuel : Nat) (h : b - i ≤ fuel) :
    scanWords pix fl b fuel i k first = scanWords pix fl b (b - i) i k first := by
  induction fuel using Nat.strong_induction_on generalizing i k first with
  | _ fuel ih =>
    match fuel, h with
    | 0, h => rw [show b - i = 0 by omega]
    | fuel + 1, h =>
      by_cases hi : i < b
      · have hn := passNext_bounds pix hi
        obtain ⟨n, hn'⟩ : ∃ n, b - i = n + 1 := ⟨b - i - 1, by omega⟩
        rw [hn']
        simp only [scanWords, hi, if_true]
        rw [ih fuel (by omega) (by omega)]
        by_cases hlt : n < fuel + 1
        · rw [ih n hlt (by omega)]
        · omega
      · rw [show b - i = 0 by omega]
        simp [scanWords, hi]

/-- Inside the range a pass emits its words and the scan goes on behind it (41_encoder R142). -/
theorem scanWords_pass (hi : i < b) :
    scanWords pix fl b (b - i) i k first =
      passWords pix fl b i k first ++
        scanWords pix fl b (b - passNext pix b i) (passNext pix b i) (passPending pix b i k)
          (passFirst pix b i first) := by
  have hn := passNext_bounds pix hi
  obtain ⟨n, hn'⟩ : ∃ n, b - i = n + 1 := ⟨b - i - 1, by omega⟩
  rw [hn']
  simp only [scanWords, hi, if_true]
  rw [scanWords_fuel n (by omega)]

/-- At the end of the range the trailing literal and EOS remain (41_encoder R142, R147, R156). -/
theorem scanWords_tail (hi : ¬i < b) : scanWords pix fl b (b - i) i k first = tailWords pix fl b k first := by
  rw [show b - i = 0 by omega]; rfl

end Sys2Proof.Machine
end

