-- ==== Sys2Proof/Laws/State.lean ====
section
/-! SUPPORT. One lemma for each field of State and each named update of it, and for each quantity derived from the fields an update
leaves alone: later proofs rewrite with these and never unfold an update. -/

namespace Sys2Proof.Machine

/-! ### complete (60_exceptions R224) -/

@[simp] theorem State.complete_phase (s : State) (code : ResultCode) : (s.complete code).phase = .idle := rfl
@[simp] theorem State.complete_done (s : State) (code : ResultCode) : (s.complete code).done = true := rfl
@[simp] theorem State.complete_cmdErr (s : State) (code : ResultCode) : (s.complete code).cmdErr = s.cmdErr := rfl
@[simp] theorem State.complete_doneIe (s : State) (code : ResultCode) : (s.complete code).doneIe = s.doneIe := rfl
@[simp] theorem State.complete_result (s : State) (code : ResultCode) : (s.complete code).result = code := rfl
@[simp] theorem State.complete_magic (s : State) (code : ResultCode) : (s.complete code).magic = s.magic := rfl
@[simp] theorem State.complete_version (s : State) (code : ResultCode) : (s.complete code).version = s.version := rfl
@[simp] theorem State.complete_subVersion (s : State) (code : ResultCode) : (s.complete code).subVersion = s.subVersion := rfl
@[simp] theorem State.complete_width (s : State) (code : ResultCode) : (s.complete code).width = s.width := rfl
@[simp] theorem State.complete_height (s : State) (code : ResultCode) : (s.complete code).height = s.height := rfl
@[simp] theorem State.complete_id (s : State) (code : ResultCode) : (s.complete code).id = s.id := rfl
@[simp] theorem State.complete_uncompressed (s : State) (code : ResultCode) : (s.complete code).uncompressed = s.uncompressed := rfl
@[simp] theorem State.complete_payloadSize (s : State) (code : ResultCode) : (s.complete code).payloadSize = s.payloadSize := rfl
@[simp] theorem State.complete_srcBaseHi (s : State) (code : ResultCode) : (s.complete code).srcBaseHi = s.srcBaseHi := rfl
@[simp] theorem State.complete_dstBaseHi (s : State) (code : ResultCode) : (s.complete code).dstBaseHi = s.dstBaseHi := rfl
@[simp] theorem State.complete_dstCap (s : State) (code : ResultCode) : (s.complete code).dstCap = s.dstCap := rfl
@[simp] theorem State.complete_partFirstLine (s : State) (code : ResultCode) : (s.complete code).partFirstLine = s.partFirstLine := rfl
@[simp] theorem State.complete_partLineCount (s : State) (code : ResultCode) : (s.complete code).partLineCount = s.partLineCount := rfl
@[simp] theorem State.complete_reserved (s : State) (code : ResultCode) : (s.complete code).reserved = s.reserved := rfl
@[simp] theorem State.complete_i (s : State) (code : ResultCode) : (s.complete code).i = s.i := rfl
@[simp] theorem State.complete_j (s : State) (code : ResultCode) : (s.complete code).j = s.j := rfl
@[simp] theorem State.complete_k (s : State) (code : ResultCode) : (s.complete code).k = s.k := rfl
@[simp] theorem State.complete_out (s : State) (code : ResultCode) : (s.complete code).out = s.out := rfl
@[simp] theorem State.complete_first (s : State) (code : ResultCode) : (s.complete code).first = s.first := rfl
@[simp] theorem State.complete_a (s : State) (code : ResultCode) : (s.complete code).a = s.a := rfl
@[simp] theorem State.complete_b (s : State) (code : ResultCode) : (s.complete code).b = s.b := rfl
@[simp] theorem State.complete_src (s : State) (code : ResultCode) : (s.complete code).src = s.src := rfl
@[simp] theorem State.complete_dst (s : State) (code : ResultCode) : (s.complete code).dst = s.dst := rfl
@[simp] theorem State.complete_cw (s : State) (code : ResultCode) : (s.complete code).cw = s.cw := rfl
@[simp] theorem State.complete_count (s : State) (code : ResultCode) : (s.complete code).count = s.count := rfl
@[simp] theorem State.complete_line (s : State) (code : ResultCode) : (s.complete code).line = s.line := rfl
@[simp] theorem State.complete_mem (s : State) (code : ResultCode) : (s.complete code).mem = s.mem := rfl
@[simp] theorem State.complete_devices (s : State) (code : ResultCode) : (s.complete code).devices = s.devices := rfl
@[simp] theorem State.complete_instances (s : State) (code : ResultCode) : (s.complete code).instances = s.instances := rfl
@[simp] theorem State.complete_others (s : State) (code : ResultCode) : (s.complete code).others = s.others := rfl
@[simp] theorem State.complete_unseen (s : State) (code : ResultCode) : (s.complete code).unseen = s.activeClaim :: s.unseen := rfl
@[simp] theorem State.complete_inputs (s : State) (code : ResultCode) : (s.complete code).inputs = s.inputs := rfl
@[simp] theorem State.complete_reply (s : State) (code : ResultCode) : (s.complete code).reply = s.reply := rfl
@[simp] theorem State.complete_draws (s : State) (code : ResultCode) : (s.complete code).draws = s.draws := rfl
@[simp] theorem State.complete_pixelCount (s : State) (code : ResultCode) : (s.complete code).pixelCount = s.pixelCount := rfl
@[simp] theorem State.complete_payload (s : State) (code : ResultCode) : (s.complete code).payload = s.payload := rfl
@[simp] theorem State.complete_frameBytes (s : State) (code : ResultCode) : (s.complete code).frameBytes = s.frameBytes := rfl
@[simp] theorem State.complete_lineStart (s : State) (code : ResultCode) : (s.complete code).lineStart = s.lineStart := rfl
@[simp] theorem State.complete_srcBase (s : State) (code : ResultCode) : (s.complete code).srcBase = s.srcBase := rfl
@[simp] theorem State.complete_dstBase (s : State) (code : ResultCode) : (s.complete code).dstBase = s.dstBase := rfl
@[simp] theorem State.complete_srcAddr (s : State) (code : ResultCode) : (s.complete code).srcAddr = s.srcAddr := rfl
@[simp] theorem State.complete_dstAddr (s : State) (code : ResultCode) : (s.complete code).dstAddr = s.dstAddr := rfl
@[simp] theorem State.complete_pix (s : State) (code : ResultCode) : (s.complete code).pix = s.pix := rfl
@[simp] theorem State.complete_srcWord (s : State) (code : ResultCode) : (s.complete code).srcWord = s.srcWord := rfl
@[simp] theorem State.complete_dstPix (s : State) (code : ResultCode) : (s.complete code).dstPix = s.dstPix := rfl
@[simp] theorem State.complete_firstLine (s : State) (code : ResultCode) : (s.complete code).firstLine = s.firstLine := rfl
@[simp] theorem State.complete_lineCount (s : State) (code : ResultCode) : (s.complete code).lineCount = s.lineCount := rfl
@[simp] theorem State.complete_bandStart (s : State) (code : ResultCode) : (s.complete code).bandStart = s.bandStart := rfl
@[simp] theorem State.complete_bandEnd (s : State) (code : ResultCode) : (s.complete code).bandEnd = s.bandEnd := rfl
@[simp] theorem State.complete_frameSource (s : State) (code : ResultCode) : (s.complete code).frameSource = s.frameSource := rfl
@[simp] theorem State.complete_streamDest (s : State) (code : ResultCode) : (s.complete code).streamDest = s.streamDest := rfl
@[simp] theorem State.complete_streamSource (s : State) (code : ResultCode) : (s.complete code).streamSource = s.streamSource := rfl
@[simp] theorem State.complete_frameDest (s : State) (code : ResultCode) : (s.complete code).frameDest = s.frameDest := rfl
@[simp] theorem State.complete_sourceOf (s : State) (code : ResultCode) : (s.complete code).sourceOf = s.sourceOf := rfl
@[simp] theorem State.complete_destOf (s : State) (code : ResultCode) : (s.complete code).destOf = s.destOf := rfl
@[simp] theorem State.complete_pixelSource (s : State) (code : ResultCode) : (s.complete code).pixelSource = s.pixelSource := rfl

/-! ### issue (30_encoding R110) -/

@[simp] theorem State.issue_phase (s : State) (op : Op) : (s.issue op).phase = .busy op := rfl
@[simp] theorem State.issue_done (s : State) (op : Op) : (s.issue op).done = false := rfl
@[simp] theorem State.issue_cmdErr (s : State) (op : Op) : (s.issue op).cmdErr = s.cmdErr := rfl
@[simp] theorem State.issue_doneIe (s : State) (op : Op) : (s.issue op).doneIe = s.doneIe := rfl
@[simp] theorem State.issue_result (s : State) (op : Op) : (s.issue op).result = s.result := rfl
@[simp] theorem State.issue_magic (s : State) (op : Op) : (s.issue op).magic = s.magic := rfl
@[simp] theorem State.issue_version (s : State) (op : Op) : (s.issue op).version = s.version := rfl
@[simp] theorem State.issue_subVersion (s : State) (op : Op) : (s.issue op).subVersion = s.subVersion := rfl
@[simp] theorem State.issue_width (s : State) (op : Op) : (s.issue op).width = s.width := rfl
@[simp] theorem State.issue_height (s : State) (op : Op) : (s.issue op).height = s.height := rfl
@[simp] theorem State.issue_id (s : State) (op : Op) : (s.issue op).id = s.id := rfl
@[simp] theorem State.issue_uncompressed (s : State) (op : Op) : (s.issue op).uncompressed = s.uncompressed := rfl
@[simp] theorem State.issue_payloadSize (s : State) (op : Op) : (s.issue op).payloadSize = s.payloadSize := rfl
@[simp] theorem State.issue_srcBaseHi (s : State) (op : Op) : (s.issue op).srcBaseHi = s.srcBaseHi := rfl
@[simp] theorem State.issue_dstBaseHi (s : State) (op : Op) : (s.issue op).dstBaseHi = s.dstBaseHi := rfl
@[simp] theorem State.issue_dstCap (s : State) (op : Op) : (s.issue op).dstCap = s.dstCap := rfl
@[simp] theorem State.issue_partFirstLine (s : State) (op : Op) : (s.issue op).partFirstLine = s.partFirstLine := rfl
@[simp] theorem State.issue_partLineCount (s : State) (op : Op) : (s.issue op).partLineCount = s.partLineCount := rfl
@[simp] theorem State.issue_reserved (s : State) (op : Op) : (s.issue op).reserved = s.reserved := rfl
@[simp] theorem State.issue_i (s : State) (op : Op) : (s.issue op).i = s.i := rfl
@[simp] theorem State.issue_j (s : State) (op : Op) : (s.issue op).j = s.j := rfl
@[simp] theorem State.issue_k (s : State) (op : Op) : (s.issue op).k = s.k := rfl
@[simp] theorem State.issue_out (s : State) (op : Op) : (s.issue op).out = s.out := rfl
@[simp] theorem State.issue_first (s : State) (op : Op) : (s.issue op).first = s.first := rfl
@[simp] theorem State.issue_a (s : State) (op : Op) : (s.issue op).a = s.a := rfl
@[simp] theorem State.issue_b (s : State) (op : Op) : (s.issue op).b = s.b := rfl
@[simp] theorem State.issue_src (s : State) (op : Op) : (s.issue op).src = s.src := rfl
@[simp] theorem State.issue_dst (s : State) (op : Op) : (s.issue op).dst = s.dst := rfl
@[simp] theorem State.issue_cw (s : State) (op : Op) : (s.issue op).cw = s.cw := rfl
@[simp] theorem State.issue_count (s : State) (op : Op) : (s.issue op).count = s.count := rfl
@[simp] theorem State.issue_line (s : State) (op : Op) : (s.issue op).line = s.line := rfl
@[simp] theorem State.issue_mem (s : State) (op : Op) : (s.issue op).mem = s.mem := rfl
@[simp] theorem State.issue_devices (s : State) (op : Op) : (s.issue op).devices = s.devices := rfl
@[simp] theorem State.issue_instances (s : State) (op : Op) : (s.issue op).instances = s.instances := rfl
@[simp] theorem State.issue_others (s : State) (op : Op) : (s.issue op).others = s.others := rfl
@[simp] theorem State.issue_unseen (s : State) (op : Op) : (s.issue op).unseen = s.unseen := rfl
@[simp] theorem State.issue_inputs (s : State) (op : Op) : (s.issue op).inputs = s.inputs := rfl
@[simp] theorem State.issue_reply (s : State) (op : Op) : (s.issue op).reply = s.reply := rfl
@[simp] theorem State.issue_draws (s : State) (op : Op) : (s.issue op).draws = s.draws := rfl
@[simp] theorem State.issue_pixelCount (s : State) (op : Op) : (s.issue op).pixelCount = s.pixelCount := rfl
@[simp] theorem State.issue_payload (s : State) (op : Op) : (s.issue op).payload = s.payload := rfl
@[simp] theorem State.issue_frameBytes (s : State) (op : Op) : (s.issue op).frameBytes = s.frameBytes := rfl
@[simp] theorem State.issue_lineStart (s : State) (op : Op) : (s.issue op).lineStart = s.lineStart := rfl
@[simp] theorem State.issue_srcBase (s : State) (op : Op) : (s.issue op).srcBase = s.srcBase := rfl
@[simp] theorem State.issue_dstBase (s : State) (op : Op) : (s.issue op).dstBase = s.dstBase := rfl
@[simp] theorem State.issue_srcAddr (s : State) (op : Op) : (s.issue op).srcAddr = s.srcAddr := rfl
@[simp] theorem State.issue_dstAddr (s : State) (op : Op) : (s.issue op).dstAddr = s.dstAddr := rfl
@[simp] theorem State.issue_pix (s : State) (op : Op) : (s.issue op).pix = s.pix := rfl
@[simp] theorem State.issue_srcWord (s : State) (op : Op) : (s.issue op).srcWord = s.srcWord := rfl
@[simp] theorem State.issue_dstPix (s : State) (op : Op) : (s.issue op).dstPix = s.dstPix := rfl
@[simp] theorem State.issue_firstLine (s : State) (op : Op) : (s.issue op).firstLine = s.firstLine := rfl
@[simp] theorem State.issue_lineCount (s : State) (op : Op) : (s.issue op).lineCount = s.lineCount := rfl
@[simp] theorem State.issue_bandStart (s : State) (op : Op) : (s.issue op).bandStart = s.bandStart := rfl
@[simp] theorem State.issue_bandEnd (s : State) (op : Op) : (s.issue op).bandEnd = s.bandEnd := rfl
@[simp] theorem State.issue_frameSource (s : State) (op : Op) : (s.issue op).frameSource = s.frameSource := rfl
@[simp] theorem State.issue_streamDest (s : State) (op : Op) : (s.issue op).streamDest = s.streamDest := rfl
@[simp] theorem State.issue_streamSource (s : State) (op : Op) : (s.issue op).streamSource = s.streamSource := rfl
@[simp] theorem State.issue_frameDest (s : State) (op : Op) : (s.issue op).frameDest = s.frameDest := rfl
@[simp] theorem State.issue_sourceOf (s : State) (op : Op) : (s.issue op).sourceOf = s.sourceOf := rfl
@[simp] theorem State.issue_destOf (s : State) (op : Op) : (s.issue op).destOf = s.destOf := rfl
@[simp] theorem State.issue_pixelSource (s : State) (op : Op) : (s.issue op).pixelSource = s.pixelSource := rfl

/-! ### rejectCommand (30_encoding R111) -/

@[simp] theorem State.rejectCommand_phase (s : State) : (s.rejectCommand).phase = s.phase := rfl
@[simp] theorem State.rejectCommand_done (s : State) : (s.rejectCommand).done = s.done := rfl
@[simp] theorem State.rejectCommand_cmdErr (s : State) : (s.rejectCommand).cmdErr = true := rfl
@[simp] theorem State.rejectCommand_doneIe (s : State) : (s.rejectCommand).doneIe = s.doneIe := rfl
@[simp] theorem State.rejectCommand_result (s : State) : (s.rejectCommand).result = s.result := rfl
@[simp] theorem State.rejectCommand_magic (s : State) : (s.rejectCommand).magic = s.magic := rfl
@[simp] theorem State.rejectCommand_version (s : State) : (s.rejectCommand).version = s.version := rfl
@[simp] theorem State.rejectCommand_subVersion (s : State) : (s.rejectCommand).subVersion = s.subVersion := rfl
@[simp] theorem State.rejectCommand_width (s : State) : (s.rejectCommand).width = s.width := rfl
@[simp] theorem State.rejectCommand_height (s : State) : (s.rejectCommand).height = s.height := rfl
@[simp] theorem State.rejectCommand_id (s : State) : (s.rejectCommand).id = s.id := rfl
@[simp] theorem State.rejectCommand_uncompressed (s : State) : (s.rejectCommand).uncompressed = s.uncompressed := rfl
@[simp] theorem State.rejectCommand_payloadSize (s : State) : (s.rejectCommand).payloadSize = s.payloadSize := rfl
@[simp] theorem State.rejectCommand_srcBaseHi (s : State) : (s.rejectCommand).srcBaseHi = s.srcBaseHi := rfl
@[simp] theorem State.rejectCommand_dstBaseHi (s : State) : (s.rejectCommand).dstBaseHi = s.dstBaseHi := rfl
@[simp] theorem State.rejectCommand_dstCap (s : State) : (s.rejectCommand).dstCap = s.dstCap := rfl
@[simp] theorem State.rejectCommand_partFirstLine (s : State) : (s.rejectCommand).partFirstLine = s.partFirstLine := rfl
@[simp] theorem State.rejectCommand_partLineCount (s : State) : (s.rejectCommand).partLineCount = s.partLineCount := rfl
@[simp] theorem State.rejectCommand_reserved (s : State) : (s.rejectCommand).reserved = s.reserved := rfl
@[simp] theorem State.rejectCommand_i (s : State) : (s.rejectCommand).i = s.i := rfl
@[simp] theorem State.rejectCommand_j (s : State) : (s.rejectCommand).j = s.j := rfl
@[simp] theorem State.rejectCommand_k (s : State) : (s.rejectCommand).k = s.k := rfl
@[simp] theorem State.rejectCommand_out (s : State) : (s.rejectCommand).out = s.out := rfl
@[simp] theorem State.rejectCommand_first (s : State) : (s.rejectCommand).first = s.first := rfl
@[simp] theorem State.rejectCommand_a (s : State) : (s.rejectCommand).a = s.a := rfl
@[simp] theorem State.rejectCommand_b (s : State) : (s.rejectCommand).b = s.b := rfl
@[simp] theorem State.rejectCommand_src (s : State) : (s.rejectCommand).src = s.src := rfl
@[simp] theorem State.rejectCommand_dst (s : State) : (s.rejectCommand).dst = s.dst := rfl
@[simp] theorem State.rejectCommand_cw (s : State) : (s.rejectCommand).cw = s.cw := rfl
@[simp] theorem State.rejectCommand_count (s : State) : (s.rejectCommand).count = s.count := rfl
@[simp] theorem State.rejectCommand_line (s : State) : (s.rejectCommand).line = s.line := rfl
@[simp] theorem State.rejectCommand_mem (s : State) : (s.rejectCommand).mem = s.mem := rfl
@[simp] theorem State.rejectCommand_devices (s : State) : (s.rejectCommand).devices = s.devices := rfl
@[simp] theorem State.rejectCommand_instances (s : State) : (s.rejectCommand).instances = s.instances := rfl
@[simp] theorem State.rejectCommand_others (s : State) : (s.rejectCommand).others = s.others := rfl
@[simp] theorem State.rejectCommand_unseen (s : State) : (s.rejectCommand).unseen = s.unseen := rfl
@[simp] theorem State.rejectCommand_inputs (s : State) : (s.rejectCommand).inputs = s.inputs := rfl
@[simp] theorem State.rejectCommand_reply (s : State) : (s.rejectCommand).reply = s.reply := rfl
@[simp] theorem State.rejectCommand_draws (s : State) : (s.rejectCommand).draws = s.draws := rfl
@[simp] theorem State.rejectCommand_pixelCount (s : State) : (s.rejectCommand).pixelCount = s.pixelCount := rfl
@[simp] theorem State.rejectCommand_payload (s : State) : (s.rejectCommand).payload = s.payload := rfl
@[simp] theorem State.rejectCommand_frameBytes (s : State) : (s.rejectCommand).frameBytes = s.frameBytes := rfl
@[simp] theorem State.rejectCommand_lineStart (s : State) : (s.rejectCommand).lineStart = s.lineStart := rfl
@[simp] theorem State.rejectCommand_srcBase (s : State) : (s.rejectCommand).srcBase = s.srcBase := rfl
@[simp] theorem State.rejectCommand_dstBase (s : State) : (s.rejectCommand).dstBase = s.dstBase := rfl
@[simp] theorem State.rejectCommand_srcAddr (s : State) : (s.rejectCommand).srcAddr = s.srcAddr := rfl
@[simp] theorem State.rejectCommand_dstAddr (s : State) : (s.rejectCommand).dstAddr = s.dstAddr := rfl
@[simp] theorem State.rejectCommand_pix (s : State) : (s.rejectCommand).pix = s.pix := rfl
@[simp] theorem State.rejectCommand_srcWord (s : State) : (s.rejectCommand).srcWord = s.srcWord := rfl
@[simp] theorem State.rejectCommand_dstPix (s : State) : (s.rejectCommand).dstPix = s.dstPix := rfl
@[simp] theorem State.rejectCommand_firstLine (s : State) : (s.rejectCommand).firstLine = s.firstLine := rfl
@[simp] theorem State.rejectCommand_lineCount (s : State) : (s.rejectCommand).lineCount = s.lineCount := rfl
@[simp] theorem State.rejectCommand_bandStart (s : State) : (s.rejectCommand).bandStart = s.bandStart := rfl
@[simp] theorem State.rejectCommand_bandEnd (s : State) : (s.rejectCommand).bandEnd = s.bandEnd := rfl
@[simp] theorem State.rejectCommand_frameSource (s : State) : (s.rejectCommand).frameSource = s.frameSource := rfl
@[simp] theorem State.rejectCommand_streamDest (s : State) : (s.rejectCommand).streamDest = s.streamDest := rfl
@[simp] theorem State.rejectCommand_streamSource (s : State) : (s.rejectCommand).streamSource = s.streamSource := rfl
@[simp] theorem State.rejectCommand_frameDest (s : State) : (s.rejectCommand).frameDest = s.frameDest := rfl
@[simp] theorem State.rejectCommand_sourceOf (s : State) : (s.rejectCommand).sourceOf = s.sourceOf := rfl
@[simp] theorem State.rejectCommand_destOf (s : State) : (s.rejectCommand).destOf = s.destOf := rfl
@[simp] theorem State.rejectCommand_pixelSource (s : State) : (s.rejectCommand).pixelSource = s.pixelSource := rfl
@[simp] theorem State.rejectCommand_activeSource (s : State) : (s.rejectCommand).activeSource = s.activeSource := rfl
@[simp] theorem State.rejectCommand_activeDest (s : State) : (s.rejectCommand).activeDest = s.activeDest := rfl
@[simp] theorem State.rejectCommand_activeClaim (s : State) : (s.rejectCommand).activeClaim = s.activeClaim := rfl
@[simp] theorem State.rejectCommand_heldSources (s : State) : (s.rejectCommand).heldSources = s.heldSources := rfl
@[simp] theorem State.rejectCommand_heldDests (s : State) : (s.rejectCommand).heldDests = s.heldDests := rfl
@[simp] theorem State.rejectCommand_busy (s : State) : (s.rejectCommand).busy = s.busy := rfl

/-! ### writeStatus (10_state R35, R36) -/

@[simp] theorem State.writeStatus_phase (s : State) (v : Word) : (s.writeStatus v).phase = s.phase := rfl
@[simp] theorem State.writeStatus_done (s : State) (v : Word) : (s.writeStatus v).done = (s.done && !v.getLsbD 1) := rfl
@[simp] theorem State.writeStatus_cmdErr (s : State) (v : Word) : (s.writeStatus v).cmdErr = (s.cmdErr && !v.getLsbD 2) := rfl
@[simp] theorem State.writeStatus_doneIe (s : State) (v : Word) : (s.writeStatus v).doneIe = s.doneIe := rfl
@[simp] theorem State.writeStatus_result (s : State) (v : Word) : (s.writeStatus v).result = s.result := rfl
@[simp] theorem State.writeStatus_magic (s : State) (v : Word) : (s.writeStatus v).magic = s.magic := rfl
@[simp] theorem State.writeStatus_version (s : State) (v : Word) : (s.writeStatus v).version = s.version := rfl
@[simp] theorem State.writeStatus_subVersion (s : State) (v : Word) : (s.writeStatus v).subVersion = s.subVersion := rfl
@[simp] theorem State.writeStatus_width (s : State) (v : Word) : (s.writeStatus v).width = s.width := rfl
@[simp] theorem State.writeStatus_height (s : State) (v : Word) : (s.writeStatus v).height = s.height := rfl
@[simp] theorem State.writeStatus_id (s : State) (v : Word) : (s.writeStatus v).id = s.id := rfl
@[simp] theorem State.writeStatus_uncompressed (s : State) (v : Word) : (s.writeStatus v).uncompressed = s.uncompressed := rfl
@[simp] theorem State.writeStatus_payloadSize (s : State) (v : Word) : (s.writeStatus v).payloadSize = s.payloadSize := rfl
@[simp] theorem State.writeStatus_srcBaseHi (s : State) (v : Word) : (s.writeStatus v).srcBaseHi = s.srcBaseHi := rfl
@[simp] theorem State.writeStatus_dstBaseHi (s : State) (v : Word) : (s.writeStatus v).dstBaseHi = s.dstBaseHi := rfl
@[simp] theorem State.writeStatus_dstCap (s : State) (v : Word) : (s.writeStatus v).dstCap = s.dstCap := rfl
@[simp] theorem State.writeStatus_partFirstLine (s : State) (v : Word) : (s.writeStatus v).partFirstLine = s.partFirstLine := rfl
@[simp] theorem State.writeStatus_partLineCount (s : State) (v : Word) : (s.writeStatus v).partLineCount = s.partLineCount := rfl
@[simp] theorem State.writeStatus_reserved (s : State) (v : Word) : (s.writeStatus v).reserved = s.reserved := rfl
@[simp] theorem State.writeStatus_i (s : State) (v : Word) : (s.writeStatus v).i = s.i := rfl
@[simp] theorem State.writeStatus_j (s : State) (v : Word) : (s.writeStatus v).j = s.j := rfl
@[simp] theorem State.writeStatus_k (s : State) (v : Word) : (s.writeStatus v).k = s.k := rfl
@[simp] theorem State.writeStatus_out (s : State) (v : Word) : (s.writeStatus v).out = s.out := rfl
@[simp] theorem State.writeStatus_first (s : State) (v : Word) : (s.writeStatus v).first = s.first := rfl
@[simp] theorem State.writeStatus_a (s : State) (v : Word) : (s.writeStatus v).a = s.a := rfl
@[simp] theorem State.writeStatus_b (s : State) (v : Word) : (s.writeStatus v).b = s.b := rfl
@[simp] theorem State.writeStatus_src (s : State) (v : Word) : (s.writeStatus v).src = s.src := rfl
@[simp] theorem State.writeStatus_dst (s : State) (v : Word) : (s.writeStatus v).dst = s.dst := rfl
@[simp] theorem State.writeStatus_cw (s : State) (v : Word) : (s.writeStatus v).cw = s.cw := rfl
@[simp] theorem State.writeStatus_count (s : State) (v : Word) : (s.writeStatus v).count = s.count := rfl
@[simp] theorem State.writeStatus_line (s : State) (v : Word) : (s.writeStatus v).line = s.line := rfl
@[simp] theorem State.writeStatus_mem (s : State) (v : Word) : (s.writeStatus v).mem = s.mem := rfl
@[simp] theorem State.writeStatus_devices (s : State) (v : Word) : (s.writeStatus v).devices = s.devices := rfl
@[simp] theorem State.writeStatus_instances (s : State) (v : Word) : (s.writeStatus v).instances = s.instances := rfl
@[simp] theorem State.writeStatus_others (s : State) (v : Word) : (s.writeStatus v).others = s.others := rfl
@[simp] theorem State.writeStatus_unseen (s : State) (v : Word) : (s.writeStatus v).unseen = s.unseen := rfl
@[simp] theorem State.writeStatus_inputs (s : State) (v : Word) : (s.writeStatus v).inputs = s.inputs := rfl
@[simp] theorem State.writeStatus_reply (s : State) (v : Word) : (s.writeStatus v).reply = s.reply := rfl
@[simp] theorem State.writeStatus_draws (s : State) (v : Word) : (s.writeStatus v).draws = s.draws := rfl
@[simp] theorem State.writeStatus_pixelCount (s : State) (v : Word) : (s.writeStatus v).pixelCount = s.pixelCount := rfl
@[simp] theorem State.writeStatus_payload (s : State) (v : Word) : (s.writeStatus v).payload = s.payload := rfl
@[simp] theorem State.writeStatus_frameBytes (s : State) (v : Word) : (s.writeStatus v).frameBytes = s.frameBytes := rfl
@[simp] theorem State.writeStatus_lineStart (s : State) (v : Word) : (s.writeStatus v).lineStart = s.lineStart := rfl
@[simp] theorem State.writeStatus_srcBase (s : State) (v : Word) : (s.writeStatus v).srcBase = s.srcBase := rfl
@[simp] theorem State.writeStatus_dstBase (s : State) (v : Word) : (s.writeStatus v).dstBase = s.dstBase := rfl
@[simp] theorem State.writeStatus_srcAddr (s : State) (v : Word) : (s.writeStatus v).srcAddr = s.srcAddr := rfl
@[simp] theorem State.writeStatus_dstAddr (s : State) (v : Word) : (s.writeStatus v).dstAddr = s.dstAddr := rfl
@[simp] theorem State.writeStatus_pix (s : State) (v : Word) : (s.writeStatus v).pix = s.pix := rfl
@[simp] theorem State.writeStatus_srcWord (s : State) (v : Word) : (s.writeStatus v).srcWord = s.srcWord := rfl
@[simp] theorem State.writeStatus_dstPix (s : State) (v : Word) : (s.writeStatus v).dstPix = s.dstPix := rfl
@[simp] theorem State.writeStatus_firstLine (s : State) (v : Word) : (s.writeStatus v).firstLine = s.firstLine := rfl
@[simp] theorem State.writeStatus_lineCount (s : State) (v : Word) : (s.writeStatus v).lineCount = s.lineCount := rfl
@[simp] theorem State.writeStatus_bandStart (s : State) (v : Word) : (s.writeStatus v).bandStart = s.bandStart := rfl
@[simp] theorem State.writeStatus_bandEnd (s : State) (v : Word) : (s.writeStatus v).bandEnd = s.bandEnd := rfl
@[simp] theorem State.writeStatus_frameSource (s : State) (v : Word) : (s.writeStatus v).frameSource = s.frameSource := rfl
@[simp] theorem State.writeStatus_streamDest (s : State) (v : Word) : (s.writeStatus v).streamDest = s.streamDest := rfl
@[simp] theorem State.writeStatus_streamSource (s : State) (v : Word) : (s.writeStatus v).streamSource = s.streamSource := rfl
@[simp] theorem State.writeStatus_frameDest (s : State) (v : Word) : (s.writeStatus v).frameDest = s.frameDest := rfl
@[simp] theorem State.writeStatus_sourceOf (s : State) (v : Word) : (s.writeStatus v).sourceOf = s.sourceOf := rfl
@[simp] theorem State.writeStatus_destOf (s : State) (v : Word) : (s.writeStatus v).destOf = s.destOf := rfl
@[simp] theorem State.writeStatus_pixelSource (s : State) (v : Word) : (s.writeStatus v).pixelSource = s.pixelSource := rfl
@[simp] theorem State.writeStatus_activeSource (s : State) (v : Word) : (s.writeStatus v).activeSource = s.activeSource := rfl
@[simp] theorem State.writeStatus_activeDest (s : State) (v : Word) : (s.writeStatus v).activeDest = s.activeDest := rfl
@[simp] theorem State.writeStatus_activeClaim (s : State) (v : Word) : (s.writeStatus v).activeClaim = s.activeClaim := rfl
@[simp] theorem State.writeStatus_heldSources (s : State) (v : Word) : (s.writeStatus v).heldSources = s.heldSources := rfl
@[simp] theorem State.writeStatus_heldDests (s : State) (v : Word) : (s.writeStatus v).heldDests = s.heldDests := rfl
@[simp] theorem State.writeStatus_busy (s : State) (v : Word) : (s.writeStatus v).busy = s.busy := rfl

/-! ### startEncode (41_encoder R141) -/

@[simp] theorem State.startEncode_phase (s : State) (p q : Nat) (pb : Bool) : (s.startEncode p q pb).phase = s.phase := rfl
@[simp] theorem State.startEncode_done (s : State) (p q : Nat) (pb : Bool) : (s.startEncode p q pb).done = s.done := rfl
@[simp] theorem State.startEncode_cmdErr (s : State) (p q : Nat) (pb : Bool) : (s.startEncode p q pb).cmdErr = s.cmdErr := rfl
@[simp] theorem State.startEncode_doneIe (s : State) (p q : Nat) (pb : Bool) : (s.startEncode p q pb).doneIe = s.doneIe := rfl
@[simp] theorem State.startEncode_result (s : State) (p q : Nat) (pb : Bool) : (s.startEncode p q pb).result = s.result := rfl
@[simp] theorem State.startEncode_magic (s : State) (p q : Nat) (pb : Bool) : (s.startEncode p q pb).magic = s.magic := rfl
@[simp] theorem State.startEncode_version (s : State) (p q : Nat) (pb : Bool) : (s.startEncode p q pb).version = s.version := rfl
@[simp] theorem State.startEncode_subVersion (s : State) (p q : Nat) (pb : Bool) : (s.startEncode p q pb).subVersion = s.subVersion := rfl
@[simp] theorem State.startEncode_width (s : State) (p q : Nat) (pb : Bool) : (s.startEncode p q pb).width = s.width := rfl
@[simp] theorem State.startEncode_height (s : State) (p q : Nat) (pb : Bool) : (s.startEncode p q pb).height = s.height := rfl
@[simp] theorem State.startEncode_id (s : State) (p q : Nat) (pb : Bool) : (s.startEncode p q pb).id = s.id := rfl
@[simp] theorem State.startEncode_uncompressed (s : State) (p q : Nat) (pb : Bool) : (s.startEncode p q pb).uncompressed = s.uncompressed := rfl
@[simp] theorem State.startEncode_payloadSize (s : State) (p q : Nat) (pb : Bool) : (s.startEncode p q pb).payloadSize = s.payloadSize := rfl
@[simp] theorem State.startEncode_srcBaseHi (s : State) (p q : Nat) (pb : Bool) : (s.startEncode p q pb).srcBaseHi = s.srcBaseHi := rfl
@[simp] theorem State.startEncode_dstBaseHi (s : State) (p q : Nat) (pb : Bool) : (s.startEncode p q pb).dstBaseHi = s.dstBaseHi := rfl
@[simp] theorem State.startEncode_dstCap (s : State) (p q : Nat) (pb : Bool) : (s.startEncode p q pb).dstCap = s.dstCap := rfl
@[simp] theorem State.startEncode_partFirstLine (s : State) (p q : Nat) (pb : Bool) : (s.startEncode p q pb).partFirstLine = s.partFirstLine := rfl
@[simp] theorem State.startEncode_partLineCount (s : State) (p q : Nat) (pb : Bool) : (s.startEncode p q pb).partLineCount = s.partLineCount := rfl
@[simp] theorem State.startEncode_reserved (s : State) (p q : Nat) (pb : Bool) : (s.startEncode p q pb).reserved = s.reserved := rfl
@[simp] theorem State.startEncode_i (s : State) (p q : Nat) (pb : Bool) : (s.startEncode p q pb).i = p := rfl
@[simp] theorem State.startEncode_j (s : State) (p q : Nat) (pb : Bool) : (s.startEncode p q pb).j = p := rfl
@[simp] theorem State.startEncode_k (s : State) (p q : Nat) (pb : Bool) : (s.startEncode p q pb).k = p := rfl
@[simp] theorem State.startEncode_out (s : State) (p q : Nat) (pb : Bool) : (s.startEncode p q pb).out = 0 := rfl
@[simp] theorem State.startEncode_first (s : State) (p q : Nat) (pb : Bool) : (s.startEncode p q pb).first = pb := rfl
@[simp] theorem State.startEncode_a (s : State) (p q : Nat) (pb : Bool) : (s.startEncode p q pb).a = p := rfl
@[simp] theorem State.startEncode_b (s : State) (p q : Nat) (pb : Bool) : (s.startEncode p q pb).b = q := rfl
@[simp] theorem State.startEncode_src (s : State) (p q : Nat) (pb : Bool) : (s.startEncode p q pb).src = s.src := rfl
@[simp] theorem State.startEncode_dst (s : State) (p q : Nat) (pb : Bool) : (s.startEncode p q pb).dst = s.dst := rfl
@[simp] theorem State.startEncode_cw (s : State) (p q : Nat) (pb : Bool) : (s.startEncode p q pb).cw = s.cw := rfl
@[simp] theorem State.startEncode_count (s : State) (p q : Nat) (pb : Bool) : (s.startEncode p q pb).count = s.count := rfl
@[simp] theorem State.startEncode_line (s : State) (p q : Nat) (pb : Bool) : (s.startEncode p q pb).line = s.line := rfl
@[simp] theorem State.startEncode_mem (s : State) (p q : Nat) (pb : Bool) : (s.startEncode p q pb).mem = s.mem := rfl
@[simp] theorem State.startEncode_devices (s : State) (p q : Nat) (pb : Bool) : (s.startEncode p q pb).devices = s.devices := rfl
@[simp] theorem State.startEncode_instances (s : State) (p q : Nat) (pb : Bool) : (s.startEncode p q pb).instances = s.instances := rfl
@[simp] theorem State.startEncode_others (s : State) (p q : Nat) (pb : Bool) : (s.startEncode p q pb).others = s.others := rfl
@[simp] theorem State.startEncode_unseen (s : State) (p q : Nat) (pb : Bool) : (s.startEncode p q pb).unseen = s.unseen := rfl
@[simp] theorem State.startEncode_inputs (s : State) (p q : Nat) (pb : Bool) : (s.startEncode p q pb).inputs = s.inputs := rfl
@[simp] theorem State.startEncode_reply (s : State) (p q : Nat) (pb : Bool) : (s.startEncode p q pb).reply = s.reply := rfl
@[simp] theorem State.startEncode_draws (s : State) (p q : Nat) (pb : Bool) : (s.startEncode p q pb).draws = s.draws := rfl
@[simp] theorem State.startEncode_pixelCount (s : State) (p q : Nat) (pb : Bool) : (s.startEncode p q pb).pixelCount = s.pixelCount := rfl
@[simp] theorem State.startEncode_payload (s : State) (p q : Nat) (pb : Bool) : (s.startEncode p q pb).payload = s.payload := rfl
@[simp] theorem State.startEncode_frameBytes (s : State) (p q : Nat) (pb : Bool) : (s.startEncode p q pb).frameBytes = s.frameBytes := rfl
@[simp] theorem State.startEncode_lineStart (s : State) (p q : Nat) (pb : Bool) : (s.startEncode p q pb).lineStart = s.lineStart := rfl
@[simp] theorem State.startEncode_srcBase (s : State) (p q : Nat) (pb : Bool) : (s.startEncode p q pb).srcBase = s.srcBase := rfl
@[simp] theorem State.startEncode_dstBase (s : State) (p q : Nat) (pb : Bool) : (s.startEncode p q pb).dstBase = s.dstBase := rfl
@[simp] theorem State.startEncode_srcAddr (s : State) (p q : Nat) (pb : Bool) : (s.startEncode p q pb).srcAddr = s.srcAddr := rfl
@[simp] theorem State.startEncode_dstAddr (s : State) (p q : Nat) (pb : Bool) : (s.startEncode p q pb).dstAddr = s.dstAddr := rfl
@[simp] theorem State.startEncode_pix (s : State) (p q : Nat) (pb : Bool) : (s.startEncode p q pb).pix = s.pix := rfl
@[simp] theorem State.startEncode_srcWord (s : State) (p q : Nat) (pb : Bool) : (s.startEncode p q pb).srcWord = s.srcWord := rfl
@[simp] theorem State.startEncode_dstPix (s : State) (p q : Nat) (pb : Bool) : (s.startEncode p q pb).dstPix = s.dstPix := rfl
@[simp] theorem State.startEncode_firstLine (s : State) (p q : Nat) (pb : Bool) : (s.startEncode p q pb).firstLine = s.firstLine := rfl
@[simp] theorem State.startEncode_lineCount (s : State) (p q : Nat) (pb : Bool) : (s.startEncode p q pb).lineCount = s.lineCount := rfl
@[simp] theorem State.startEncode_bandStart (s : State) (p q : Nat) (pb : Bool) : (s.startEncode p q pb).bandStart = s.bandStart := rfl
@[simp] theorem State.startEncode_bandEnd (s : State) (p q : Nat) (pb : Bool) : (s.startEncode p q pb).bandEnd = s.bandEnd := rfl
@[simp] theorem State.startEncode_frameSource (s : State) (p q : Nat) (pb : Bool) : (s.startEncode p q pb).frameSource = s.frameSource := rfl
@[simp] theorem State.startEncode_streamDest (s : State) (p q : Nat) (pb : Bool) : (s.startEncode p q pb).streamDest = s.streamDest := rfl
@[simp] theorem State.startEncode_streamSource (s : State) (p q : Nat) (pb : Bool) : (s.startEncode p q pb).streamSource = s.streamSource := rfl
@[simp] theorem State.startEncode_frameDest (s : State) (p q : Nat) (pb : Bool) : (s.startEncode p q pb).frameDest = s.frameDest := rfl
@[simp] theorem State.startEncode_destOf (s : State) (p q : Nat) (pb : Bool) : (s.startEncode p q pb).destOf = s.destOf := rfl
@[simp] theorem State.startEncode_pixelSource (s : State) (p q : Nat) (pb : Bool) : (s.startEncode p q pb).pixelSource = s.pixelSource := rfl
@[simp] theorem State.startEncode_activeDest (s : State) (p q : Nat) (pb : Bool) : (s.startEncode p q pb).activeDest = s.activeDest := rfl
@[simp] theorem State.startEncode_heldDests (s : State) (p q : Nat) (pb : Bool) : (s.startEncode p q pb).heldDests = s.heldDests := rfl
@[simp] theorem State.startEncode_busy (s : State) (p q : Nat) (pb : Bool) : (s.startEncode p q pb).busy = s.busy := rfl

/-! ### startDecode (42_decoder R181) -/

@[simp] theorem State.startDecode_phase (s : State) : (s.startDecode).phase = s.phase := rfl
@[simp] theorem State.startDecode_done (s : State) : (s.startDecode).done = s.done := rfl
@[simp] theorem State.startDecode_cmdErr (s : State) : (s.startDecode).cmdErr = s.cmdErr := rfl
@[simp] theorem State.startDecode_doneIe (s : State) : (s.startDecode).doneIe = s.doneIe := rfl
@[simp] theorem State.startDecode_result (s : State) : (s.startDecode).result = s.result := rfl
@[simp] theorem State.startDecode_magic (s : State) : (s.startDecode).magic = s.magic := rfl
@[simp] theorem State.startDecode_version (s : State) : (s.startDecode).version = s.version := rfl
@[simp] theorem State.startDecode_subVersion (s : State) : (s.startDecode).subVersion = s.subVersion := rfl
@[simp] theorem State.startDecode_width (s : State) : (s.startDecode).width = s.width := rfl
@[simp] theorem State.startDecode_height (s : State) : (s.startDecode).height = s.height := rfl
@[simp] theorem State.startDecode_id (s : State) : (s.startDecode).id = s.id := rfl
@[simp] theorem State.startDecode_uncompressed (s : State) : (s.startDecode).uncompressed = s.uncompressed := rfl
@[simp] theorem State.startDecode_payloadSize (s : State) : (s.startDecode).payloadSize = s.payloadSize := rfl
@[simp] theorem State.startDecode_srcBaseHi (s : State) : (s.startDecode).srcBaseHi = s.srcBaseHi := rfl
@[simp] theorem State.startDecode_dstBaseHi (s : State) : (s.startDecode).dstBaseHi = s.dstBaseHi := rfl
@[simp] theorem State.startDecode_dstCap (s : State) : (s.startDecode).dstCap = s.dstCap := rfl
@[simp] theorem State.startDecode_partFirstLine (s : State) : (s.startDecode).partFirstLine = s.partFirstLine := rfl
@[simp] theorem State.startDecode_partLineCount (s : State) : (s.startDecode).partLineCount = s.partLineCount := rfl
@[simp] theorem State.startDecode_reserved (s : State) : (s.startDecode).reserved = s.reserved := rfl
@[simp] theorem State.startDecode_i (s : State) : (s.startDecode).i = s.i := rfl
@[simp] theorem State.startDecode_j (s : State) : (s.startDecode).j = s.j := rfl
@[simp] theorem State.startDecode_k (s : State) : (s.startDecode).k = s.k := rfl
@[simp] theorem State.startDecode_out (s : State) : (s.startDecode).out = s.out := rfl
@[simp] theorem State.startDecode_first (s : State) : (s.startDecode).first = s.first := rfl
@[simp] theorem State.startDecode_a (s : State) : (s.startDecode).a = s.a := rfl
@[simp] theorem State.startDecode_b (s : State) : (s.startDecode).b = s.b := rfl
@[simp] theorem State.startDecode_src (s : State) : (s.startDecode).src = 0 := rfl
@[simp] theorem State.startDecode_dst (s : State) : (s.startDecode).dst = 0 := rfl
@[simp] theorem State.startDecode_cw (s : State) : (s.startDecode).cw = s.cw := rfl
@[simp] theorem State.startDecode_count (s : State) : (s.startDecode).count = s.count := rfl
@[simp] theorem State.startDecode_line (s : State) : (s.startDecode).line = s.line := rfl
@[simp] theorem State.startDecode_mem (s : State) : (s.startDecode).mem = s.mem := rfl
@[simp] theorem State.startDecode_devices (s : State) : (s.startDecode).devices = s.devices := rfl
@[simp] theorem State.startDecode_instances (s : State) : (s.startDecode).instances = s.instances := rfl
@[simp] theorem State.startDecode_others (s : State) : (s.startDecode).others = s.others := rfl
@[simp] theorem State.startDecode_unseen (s : State) : (s.startDecode).unseen = s.unseen := rfl
@[simp] theorem State.startDecode_inputs (s : State) : (s.startDecode).inputs = s.inputs := rfl
@[simp] theorem State.startDecode_reply (s : State) : (s.startDecode).reply = s.reply := rfl
@[simp] theorem State.startDecode_draws (s : State) : (s.startDecode).draws = s.draws := rfl
@[simp] theorem State.startDecode_pixelCount (s : State) : (s.startDecode).pixelCount = s.pixelCount := rfl
@[simp] theorem State.startDecode_payload (s : State) : (s.startDecode).payload = s.payload := rfl
@[simp] theorem State.startDecode_frameBytes (s : State) : (s.startDecode).frameBytes = s.frameBytes := rfl
@[simp] theorem State.startDecode_lineStart (s : State) : (s.startDecode).lineStart = s.lineStart := rfl
@[simp] theorem State.startDecode_srcBase (s : State) : (s.startDecode).srcBase = s.srcBase := rfl
@[simp] theorem State.startDecode_dstBase (s : State) : (s.startDecode).dstBase = s.dstBase := rfl
@[simp] theorem State.startDecode_srcAddr (s : State) : (s.startDecode).srcAddr = s.srcAddr := rfl
@[simp] theorem State.startDecode_dstAddr (s : State) : (s.startDecode).dstAddr = s.dstAddr := rfl
@[simp] theorem State.startDecode_pix (s : State) : (s.startDecode).pix = s.pix := rfl
@[simp] theorem State.startDecode_srcWord (s : State) : (s.startDecode).srcWord = s.srcWord := rfl
@[simp] theorem State.startDecode_dstPix (s : State) : (s.startDecode).dstPix = s.dstPix := rfl
@[simp] theorem State.startDecode_firstLine (s : State) : (s.startDecode).firstLine = s.firstLine := rfl
@[simp] theorem State.startDecode_lineCount (s : State) : (s.startDecode).lineCount = s.lineCount := rfl
@[simp] theorem State.startDecode_bandStart (s : State) : (s.startDecode).bandStart = s.bandStart := rfl
@[simp] theorem State.startDecode_bandEnd (s : State) : (s.startDecode).bandEnd = s.bandEnd := rfl
@[simp] theorem State.startDecode_frameSource (s : State) : (s.startDecode).frameSource = s.frameSource := rfl
@[simp] theorem State.startDecode_streamDest (s : State) : (s.startDecode).streamDest = s.streamDest := rfl
@[simp] theorem State.startDecode_streamSource (s : State) : (s.startDecode).streamSource = s.streamSource := rfl
@[simp] theorem State.startDecode_frameDest (s : State) : (s.startDecode).frameDest = s.frameDest := rfl
@[simp] theorem State.startDecode_sourceOf (s : State) : (s.startDecode).sourceOf = s.sourceOf := rfl
@[simp] theorem State.startDecode_destOf (s : State) : (s.startDecode).destOf = s.destOf := rfl
@[simp] theorem State.startDecode_pixelSource (s : State) : (s.startDecode).pixelSource = s.pixelSource := rfl
@[simp] theorem State.startDecode_activeSource (s : State) : (s.startDecode).activeSource = s.activeSource := rfl
@[simp] theorem State.startDecode_activeDest (s : State) : (s.startDecode).activeDest = s.activeDest := rfl
@[simp] theorem State.startDecode_activeClaim (s : State) : (s.startDecode).activeClaim = s.activeClaim := rfl
@[simp] theorem State.startDecode_heldSources (s : State) : (s.startDecode).heldSources = s.heldSources := rfl
@[simp] theorem State.startDecode_heldDests (s : State) : (s.startDecode).heldDests = s.heldDests := rfl
@[simp] theorem State.startDecode_busy (s : State) : (s.startDecode).busy = s.busy := rfl

/-! ### repositioned (42_decoder R186) -/

@[simp] theorem State.repositioned_phase (s : State) (n : Nat) : (s.repositioned n).phase = s.phase := rfl
@[simp] theorem State.repositioned_done (s : State) (n : Nat) : (s.repositioned n).done = s.done := rfl
@[simp] theorem State.repositioned_cmdErr (s : State) (n : Nat) : (s.repositioned n).cmdErr = s.cmdErr := rfl
@[simp] theorem State.repositioned_doneIe (s : State) (n : Nat) : (s.repositioned n).doneIe = s.doneIe := rfl
@[simp] theorem State.repositioned_result (s : State) (n : Nat) : (s.repositioned n).result = s.result := rfl
@[simp] theorem State.repositioned_magic (s : State) (n : Nat) : (s.repositioned n).magic = s.magic := rfl
@[simp] theorem State.repositioned_version (s : State) (n : Nat) : (s.repositioned n).version = s.version := rfl
@[simp] theorem State.repositioned_subVersion (s : State) (n : Nat) : (s.repositioned n).subVersion = s.subVersion := rfl
@[simp] theorem State.repositioned_width (s : State) (n : Nat) : (s.repositioned n).width = s.width := rfl
@[simp] theorem State.repositioned_height (s : State) (n : Nat) : (s.repositioned n).height = s.height := rfl
@[simp] theorem State.repositioned_id (s : State) (n : Nat) : (s.repositioned n).id = s.id := rfl
@[simp] theorem State.repositioned_uncompressed (s : State) (n : Nat) : (s.repositioned n).uncompressed = s.uncompressed := rfl
@[simp] theorem State.repositioned_payloadSize (s : State) (n : Nat) : (s.repositioned n).payloadSize = s.payloadSize := rfl
@[simp] theorem State.repositioned_srcBaseHi (s : State) (n : Nat) : (s.repositioned n).srcBaseHi = s.srcBaseHi := rfl
@[simp] theorem State.repositioned_dstBaseHi (s : State) (n : Nat) : (s.repositioned n).dstBaseHi = s.dstBaseHi := rfl
@[simp] theorem State.repositioned_dstCap (s : State) (n : Nat) : (s.repositioned n).dstCap = s.dstCap := rfl
@[simp] theorem State.repositioned_partFirstLine (s : State) (n : Nat) : (s.repositioned n).partFirstLine = s.partFirstLine := rfl
@[simp] theorem State.repositioned_partLineCount (s : State) (n : Nat) : (s.repositioned n).partLineCount = s.partLineCount := rfl
@[simp] theorem State.repositioned_reserved (s : State) (n : Nat) : (s.repositioned n).reserved = s.reserved := rfl
@[simp] theorem State.repositioned_i (s : State) (n : Nat) : (s.repositioned n).i = s.i := rfl
@[simp] theorem State.repositioned_j (s : State) (n : Nat) : (s.repositioned n).j = s.j := rfl
@[simp] theorem State.repositioned_k (s : State) (n : Nat) : (s.repositioned n).k = s.k := rfl
@[simp] theorem State.repositioned_out (s : State) (n : Nat) : (s.repositioned n).out = s.out := rfl
@[simp] theorem State.repositioned_first (s : State) (n : Nat) : (s.repositioned n).first = s.first := rfl
@[simp] theorem State.repositioned_a (s : State) (n : Nat) : (s.repositioned n).a = s.a := rfl
@[simp] theorem State.repositioned_b (s : State) (n : Nat) : (s.repositioned n).b = s.b := rfl
@[simp] theorem State.repositioned_src (s : State) (n : Nat) : (s.repositioned n).src = s.src := rfl
@[simp] theorem State.repositioned_dst (s : State) (n : Nat) : (s.repositioned n).dst = s.lineStart n := rfl
@[simp] theorem State.repositioned_cw (s : State) (n : Nat) : (s.repositioned n).cw = s.cw := rfl
@[simp] theorem State.repositioned_count (s : State) (n : Nat) : (s.repositioned n).count = s.count := rfl
@[simp] theorem State.repositioned_line (s : State) (n : Nat) : (s.repositioned n).line = s.line := rfl
@[simp] theorem State.repositioned_mem (s : State) (n : Nat) : (s.repositioned n).mem = s.mem := rfl
@[simp] theorem State.repositioned_devices (s : State) (n : Nat) : (s.repositioned n).devices = s.devices := rfl
@[simp] theorem State.repositioned_instances (s : State) (n : Nat) : (s.repositioned n).instances = s.instances := rfl
@[simp] theorem State.repositioned_others (s : State) (n : Nat) : (s.repositioned n).others = s.others := rfl
@[simp] theorem State.repositioned_unseen (s : State) (n : Nat) : (s.repositioned n).unseen = s.unseen := rfl
@[simp] theorem State.repositioned_inputs (s : State) (n : Nat) : (s.repositioned n).inputs = s.inputs := rfl
@[simp] theorem State.repositioned_reply (s : State) (n : Nat) : (s.repositioned n).reply = s.reply := rfl
@[simp] theorem State.repositioned_draws (s : State) (n : Nat) : (s.repositioned n).draws = s.draws := rfl
@[simp] theorem State.repositioned_pixelCount (s : State) (n : Nat) : (s.repositioned n).pixelCount = s.pixelCount := rfl
@[simp] theorem State.repositioned_payload (s : State) (n : Nat) : (s.repositioned n).payload = s.payload := rfl
@[simp] theorem State.repositioned_frameBytes (s : State) (n : Nat) : (s.repositioned n).frameBytes = s.frameBytes := rfl
@[simp] theorem State.repositioned_lineStart (s : State) (n : Nat) : (s.repositioned n).lineStart = s.lineStart := rfl
@[simp] theorem State.repositioned_srcBase (s : State) (n : Nat) : (s.repositioned n).srcBase = s.srcBase := rfl
@[simp] theorem State.repositioned_dstBase (s : State) (n : Nat) : (s.repositioned n).dstBase = s.dstBase := rfl
@[simp] theorem State.repositioned_srcAddr (s : State) (n : Nat) : (s.repositioned n).srcAddr = s.srcAddr := rfl
@[simp] theorem State.repositioned_dstAddr (s : State) (n : Nat) : (s.repositioned n).dstAddr = s.dstAddr := rfl
@[simp] theorem State.repositioned_pix (s : State) (n : Nat) : (s.repositioned n).pix = s.pix := rfl
@[simp] theorem State.repositioned_srcWord (s : State) (n : Nat) : (s.repositioned n).srcWord = s.srcWord := rfl
@[simp] theorem State.repositioned_dstPix (s : State) (n : Nat) : (s.repositioned n).dstPix = s.dstPix := rfl
@[simp] theorem State.repositioned_firstLine (s : State) (n : Nat) : (s.repositioned n).firstLine = s.firstLine := rfl
@[simp] theorem State.repositioned_lineCount (s : State) (n : Nat) : (s.repositioned n).lineCount = s.lineCount := rfl
@[simp] theorem State.repositioned_bandStart (s : State) (n : Nat) : (s.repositioned n).bandStart = s.bandStart := rfl
@[simp] theorem State.repositioned_bandEnd (s : State) (n : Nat) : (s.repositioned n).bandEnd = s.bandEnd := rfl
@[simp] theorem State.repositioned_frameSource (s : State) (n : Nat) : (s.repositioned n).frameSource = s.frameSource := rfl
@[simp] theorem State.repositioned_streamDest (s : State) (n : Nat) : (s.repositioned n).streamDest = s.streamDest := rfl
@[simp] theorem State.repositioned_streamSource (s : State) (n : Nat) : (s.repositioned n).streamSource = s.streamSource := rfl
@[simp] theorem State.repositioned_frameDest (s : State) (n : Nat) : (s.repositioned n).frameDest = s.frameDest := rfl
@[simp] theorem State.repositioned_sourceOf (s : State) (n : Nat) : (s.repositioned n).sourceOf = s.sourceOf := rfl
@[simp] theorem State.repositioned_destOf (s : State) (n : Nat) : (s.repositioned n).destOf = s.destOf := rfl
@[simp] theorem State.repositioned_pixelSource (s : State) (n : Nat) : (s.repositioned n).pixelSource = s.pixelSource := rfl
@[simp] theorem State.repositioned_activeSource (s : State) (n : Nat) : (s.repositioned n).activeSource = s.activeSource := rfl
@[simp] theorem State.repositioned_activeDest (s : State) (n : Nat) : (s.repositioned n).activeDest = s.activeDest := rfl
@[simp] theorem State.repositioned_activeClaim (s : State) (n : Nat) : (s.repositioned n).activeClaim = s.activeClaim := rfl
@[simp] theorem State.repositioned_heldSources (s : State) (n : Nat) : (s.repositioned n).heldSources = s.heldSources := rfl
@[simp] theorem State.repositioned_heldDests (s : State) (n : Nat) : (s.repositioned n).heldDests = s.heldDests := rfl
@[simp] theorem State.repositioned_busy (s : State) (n : Nat) : (s.repositioned n).busy = s.busy := rfl

/-! ### fetched (42_decoder R182) -/

@[simp] theorem State.fetched_phase (s : State) : (s.fetched).phase = s.phase := rfl
@[simp] theorem State.fetched_done (s : State) : (s.fetched).done = s.done := rfl
@[simp] theorem State.fetched_cmdErr (s : State) : (s.fetched).cmdErr = s.cmdErr := rfl
@[simp] theorem State.fetched_doneIe (s : State) : (s.fetched).doneIe = s.doneIe := rfl
@[simp] theorem State.fetched_result (s : State) : (s.fetched).result = s.result := rfl
@[simp] theorem State.fetched_magic (s : State) : (s.fetched).magic = s.magic := rfl
@[simp] theorem State.fetched_version (s : State) : (s.fetched).version = s.version := rfl
@[simp] theorem State.fetched_subVersion (s : State) : (s.fetched).subVersion = s.subVersion := rfl
@[simp] theorem State.fetched_width (s : State) : (s.fetched).width = s.width := rfl
@[simp] theorem State.fetched_height (s : State) : (s.fetched).height = s.height := rfl
@[simp] theorem State.fetched_id (s : State) : (s.fetched).id = s.id := rfl
@[simp] theorem State.fetched_uncompressed (s : State) : (s.fetched).uncompressed = s.uncompressed := rfl
@[simp] theorem State.fetched_payloadSize (s : State) : (s.fetched).payloadSize = s.payloadSize := rfl
@[simp] theorem State.fetched_srcBaseHi (s : State) : (s.fetched).srcBaseHi = s.srcBaseHi := rfl
@[simp] theorem State.fetched_dstBaseHi (s : State) : (s.fetched).dstBaseHi = s.dstBaseHi := rfl
@[simp] theorem State.fetched_dstCap (s : State) : (s.fetched).dstCap = s.dstCap := rfl
@[simp] theorem State.fetched_partFirstLine (s : State) : (s.fetched).partFirstLine = s.partFirstLine := rfl
@[simp] theorem State.fetched_partLineCount (s : State) : (s.fetched).partLineCount = s.partLineCount := rfl
@[simp] theorem State.fetched_reserved (s : State) : (s.fetched).reserved = s.reserved := rfl
@[simp] theorem State.fetched_i (s : State) : (s.fetched).i = s.i := rfl
@[simp] theorem State.fetched_j (s : State) : (s.fetched).j = s.j := rfl
@[simp] theorem State.fetched_k (s : State) : (s.fetched).k = s.k := rfl
@[simp] theorem State.fetched_out (s : State) : (s.fetched).out = s.out := rfl
@[simp] theorem State.fetched_first (s : State) : (s.fetched).first = s.first := rfl
@[simp] theorem State.fetched_a (s : State) : (s.fetched).a = s.a := rfl
@[simp] theorem State.fetched_b (s : State) : (s.fetched).b = s.b := rfl
@[simp] theorem State.fetched_src (s : State) : (s.fetched).src = s.src + 4 := rfl
@[simp] theorem State.fetched_dst (s : State) : (s.fetched).dst = s.dst := rfl
@[simp] theorem State.fetched_cw (s : State) : (s.fetched).cw = s.srcWord s.src := rfl
@[simp] theorem State.fetched_count (s : State) : (s.fetched).count = (countOf (s.srcWord s.src)).toNat := rfl
@[simp] theorem State.fetched_line (s : State) : (s.fetched).line = (lineOf (s.srcWord s.src)).toNat := rfl
@[simp] theorem State.fetched_mem (s : State) : (s.fetched).mem = s.mem := rfl
@[simp] theorem State.fetched_devices (s : State) : (s.fetched).devices = s.devices := rfl
@[simp] theorem State.fetched_instances (s : State) : (s.fetched).instances = s.instances := rfl
@[simp] theorem State.fetched_others (s : State) : (s.fetched).others = s.others := rfl
@[simp] theorem State.fetched_unseen (s : State) : (s.fetched).unseen = s.unseen := rfl
@[simp] theorem State.fetched_inputs (s : State) : (s.fetched).inputs = s.inputs := rfl
@[simp] theorem State.fetched_reply (s : State) : (s.fetched).reply = s.reply := rfl
@[simp] theorem State.fetched_draws (s : State) : (s.fetched).draws = s.draws := rfl
@[simp] theorem State.fetched_pixelCount (s : State) : (s.fetched).pixelCount = s.pixelCount := rfl
@[simp] theorem State.fetched_payload (s : State) : (s.fetched).payload = s.payload := rfl
@[simp] theorem State.fetched_frameBytes (s : State) : (s.fetched).frameBytes = s.frameBytes := rfl
@[simp] theorem State.fetched_lineStart (s : State) : (s.fetched).lineStart = s.lineStart := rfl
@[simp] theorem State.fetched_srcBase (s : State) : (s.fetched).srcBase = s.srcBase := rfl
@[simp] theorem State.fetched_dstBase (s : State) : (s.fetched).dstBase = s.dstBase := rfl
@[simp] theorem State.fetched_srcAddr (s : State) : (s.fetched).srcAddr = s.srcAddr := rfl
@[simp] theorem State.fetched_dstAddr (s : State) : (s.fetched).dstAddr = s.dstAddr := rfl
@[simp] theorem State.fetched_pix (s : State) : (s.fetched).pix = s.pix := rfl
@[simp] theorem State.fetched_srcWord (s : State) : (s.fetched).srcWord = s.srcWord := rfl
@[simp] theorem State.fetched_dstPix (s : State) : (s.fetched).dstPix = s.dstPix := rfl
@[simp] theorem State.fetched_firstLine (s : State) : (s.fetched).firstLine = s.firstLine := rfl
@[simp] theorem State.fetched_lineCount (s : State) : (s.fetched).lineCount = s.lineCount := rfl
@[simp] theorem State.fetched_bandStart (s : State) : (s.fetched).bandStart = s.bandStart := rfl
@[simp] theorem State.fetched_bandEnd (s : State) : (s.fetched).bandEnd = s.bandEnd := rfl
@[simp] theorem State.fetched_frameSource (s : State) : (s.fetched).frameSource = s.frameSource := rfl
@[simp] theorem State.fetched_streamDest (s : State) : (s.fetched).streamDest = s.streamDest := rfl
@[simp] theorem State.fetched_streamSource (s : State) : (s.fetched).streamSource = s.streamSource := rfl
@[simp] theorem State.fetched_frameDest (s : State) : (s.fetched).frameDest = s.frameDest := rfl
@[simp] theorem State.fetched_sourceOf (s : State) : (s.fetched).sourceOf = s.sourceOf := rfl
@[simp] theorem State.fetched_destOf (s : State) : (s.fetched).destOf = s.destOf := rfl
@[simp] theorem State.fetched_pixelSource (s : State) : (s.fetched).pixelSource = s.pixelSource := rfl
@[simp] theorem State.fetched_activeSource (s : State) : (s.fetched).activeSource = s.activeSource := rfl
@[simp] theorem State.fetched_activeDest (s : State) : (s.fetched).activeDest = s.activeDest := rfl
@[simp] theorem State.fetched_activeClaim (s : State) : (s.fetched).activeClaim = s.activeClaim := rfl
@[simp] theorem State.fetched_heldSources (s : State) : (s.fetched).heldSources = s.heldSources := rfl
@[simp] theorem State.fetched_heldDests (s : State) : (s.fetched).heldDests = s.heldDests := rfl
@[simp] theorem State.fetched_busy (s : State) : (s.fetched).busy = s.busy := rfl

/-! ### emitted (00_scope R15) -/

@[simp] theorem State.emitted_phase (s : State) (ws : List Word) : (s.emitted ws).phase = s.phase := rfl
@[simp] theorem State.emitted_done (s : State) (ws : List Word) : (s.emitted ws).done = s.done := rfl
@[simp] theorem State.emitted_cmdErr (s : State) (ws : List Word) : (s.emitted ws).cmdErr = s.cmdErr := rfl
@[simp] theorem State.emitted_doneIe (s : State) (ws : List Word) : (s.emitted ws).doneIe = s.doneIe := rfl
@[simp] theorem State.emitted_result (s : State) (ws : List Word) : (s.emitted ws).result = s.result := rfl
@[simp] theorem State.emitted_magic (s : State) (ws : List Word) : (s.emitted ws).magic = s.magic := rfl
@[simp] theorem State.emitted_version (s : State) (ws : List Word) : (s.emitted ws).version = s.version := rfl
@[simp] theorem State.emitted_subVersion (s : State) (ws : List Word) : (s.emitted ws).subVersion = s.subVersion := rfl
@[simp] theorem State.emitted_width (s : State) (ws : List Word) : (s.emitted ws).width = s.width := rfl
@[simp] theorem State.emitted_height (s : State) (ws : List Word) : (s.emitted ws).height = s.height := rfl
@[simp] theorem State.emitted_id (s : State) (ws : List Word) : (s.emitted ws).id = s.id := rfl
@[simp] theorem State.emitted_uncompressed (s : State) (ws : List Word) : (s.emitted ws).uncompressed = s.uncompressed := rfl
@[simp] theorem State.emitted_payloadSize (s : State) (ws : List Word) : (s.emitted ws).payloadSize = s.payloadSize := rfl
@[simp] theorem State.emitted_srcBaseHi (s : State) (ws : List Word) : (s.emitted ws).srcBaseHi = s.srcBaseHi := rfl
@[simp] theorem State.emitted_dstBaseHi (s : State) (ws : List Word) : (s.emitted ws).dstBaseHi = s.dstBaseHi := rfl
@[simp] theorem State.emitted_dstCap (s : State) (ws : List Word) : (s.emitted ws).dstCap = s.dstCap := rfl
@[simp] theorem State.emitted_partFirstLine (s : State) (ws : List Word) : (s.emitted ws).partFirstLine = s.partFirstLine := rfl
@[simp] theorem State.emitted_partLineCount (s : State) (ws : List Word) : (s.emitted ws).partLineCount = s.partLineCount := rfl
@[simp] theorem State.emitted_reserved (s : State) (ws : List Word) : (s.emitted ws).reserved = s.reserved := rfl
@[simp] theorem State.emitted_i (s : State) (ws : List Word) : (s.emitted ws).i = s.i := rfl
@[simp] theorem State.emitted_j (s : State) (ws : List Word) : (s.emitted ws).j = s.j := rfl
@[simp] theorem State.emitted_k (s : State) (ws : List Word) : (s.emitted ws).k = s.k := rfl
@[simp] theorem State.emitted_out (s : State) (ws : List Word) : (s.emitted ws).out = s.out + 4 * ws.length := rfl
@[simp] theorem State.emitted_first (s : State) (ws : List Word) : (s.emitted ws).first = s.first := rfl
@[simp] theorem State.emitted_a (s : State) (ws : List Word) : (s.emitted ws).a = s.a := rfl
@[simp] theorem State.emitted_b (s : State) (ws : List Word) : (s.emitted ws).b = s.b := rfl
@[simp] theorem State.emitted_src (s : State) (ws : List Word) : (s.emitted ws).src = s.src := rfl
@[simp] theorem State.emitted_dst (s : State) (ws : List Word) : (s.emitted ws).dst = s.dst := rfl
@[simp] theorem State.emitted_cw (s : State) (ws : List Word) : (s.emitted ws).cw = s.cw := rfl
@[simp] theorem State.emitted_count (s : State) (ws : List Word) : (s.emitted ws).count = s.count := rfl
@[simp] theorem State.emitted_line (s : State) (ws : List Word) : (s.emitted ws).line = s.line := rfl
@[simp] theorem State.emitted_mem (s : State) (ws : List Word) : (s.emitted ws).mem = s.mem.writeWords (s.dstAddr s.out) ws := rfl
@[simp] theorem State.emitted_devices (s : State) (ws : List Word) : (s.emitted ws).devices = s.devices := rfl
@[simp] theorem State.emitted_instances (s : State) (ws : List Word) : (s.emitted ws).instances = s.instances := rfl
@[simp] theorem State.emitted_others (s : State) (ws : List Word) : (s.emitted ws).others = s.others := rfl
@[simp] theorem State.emitted_unseen (s : State) (ws : List Word) : (s.emitted ws).unseen = s.unseen := rfl
@[simp] theorem State.emitted_inputs (s : State) (ws : List Word) : (s.emitted ws).inputs = s.inputs := rfl
@[simp] theorem State.emitted_reply (s : State) (ws : List Word) : (s.emitted ws).reply = s.reply := rfl
@[simp] theorem State.emitted_draws (s : State) (ws : List Word) : (s.emitted ws).draws = s.draws := rfl
@[simp] theorem State.emitted_pixelCount (s : State) (ws : List Word) : (s.emitted ws).pixelCount = s.pixelCount := rfl
@[simp] theorem State.emitted_payload (s : State) (ws : List Word) : (s.emitted ws).payload = s.payload := rfl
@[simp] theorem State.emitted_frameBytes (s : State) (ws : List Word) : (s.emitted ws).frameBytes = s.frameBytes := rfl
@[simp] theorem State.emitted_lineStart (s : State) (ws : List Word) : (s.emitted ws).lineStart = s.lineStart := rfl
@[simp] theorem State.emitted_srcBase (s : State) (ws : List Word) : (s.emitted ws).srcBase = s.srcBase := rfl
@[simp] theorem State.emitted_dstBase (s : State) (ws : List Word) : (s.emitted ws).dstBase = s.dstBase := rfl
@[simp] theorem State.emitted_srcAddr (s : State) (ws : List Word) : (s.emitted ws).srcAddr = s.srcAddr := rfl
@[simp] theorem State.emitted_dstAddr (s : State) (ws : List Word) : (s.emitted ws).dstAddr = s.dstAddr := rfl
@[simp] theorem State.emitted_firstLine (s : State) (ws : List Word) : (s.emitted ws).firstLine = s.firstLine := rfl
@[simp] theorem State.emitted_lineCount (s : State) (ws : List Word) : (s.emitted ws).lineCount = s.lineCount := rfl
@[simp] theorem State.emitted_bandStart (s : State) (ws : List Word) : (s.emitted ws).bandStart = s.bandStart := rfl
@[simp] theorem State.emitted_bandEnd (s : State) (ws : List Word) : (s.emitted ws).bandEnd = s.bandEnd := rfl
@[simp] theorem State.emitted_frameSource (s : State) (ws : List Word) : (s.emitted ws).frameSource = s.frameSource := rfl
@[simp] theorem State.emitted_streamDest (s : State) (ws : List Word) : (s.emitted ws).streamDest = s.streamDest := rfl
@[simp] theorem State.emitted_streamSource (s : State) (ws : List Word) : (s.emitted ws).streamSource = s.streamSource := rfl
@[simp] theorem State.emitted_frameDest (s : State) (ws : List Word) : (s.emitted ws).frameDest = s.frameDest := rfl
@[simp] theorem State.emitted_sourceOf (s : State) (ws : List Word) : (s.emitted ws).sourceOf = s.sourceOf := rfl
@[simp] theorem State.emitted_destOf (s : State) (ws : List Word) : (s.emitted ws).destOf = s.destOf := rfl
@[simp] theorem State.emitted_pixelSource (s : State) (ws : List Word) : (s.emitted ws).pixelSource = s.pixelSource := rfl
@[simp] theorem State.emitted_activeSource (s : State) (ws : List Word) : (s.emitted ws).activeSource = s.activeSource := rfl
@[simp] theorem State.emitted_activeDest (s : State) (ws : List Word) : (s.emitted ws).activeDest = s.activeDest := rfl
@[simp] theorem State.emitted_activeClaim (s : State) (ws : List Word) : (s.emitted ws).activeClaim = s.activeClaim := rfl
@[simp] theorem State.emitted_heldSources (s : State) (ws : List Word) : (s.emitted ws).heldSources = s.heldSources := rfl
@[simp] theorem State.emitted_heldDests (s : State) (ws : List Word) : (s.emitted ws).heldDests = s.heldDests := rfl
@[simp] theorem State.emitted_busy (s : State) (ws : List Word) : (s.emitted ws).busy = s.busy := rfl

/-! ### scanned (41_encoder R142) -/

@[simp] theorem State.scanned_phase (s : State) : (s.scanned).phase = s.phase := rfl
@[simp] theorem State.scanned_done (s : State) : (s.scanned).done = s.done := rfl
@[simp] theorem State.scanned_cmdErr (s : State) : (s.scanned).cmdErr = s.cmdErr := rfl
@[simp] theorem State.scanned_doneIe (s : State) : (s.scanned).doneIe = s.doneIe := rfl
@[simp] theorem State.scanned_result (s : State) : (s.scanned).result = s.result := rfl
@[simp] theorem State.scanned_magic (s : State) : (s.scanned).magic = s.magic := rfl
@[simp] theorem State.scanned_version (s : State) : (s.scanned).version = s.version := rfl
@[simp] theorem State.scanned_subVersion (s : State) : (s.scanned).subVersion = s.subVersion := rfl
@[simp] theorem State.scanned_width (s : State) : (s.scanned).width = s.width := rfl
@[simp] theorem State.scanned_height (s : State) : (s.scanned).height = s.height := rfl
@[simp] theorem State.scanned_id (s : State) : (s.scanned).id = s.id := rfl
@[simp] theorem State.scanned_uncompressed (s : State) : (s.scanned).uncompressed = s.uncompressed := rfl
@[simp] theorem State.scanned_payloadSize (s : State) : (s.scanned).payloadSize = s.payloadSize := rfl
@[simp] theorem State.scanned_srcBaseHi (s : State) : (s.scanned).srcBaseHi = s.srcBaseHi := rfl
@[simp] theorem State.scanned_dstBaseHi (s : State) : (s.scanned).dstBaseHi = s.dstBaseHi := rfl
@[simp] theorem State.scanned_dstCap (s : State) : (s.scanned).dstCap = s.dstCap := rfl
@[simp] theorem State.scanned_partFirstLine (s : State) : (s.scanned).partFirstLine = s.partFirstLine := rfl
@[simp] theorem State.scanned_partLineCount (s : State) : (s.scanned).partLineCount = s.partLineCount := rfl
@[simp] theorem State.scanned_reserved (s : State) : (s.scanned).reserved = s.reserved := rfl
@[simp] theorem State.scanned_i (s : State) : (s.scanned).i = passNext s.pix s.b s.i := rfl
@[simp] theorem State.scanned_j (s : State) : (s.scanned).j = s.i + runLength s.pix s.i s.b := rfl
@[simp] theorem State.scanned_k (s : State) : (s.scanned).k = passPending s.pix s.b s.i s.k := rfl
@[simp] theorem State.scanned_out (s : State) : (s.scanned).out = s.out := rfl
@[simp] theorem State.scanned_first (s : State) : (s.scanned).first = passFirst s.pix s.b s.i s.first := rfl
@[simp] theorem State.scanned_a (s : State) : (s.scanned).a = s.a := rfl
@[simp] theorem State.scanned_b (s : State) : (s.scanned).b = s.b := rfl
@[simp] theorem State.scanned_src (s : State) : (s.scanned).src = s.src := rfl
@[simp] theorem State.scanned_dst (s : State) : (s.scanned).dst = s.dst := rfl
@[simp] theorem State.scanned_cw (s : State) : (s.scanned).cw = s.cw := rfl
@[simp] theorem State.scanned_count (s : State) : (s.scanned).count = s.count := rfl
@[simp] theorem State.scanned_line (s : State) : (s.scanned).line = s.line := rfl
@[simp] theorem State.scanned_mem (s : State) : (s.scanned).mem = s.mem := rfl
@[simp] theorem State.scanned_devices (s : State) : (s.scanned).devices = s.devices := rfl
@[simp] theorem State.scanned_instances (s : State) : (s.scanned).instances = s.instances := rfl
@[simp] theorem State.scanned_others (s : State) : (s.scanned).others = s.others := rfl
@[simp] theorem State.scanned_unseen (s : State) : (s.scanned).unseen = s.unseen := rfl
@[simp] theorem State.scanned_inputs (s : State) : (s.scanned).inputs = s.inputs := rfl
@[simp] theorem State.scanned_reply (s : State) : (s.scanned).reply = s.reply := rfl
@[simp] theorem State.scanned_draws (s : State) : (s.scanned).draws = s.draws := rfl
@[simp] theorem State.scanned_pixelCount (s : State) : (s.scanned).pixelCount = s.pixelCount := rfl
@[simp] theorem State.scanned_payload (s : State) : (s.scanned).payload = s.payload := rfl
@[simp] theorem State.scanned_frameBytes (s : State) : (s.scanned).frameBytes = s.frameBytes := rfl
@[simp] theorem State.scanned_lineStart (s : State) : (s.scanned).lineStart = s.lineStart := rfl
@[simp] theorem State.scanned_srcBase (s : State) : (s.scanned).srcBase = s.srcBase := rfl
@[simp] theorem State.scanned_dstBase (s : State) : (s.scanned).dstBase = s.dstBase := rfl
@[simp] theorem State.scanned_srcAddr (s : State) : (s.scanned).srcAddr = s.srcAddr := rfl
@[simp] theorem State.scanned_dstAddr (s : State) : (s.scanned).dstAddr = s.dstAddr := rfl
@[simp] theorem State.scanned_pix (s : State) : (s.scanned).pix = s.pix := rfl
@[simp] theorem State.scanned_srcWord (s : State) : (s.scanned).srcWord = s.srcWord := rfl
@[simp] theorem State.scanned_dstPix (s : State) : (s.scanned).dstPix = s.dstPix := rfl
@[simp] theorem State.scanned_firstLine (s : State) : (s.scanned).firstLine = s.firstLine := rfl
@[simp] theorem State.scanned_lineCount (s : State) : (s.scanned).lineCount = s.lineCount := rfl
@[simp] theorem State.scanned_bandStart (s : State) : (s.scanned).bandStart = s.bandStart := rfl
@[simp] theorem State.scanned_bandEnd (s : State) : (s.scanned).bandEnd = s.bandEnd := rfl
@[simp] theorem State.scanned_frameSource (s : State) : (s.scanned).frameSource = s.frameSource := rfl
@[simp] theorem State.scanned_streamDest (s : State) : (s.scanned).streamDest = s.streamDest := rfl
@[simp] theorem State.scanned_streamSource (s : State) : (s.scanned).streamSource = s.streamSource := rfl
@[simp] theorem State.scanned_frameDest (s : State) : (s.scanned).frameDest = s.frameDest := rfl
@[simp] theorem State.scanned_sourceOf (s : State) : (s.scanned).sourceOf = s.sourceOf := rfl
@[simp] theorem State.scanned_destOf (s : State) : (s.scanned).destOf = s.destOf := rfl
@[simp] theorem State.scanned_pixelSource (s : State) : (s.scanned).pixelSource = s.pixelSource := rfl
@[simp] theorem State.scanned_activeSource (s : State) : (s.scanned).activeSource = s.activeSource := rfl
@[simp] theorem State.scanned_activeDest (s : State) : (s.scanned).activeDest = s.activeDest := rfl
@[simp] theorem State.scanned_activeClaim (s : State) : (s.scanned).activeClaim = s.activeClaim := rfl
@[simp] theorem State.scanned_heldSources (s : State) : (s.scanned).heldSources = s.heldSources := rfl
@[simp] theorem State.scanned_heldDests (s : State) : (s.scanned).heldDests = s.heldDests := rfl
@[simp] theorem State.scanned_busy (s : State) : (s.scanned).busy = s.busy := rfl

/-! ### flushed (41_encoder R146) -/

@[simp] theorem State.flushed_phase (s : State) : (s.flushed).phase = s.phase := rfl
@[simp] theorem State.flushed_done (s : State) : (s.flushed).done = s.done := rfl
@[simp] theorem State.flushed_cmdErr (s : State) : (s.flushed).cmdErr = s.cmdErr := rfl
@[simp] theorem State.flushed_doneIe (s : State) : (s.flushed).doneIe = s.doneIe := rfl
@[simp] theorem State.flushed_result (s : State) : (s.flushed).result = s.result := rfl
@[simp] theorem State.flushed_magic (s : State) : (s.flushed).magic = s.magic := rfl
@[simp] theorem State.flushed_version (s : State) : (s.flushed).version = s.version := rfl
@[simp] theorem State.flushed_subVersion (s : State) : (s.flushed).subVersion = s.subVersion := rfl
@[simp] theorem State.flushed_width (s : State) : (s.flushed).width = s.width := rfl
@[simp] theorem State.flushed_height (s : State) : (s.flushed).height = s.height := rfl
@[simp] theorem State.flushed_id (s : State) : (s.flushed).id = s.id := rfl
@[simp] theorem State.flushed_uncompressed (s : State) : (s.flushed).uncompressed = s.uncompressed := rfl
@[simp] theorem State.flushed_payloadSize (s : State) : (s.flushed).payloadSize = s.payloadSize := rfl
@[simp] theorem State.flushed_srcBaseHi (s : State) : (s.flushed).srcBaseHi = s.srcBaseHi := rfl
@[simp] theorem State.flushed_dstBaseHi (s : State) : (s.flushed).dstBaseHi = s.dstBaseHi := rfl
@[simp] theorem State.flushed_dstCap (s : State) : (s.flushed).dstCap = s.dstCap := rfl
@[simp] theorem State.flushed_partFirstLine (s : State) : (s.flushed).partFirstLine = s.partFirstLine := rfl
@[simp] theorem State.flushed_partLineCount (s : State) : (s.flushed).partLineCount = s.partLineCount := rfl
@[simp] theorem State.flushed_reserved (s : State) : (s.flushed).reserved = s.reserved := rfl
@[simp] theorem State.flushed_i (s : State) : (s.flushed).i = s.i := rfl
@[simp] theorem State.flushed_j (s : State) : (s.flushed).j = s.j := rfl
@[simp] theorem State.flushed_k (s : State) : (s.flushed).k = s.k := rfl
@[simp] theorem State.flushed_out (s : State) : (s.flushed).out = s.out := rfl
@[simp] theorem State.flushed_first (s : State) : (s.flushed).first = tailFirst s.b s.k s.first := rfl
@[simp] theorem State.flushed_a (s : State) : (s.flushed).a = s.a := rfl
@[simp] theorem State.flushed_b (s : State) : (s.flushed).b = s.b := rfl
@[simp] theorem State.flushed_src (s : State) : (s.flushed).src = s.src := rfl
@[simp] theorem State.flushed_dst (s : State) : (s.flushed).dst = s.dst := rfl
@[simp] theorem State.flushed_cw (s : State) : (s.flushed).cw = s.cw := rfl
@[simp] theorem State.flushed_count (s : State) : (s.flushed).count = s.count := rfl
@[simp] theorem State.flushed_line (s : State) : (s.flushed).line = s.line := rfl
@[simp] theorem State.flushed_mem (s : State) : (s.flushed).mem = s.mem := rfl
@[simp] theorem State.flushed_devices (s : State) : (s.flushed).devices = s.devices := rfl
@[simp] theorem State.flushed_instances (s : State) : (s.flushed).instances = s.instances := rfl
@[simp] theorem State.flushed_others (s : State) : (s.flushed).others = s.others := rfl
@[simp] theorem State.flushed_unseen (s : State) : (s.flushed).unseen = s.unseen := rfl
@[simp] theorem State.flushed_inputs (s : State) : (s.flushed).inputs = s.inputs := rfl
@[simp] theorem State.flushed_reply (s : State) : (s.flushed).reply = s.reply := rfl
@[simp] theorem State.flushed_draws (s : State) : (s.flushed).draws = s.draws := rfl
@[simp] theorem State.flushed_pixelCount (s : State) : (s.flushed).pixelCount = s.pixelCount := rfl
@[simp] theorem State.flushed_payload (s : State) : (s.flushed).payload = s.payload := rfl
@[simp] theorem State.flushed_frameBytes (s : State) : (s.flushed).frameBytes = s.frameBytes := rfl
@[simp] theorem State.flushed_lineStart (s : State) : (s.flushed).lineStart = s.lineStart := rfl
@[simp] theorem State.flushed_srcBase (s : State) : (s.flushed).srcBase = s.srcBase := rfl
@[simp] theorem State.flushed_dstBase (s : State) : (s.flushed).dstBase = s.dstBase := rfl
@[simp] theorem State.flushed_srcAddr (s : State) : (s.flushed).srcAddr = s.srcAddr := rfl
@[simp] theorem State.flushed_dstAddr (s : State) : (s.flushed).dstAddr = s.dstAddr := rfl
@[simp] theorem State.flushed_pix (s : State) : (s.flushed).pix = s.pix := rfl
@[simp] theorem State.flushed_srcWord (s : State) : (s.flushed).srcWord = s.srcWord := rfl
@[simp] theorem State.flushed_dstPix (s : State) : (s.flushed).dstPix = s.dstPix := rfl
@[simp] theorem State.flushed_firstLine (s : State) : (s.flushed).firstLine = s.firstLine := rfl
@[simp] theorem State.flushed_lineCount (s : State) : (s.flushed).lineCount = s.lineCount := rfl
@[simp] theorem State.flushed_bandStart (s : State) : (s.flushed).bandStart = s.bandStart := rfl
@[simp] theorem State.flushed_bandEnd (s : State) : (s.flushed).bandEnd = s.bandEnd := rfl
@[simp] theorem State.flushed_frameSource (s : State) : (s.flushed).frameSource = s.frameSource := rfl
@[simp] theorem State.flushed_streamDest (s : State) : (s.flushed).streamDest = s.streamDest := rfl
@[simp] theorem State.flushed_streamSource (s : State) : (s.flushed).streamSource = s.streamSource := rfl
@[simp] theorem State.flushed_frameDest (s : State) : (s.flushed).frameDest = s.frameDest := rfl
@[simp] theorem State.flushed_sourceOf (s : State) : (s.flushed).sourceOf = s.sourceOf := rfl
@[simp] theorem State.flushed_destOf (s : State) : (s.flushed).destOf = s.destOf := rfl
@[simp] theorem State.flushed_pixelSource (s : State) : (s.flushed).pixelSource = s.pixelSource := rfl
@[simp] theorem State.flushed_activeSource (s : State) : (s.flushed).activeSource = s.activeSource := rfl
@[simp] theorem State.flushed_activeDest (s : State) : (s.flushed).activeDest = s.activeDest := rfl
@[simp] theorem State.flushed_activeClaim (s : State) : (s.flushed).activeClaim = s.activeClaim := rfl
@[simp] theorem State.flushed_heldSources (s : State) : (s.flushed).heldSources = s.heldSources := rfl
@[simp] theorem State.flushed_heldDests (s : State) : (s.flushed).heldDests = s.heldDests := rfl
@[simp] theorem State.flushed_busy (s : State) : (s.flushed).busy = s.busy := rfl

/-! ### payloadWritten (41_encoder R148) -/

@[simp] theorem State.payloadWritten_phase (s : State) (n : Nat) : (s.payloadWritten n).phase = s.phase := rfl
@[simp] theorem State.payloadWritten_done (s : State) (n : Nat) : (s.payloadWritten n).done = s.done := rfl
@[simp] theorem State.payloadWritten_cmdErr (s : State) (n : Nat) : (s.payloadWritten n).cmdErr = s.cmdErr := rfl
@[simp] theorem State.payloadWritten_doneIe (s : State) (n : Nat) : (s.payloadWritten n).doneIe = s.doneIe := rfl
@[simp] theorem State.payloadWritten_result (s : State) (n : Nat) : (s.payloadWritten n).result = s.result := rfl
@[simp] theorem State.payloadWritten_magic (s : State) (n : Nat) : (s.payloadWritten n).magic = s.magic := rfl
@[simp] theorem State.payloadWritten_version (s : State) (n : Nat) : (s.payloadWritten n).version = s.version := rfl
@[simp] theorem State.payloadWritten_subVersion (s : State) (n : Nat) : (s.payloadWritten n).subVersion = s.subVersion := rfl
@[simp] theorem State.payloadWritten_width (s : State) (n : Nat) : (s.payloadWritten n).width = s.width := rfl
@[simp] theorem State.payloadWritten_height (s : State) (n : Nat) : (s.payloadWritten n).height = s.height := rfl
@[simp] theorem State.payloadWritten_id (s : State) (n : Nat) : (s.payloadWritten n).id = s.id := rfl
@[simp] theorem State.payloadWritten_uncompressed (s : State) (n : Nat) : (s.payloadWritten n).uncompressed = s.uncompressed := rfl
@[simp] theorem State.payloadWritten_payloadSize (s : State) (n : Nat) : (s.payloadWritten n).payloadSize = BitVec.ofNat 32 n := rfl
@[simp] theorem State.payloadWritten_srcBaseHi (s : State) (n : Nat) : (s.payloadWritten n).srcBaseHi = s.srcBaseHi := rfl
@[simp] theorem State.payloadWritten_dstBaseHi (s : State) (n : Nat) : (s.payloadWritten n).dstBaseHi = s.dstBaseHi := rfl
@[simp] theorem State.payloadWritten_dstCap (s : State) (n : Nat) : (s.payloadWritten n).dstCap = s.dstCap := rfl
@[simp] theorem State.payloadWritten_partFirstLine (s : State) (n : Nat) : (s.payloadWritten n).partFirstLine = s.partFirstLine := rfl
@[simp] theorem State.payloadWritten_partLineCount (s : State) (n : Nat) : (s.payloadWritten n).partLineCount = s.partLineCount := rfl
@[simp] theorem State.payloadWritten_reserved (s : State) (n : Nat) : (s.payloadWritten n).reserved = s.reserved := rfl
@[simp] theorem State.payloadWritten_i (s : State) (n : Nat) : (s.payloadWritten n).i = s.i := rfl
@[simp] theorem State.payloadWritten_j (s : State) (n : Nat) : (s.payloadWritten n).j = s.j := rfl
@[simp] theorem State.payloadWritten_k (s : State) (n : Nat) : (s.payloadWritten n).k = s.k := rfl
@[simp] theorem State.payloadWritten_out (s : State) (n : Nat) : (s.payloadWritten n).out = s.out := rfl
@[simp] theorem State.payloadWritten_first (s : State) (n : Nat) : (s.payloadWritten n).first = s.first := rfl
@[simp] theorem State.payloadWritten_a (s : State) (n : Nat) : (s.payloadWritten n).a = s.a := rfl
@[simp] theorem State.payloadWritten_b (s : State) (n : Nat) : (s.payloadWritten n).b = s.b := rfl
@[simp] theorem State.payloadWritten_src (s : State) (n : Nat) : (s.payloadWritten n).src = s.src := rfl
@[simp] theorem State.payloadWritten_dst (s : State) (n : Nat) : (s.payloadWritten n).dst = s.dst := rfl
@[simp] theorem State.payloadWritten_cw (s : State) (n : Nat) : (s.payloadWritten n).cw = s.cw := rfl
@[simp] theorem State.payloadWritten_count (s : State) (n : Nat) : (s.payloadWritten n).count = s.count := rfl
@[simp] theorem State.payloadWritten_line (s : State) (n : Nat) : (s.payloadWritten n).line = s.line := rfl
@[simp] theorem State.payloadWritten_mem (s : State) (n : Nat) : (s.payloadWritten n).mem = s.mem := rfl
@[simp] theorem State.payloadWritten_devices (s : State) (n : Nat) : (s.payloadWritten n).devices = s.devices := rfl
@[simp] theorem State.payloadWritten_instances (s : State) (n : Nat) : (s.payloadWritten n).instances = s.instances := rfl
@[simp] theorem State.payloadWritten_others (s : State) (n : Nat) : (s.payloadWritten n).others = s.others := rfl
@[simp] theorem State.payloadWritten_unseen (s : State) (n : Nat) : (s.payloadWritten n).unseen = s.unseen := rfl
@[simp] theorem State.payloadWritten_inputs (s : State) (n : Nat) : (s.payloadWritten n).inputs = s.inputs := rfl
@[simp] theorem State.payloadWritten_reply (s : State) (n : Nat) : (s.payloadWritten n).reply = s.reply := rfl
@[simp] theorem State.payloadWritten_draws (s : State) (n : Nat) : (s.payloadWritten n).draws = s.draws := rfl
@[simp] theorem State.payloadWritten_pixelCount (s : State) (n : Nat) : (s.payloadWritten n).pixelCount = s.pixelCount := rfl
@[simp] theorem State.payloadWritten_frameBytes (s : State) (n : Nat) : (s.payloadWritten n).frameBytes = s.frameBytes := rfl
@[simp] theorem State.payloadWritten_lineStart (s : State) (n : Nat) : (s.payloadWritten n).lineStart = s.lineStart := rfl
@[simp] theorem State.payloadWritten_srcBase (s : State) (n : Nat) : (s.payloadWritten n).srcBase = s.srcBase := rfl
@[simp] theorem State.payloadWritten_dstBase (s : State) (n : Nat) : (s.payloadWritten n).dstBase = s.dstBase := rfl
@[simp] theorem State.payloadWritten_srcAddr (s : State) (n : Nat) : (s.payloadWritten n).srcAddr = s.srcAddr := rfl
@[simp] theorem State.payloadWritten_dstAddr (s : State) (n : Nat) : (s.payloadWritten n).dstAddr = s.dstAddr := rfl
@[simp] theorem State.payloadWritten_pix (s : State) (n : Nat) : (s.payloadWritten n).pix = s.pix := rfl
@[simp] theorem State.payloadWritten_srcWord (s : State) (n : Nat) : (s.payloadWritten n).srcWord = s.srcWord := rfl
@[simp] theorem State.payloadWritten_dstPix (s : State) (n : Nat) : (s.payloadWritten n).dstPix = s.dstPix := rfl
@[simp] theorem State.payloadWritten_firstLine (s : State) (n : Nat) : (s.payloadWritten n).firstLine = s.firstLine := rfl
@[simp] theorem State.payloadWritten_lineCount (s : State) (n : Nat) : (s.payloadWritten n).lineCount = s.lineCount := rfl
@[simp] theorem State.payloadWritten_bandStart (s : State) (n : Nat) : (s.payloadWritten n).bandStart = s.bandStart := rfl
@[simp] theorem State.payloadWritten_bandEnd (s : State) (n : Nat) : (s.payloadWritten n).bandEnd = s.bandEnd := rfl
@[simp] theorem State.payloadWritten_frameSource (s : State) (n : Nat) : (s.payloadWritten n).frameSource = s.frameSource := rfl
@[simp] theorem State.payloadWritten_streamDest (s : State) (n : Nat) : (s.payloadWritten n).streamDest = s.streamDest := rfl
@[simp] theorem State.payloadWritten_frameDest (s : State) (n : Nat) : (s.payloadWritten n).frameDest = s.frameDest := rfl
@[simp] theorem State.payloadWritten_destOf (s : State) (n : Nat) : (s.payloadWritten n).destOf = s.destOf := rfl
@[simp] theorem State.payloadWritten_pixelSource (s : State) (n : Nat) : (s.payloadWritten n).pixelSource = s.pixelSource := rfl
@[simp] theorem State.payloadWritten_activeDest (s : State) (n : Nat) : (s.payloadWritten n).activeDest = s.activeDest := rfl
@[simp] theorem State.payloadWritten_heldDests (s : State) (n : Nat) : (s.payloadWritten n).heldDests = s.heldDests := rfl
@[simp] theorem State.payloadWritten_busy (s : State) (n : Nat) : (s.payloadWritten n).busy = s.busy := rfl

/-! ### copied (42_decoder R185) -/

@[simp] theorem State.copied_phase (s : State) (n : Nat) : (s.copied n).phase = s.phase := rfl
@[simp] theorem State.copied_done (s : State) (n : Nat) : (s.copied n).done = s.done := rfl
@[simp] theorem State.copied_cmdErr (s : State) (n : Nat) : (s.copied n).cmdErr = s.cmdErr := rfl
@[simp] theorem State.copied_doneIe (s : State) (n : Nat) : (s.copied n).doneIe = s.doneIe := rfl
@[simp] theorem State.copied_result (s : State) (n : Nat) : (s.copied n).result = s.result := rfl
@[simp] theorem State.copied_magic (s : State) (n : Nat) : (s.copied n).magic = s.magic := rfl
@[simp] theorem State.copied_version (s : State) (n : Nat) : (s.copied n).version = s.version := rfl
@[simp] theorem State.copied_subVersion (s : State) (n : Nat) : (s.copied n).subVersion = s.subVersion := rfl
@[simp] theorem State.copied_width (s : State) (n : Nat) : (s.copied n).width = s.width := rfl
@[simp] theorem State.copied_height (s : State) (n : Nat) : (s.copied n).height = s.height := rfl
@[simp] theorem State.copied_id (s : State) (n : Nat) : (s.copied n).id = s.id := rfl
@[simp] theorem State.copied_uncompressed (s : State) (n : Nat) : (s.copied n).uncompressed = s.uncompressed := rfl
@[simp] theorem State.copied_payloadSize (s : State) (n : Nat) : (s.copied n).payloadSize = s.payloadSize := rfl
@[simp] theorem State.copied_srcBaseHi (s : State) (n : Nat) : (s.copied n).srcBaseHi = s.srcBaseHi := rfl
@[simp] theorem State.copied_dstBaseHi (s : State) (n : Nat) : (s.copied n).dstBaseHi = s.dstBaseHi := rfl
@[simp] theorem State.copied_dstCap (s : State) (n : Nat) : (s.copied n).dstCap = s.dstCap := rfl
@[simp] theorem State.copied_partFirstLine (s : State) (n : Nat) : (s.copied n).partFirstLine = s.partFirstLine := rfl
@[simp] theorem State.copied_partLineCount (s : State) (n : Nat) : (s.copied n).partLineCount = s.partLineCount := rfl
@[simp] theorem State.copied_reserved (s : State) (n : Nat) : (s.copied n).reserved = s.reserved := rfl
@[simp] theorem State.copied_i (s : State) (n : Nat) : (s.copied n).i = s.i := rfl
@[simp] theorem State.copied_j (s : State) (n : Nat) : (s.copied n).j = s.j := rfl
@[simp] theorem State.copied_k (s : State) (n : Nat) : (s.copied n).k = s.k := rfl
@[simp] theorem State.copied_out (s : State) (n : Nat) : (s.copied n).out = s.out := rfl
@[simp] theorem State.copied_first (s : State) (n : Nat) : (s.copied n).first = s.first := rfl
@[simp] theorem State.copied_a (s : State) (n : Nat) : (s.copied n).a = s.a := rfl
@[simp] theorem State.copied_b (s : State) (n : Nat) : (s.copied n).b = s.b := rfl
@[simp] theorem State.copied_src (s : State) (n : Nat) : (s.copied n).src = s.src + 4 * n := rfl
@[simp] theorem State.copied_dst (s : State) (n : Nat) : (s.copied n).dst = s.dst + n := rfl
@[simp] theorem State.copied_cw (s : State) (n : Nat) : (s.copied n).cw = s.cw := rfl
@[simp] theorem State.copied_count (s : State) (n : Nat) : (s.copied n).count = s.count := rfl
@[simp] theorem State.copied_line (s : State) (n : Nat) : (s.copied n).line = s.line := rfl
@[simp] theorem State.copied_mem (s : State) (n : Nat) : (s.copied n).mem = s.mem.copyWords (s.srcAddr s.src) (s.dstAddr (4 * s.dst)) n := rfl
@[simp] theorem State.copied_devices (s : State) (n : Nat) : (s.copied n).devices = s.devices := rfl
@[simp] theorem State.copied_instances (s : State) (n : Nat) : (s.copied n).instances = s.instances := rfl
@[simp] theorem State.copied_others (s : State) (n : Nat) : (s.copied n).others = s.others := rfl
@[simp] theorem State.copied_unseen (s : State) (n : Nat) : (s.copied n).unseen = s.unseen := rfl
@[simp] theorem State.copied_inputs (s : State) (n : Nat) : (s.copied n).inputs = s.inputs := rfl
@[simp] theorem State.copied_reply (s : State) (n : Nat) : (s.copied n).reply = s.reply := rfl
@[simp] theorem State.copied_draws (s : State) (n : Nat) : (s.copied n).draws = s.draws := rfl
@[simp] theorem State.copied_pixelCount (s : State) (n : Nat) : (s.copied n).pixelCount = s.pixelCount := rfl
@[simp] theorem State.copied_payload (s : State) (n : Nat) : (s.copied n).payload = s.payload := rfl
@[simp] theorem State.copied_frameBytes (s : State) (n : Nat) : (s.copied n).frameBytes = s.frameBytes := rfl
@[simp] theorem State.copied_lineStart (s : State) (n : Nat) : (s.copied n).lineStart = s.lineStart := rfl
@[simp] theorem State.copied_srcBase (s : State) (n : Nat) : (s.copied n).srcBase = s.srcBase := rfl
@[simp] theorem State.copied_dstBase (s : State) (n : Nat) : (s.copied n).dstBase = s.dstBase := rfl
@[simp] theorem State.copied_srcAddr (s : State) (n : Nat) : (s.copied n).srcAddr = s.srcAddr := rfl
@[simp] theorem State.copied_dstAddr (s : State) (n : Nat) : (s.copied n).dstAddr = s.dstAddr := rfl
@[simp] theorem State.copied_firstLine (s : State) (n : Nat) : (s.copied n).firstLine = s.firstLine := rfl
@[simp] theorem State.copied_lineCount (s : State) (n : Nat) : (s.copied n).lineCount = s.lineCount := rfl
@[simp] theorem State.copied_bandStart (s : State) (n : Nat) : (s.copied n).bandStart = s.bandStart := rfl
@[simp] theorem State.copied_bandEnd (s : State) (n : Nat) : (s.copied n).bandEnd = s.bandEnd := rfl
@[simp] theorem State.copied_frameSource (s : State) (n : Nat) : (s.copied n).frameSource = s.frameSource := rfl
@[simp] theorem State.copied_streamDest (s : State) (n : Nat) : (s.copied n).streamDest = s.streamDest := rfl
@[simp] theorem State.copied_streamSource (s : State) (n : Nat) : (s.copied n).streamSource = s.streamSource := rfl
@[simp] theorem State.copied_frameDest (s : State) (n : Nat) : (s.copied n).frameDest = s.frameDest := rfl
@[simp] theorem State.copied_sourceOf (s : State) (n : Nat) : (s.copied n).sourceOf = s.sourceOf := rfl
@[simp] theorem State.copied_destOf (s : State) (n : Nat) : (s.copied n).destOf = s.destOf := rfl
@[simp] theorem State.copied_pixelSource (s : State) (n : Nat) : (s.copied n).pixelSource = s.pixelSource := rfl
@[simp] theorem State.copied_activeSource (s : State) (n : Nat) : (s.copied n).activeSource = s.activeSource := rfl
@[simp] theorem State.copied_activeDest (s : State) (n : Nat) : (s.copied n).activeDest = s.activeDest := rfl
@[simp] theorem State.copied_activeClaim (s : State) (n : Nat) : (s.copied n).activeClaim = s.activeClaim := rfl
@[simp] theorem State.copied_heldSources (s : State) (n : Nat) : (s.copied n).heldSources = s.heldSources := rfl
@[simp] theorem State.copied_heldDests (s : State) (n : Nat) : (s.copied n).heldDests = s.heldDests := rfl
@[simp] theorem State.copied_busy (s : State) (n : Nat) : (s.copied n).busy = s.busy := rfl

/-! ### filled (42_decoder R187) -/

@[simp] theorem State.filled_phase (s : State) (n : Nat) : (s.filled n).phase = s.phase := rfl
@[simp] theorem State.filled_done (s : State) (n : Nat) : (s.filled n).done = s.done := rfl
@[simp] theorem State.filled_cmdErr (s : State) (n : Nat) : (s.filled n).cmdErr = s.cmdErr := rfl
@[simp] theorem State.filled_doneIe (s : State) (n : Nat) : (s.filled n).doneIe = s.doneIe := rfl
@[simp] theorem State.filled_result (s : State) (n : Nat) : (s.filled n).result = s.result := rfl
@[simp] theorem State.filled_magic (s : State) (n : Nat) : (s.filled n).magic = s.magic := rfl
@[simp] theorem State.filled_version (s : State) (n : Nat) : (s.filled n).version = s.version := rfl
@[simp] theorem State.filled_subVersion (s : State) (n : Nat) : (s.filled n).subVersion = s.subVersion := rfl
@[simp] theorem State.filled_width (s : State) (n : Nat) : (s.filled n).width = s.width := rfl
@[simp] theorem State.filled_height (s : State) (n : Nat) : (s.filled n).height = s.height := rfl
@[simp] theorem State.filled_id (s : State) (n : Nat) : (s.filled n).id = s.id := rfl
@[simp] theorem State.filled_uncompressed (s : State) (n : Nat) : (s.filled n).uncompressed = s.uncompressed := rfl
@[simp] theorem State.filled_payloadSize (s : State) (n : Nat) : (s.filled n).payloadSize = s.payloadSize := rfl
@[simp] theorem State.filled_srcBaseHi (s : State) (n : Nat) : (s.filled n).srcBaseHi = s.srcBaseHi := rfl
@[simp] theorem State.filled_dstBaseHi (s : State) (n : Nat) : (s.filled n).dstBaseHi = s.dstBaseHi := rfl
@[simp] theorem State.filled_dstCap (s : State) (n : Nat) : (s.filled n).dstCap = s.dstCap := rfl
@[simp] theorem State.filled_partFirstLine (s : State) (n : Nat) : (s.filled n).partFirstLine = s.partFirstLine := rfl
@[simp] theorem State.filled_partLineCount (s : State) (n : Nat) : (s.filled n).partLineCount = s.partLineCount := rfl
@[simp] theorem State.filled_reserved (s : State) (n : Nat) : (s.filled n).reserved = s.reserved := rfl
@[simp] theorem State.filled_i (s : State) (n : Nat) : (s.filled n).i = s.i := rfl
@[simp] theorem State.filled_j (s : State) (n : Nat) : (s.filled n).j = s.j := rfl
@[simp] theorem State.filled_k (s : State) (n : Nat) : (s.filled n).k = s.k := rfl
@[simp] theorem State.filled_out (s : State) (n : Nat) : (s.filled n).out = s.out := rfl
@[simp] theorem State.filled_first (s : State) (n : Nat) : (s.filled n).first = s.first := rfl
@[simp] theorem State.filled_a (s : State) (n : Nat) : (s.filled n).a = s.a := rfl
@[simp] theorem State.filled_b (s : State) (n : Nat) : (s.filled n).b = s.b := rfl
@[simp] theorem State.filled_src (s : State) (n : Nat) : (s.filled n).src = s.src + 4 := rfl
@[simp] theorem State.filled_dst (s : State) (n : Nat) : (s.filled n).dst = s.dst + n := rfl
@[simp] theorem State.filled_cw (s : State) (n : Nat) : (s.filled n).cw = s.cw := rfl
@[simp] theorem State.filled_count (s : State) (n : Nat) : (s.filled n).count = s.count := rfl
@[simp] theorem State.filled_line (s : State) (n : Nat) : (s.filled n).line = s.line := rfl
@[simp] theorem State.filled_mem (s : State) (n : Nat) : (s.filled n).mem = s.mem.fillWords (s.dstAddr (4 * s.dst)) (s.srcWord s.src) n := rfl
@[simp] theorem State.filled_devices (s : State) (n : Nat) : (s.filled n).devices = s.devices := rfl
@[simp] theorem State.filled_instances (s : State) (n : Nat) : (s.filled n).instances = s.instances := rfl
@[simp] theorem State.filled_others (s : State) (n : Nat) : (s.filled n).others = s.others := rfl
@[simp] theorem State.filled_unseen (s : State) (n : Nat) : (s.filled n).unseen = s.unseen := rfl
@[simp] theorem State.filled_inputs (s : State) (n : Nat) : (s.filled n).inputs = s.inputs := rfl
@[simp] theorem State.filled_reply (s : State) (n : Nat) : (s.filled n).reply = s.reply := rfl
@[simp] theorem State.filled_draws (s : State) (n : Nat) : (s.filled n).draws = s.draws := rfl
@[simp] theorem State.filled_pixelCount (s : State) (n : Nat) : (s.filled n).pixelCount = s.pixelCount := rfl
@[simp] theorem State.filled_payload (s : State) (n : Nat) : (s.filled n).payload = s.payload := rfl
@[simp] theorem State.filled_frameBytes (s : State) (n : Nat) : (s.filled n).frameBytes = s.frameBytes := rfl
@[simp] theorem State.filled_lineStart (s : State) (n : Nat) : (s.filled n).lineStart = s.lineStart := rfl
@[simp] theorem State.filled_srcBase (s : State) (n : Nat) : (s.filled n).srcBase = s.srcBase := rfl
@[simp] theorem State.filled_dstBase (s : State) (n : Nat) : (s.filled n).dstBase = s.dstBase := rfl
@[simp] theorem State.filled_srcAddr (s : State) (n : Nat) : (s.filled n).srcAddr = s.srcAddr := rfl
@[simp] theorem State.filled_dstAddr (s : State) (n : Nat) : (s.filled n).dstAddr = s.dstAddr := rfl
@[simp] theorem State.filled_firstLine (s : State) (n : Nat) : (s.filled n).firstLine = s.firstLine := rfl
@[simp] theorem State.filled_lineCount (s : State) (n : Nat) : (s.filled n).lineCount = s.lineCount := rfl
@[simp] theorem State.filled_bandStart (s : State) (n : Nat) : (s.filled n).bandStart = s.bandStart := rfl
@[simp] theorem State.filled_bandEnd (s : State) (n : Nat) : (s.filled n).bandEnd = s.bandEnd := rfl
@[simp] theorem State.filled_frameSource (s : State) (n : Nat) : (s.filled n).frameSource = s.frameSource := rfl
@[simp] theorem State.filled_streamDest (s : State) (n : Nat) : (s.filled n).streamDest = s.streamDest := rfl
@[simp] theorem State.filled_streamSource (s : State) (n : Nat) : (s.filled n).streamSource = s.streamSource := rfl
@[simp] theorem State.filled_frameDest (s : State) (n : Nat) : (s.filled n).frameDest = s.frameDest := rfl
@[simp] theorem State.filled_sourceOf (s : State) (n : Nat) : (s.filled n).sourceOf = s.sourceOf := rfl
@[simp] theorem State.filled_destOf (s : State) (n : Nat) : (s.filled n).destOf = s.destOf := rfl
@[simp] theorem State.filled_pixelSource (s : State) (n : Nat) : (s.filled n).pixelSource = s.pixelSource := rfl
@[simp] theorem State.filled_activeSource (s : State) (n : Nat) : (s.filled n).activeSource = s.activeSource := rfl
@[simp] theorem State.filled_activeDest (s : State) (n : Nat) : (s.filled n).activeDest = s.activeDest := rfl
@[simp] theorem State.filled_activeClaim (s : State) (n : Nat) : (s.filled n).activeClaim = s.activeClaim := rfl
@[simp] theorem State.filled_heldSources (s : State) (n : Nat) : (s.filled n).heldSources = s.heldSources := rfl
@[simp] theorem State.filled_heldDests (s : State) (n : Nat) : (s.filled n).heldDests = s.heldDests := rfl
@[simp] theorem State.filled_busy (s : State) (n : Nat) : (s.filled n).busy = s.busy := rfl

/-! ### headerInitialised (40_header R130) -/

@[simp] theorem State.headerInitialised_phase (s : State) : (s.headerInitialised).phase = s.phase := rfl
@[simp] theorem State.headerInitialised_done (s : State) : (s.headerInitialised).done = s.done := rfl
@[simp] theorem State.headerInitialised_cmdErr (s : State) : (s.headerInitialised).cmdErr = s.cmdErr := rfl
@[simp] theorem State.headerInitialised_doneIe (s : State) : (s.headerInitialised).doneIe = s.doneIe := rfl
@[simp] theorem State.headerInitialised_result (s : State) : (s.headerInitialised).result = s.result := rfl
@[simp] theorem State.headerInitialised_magic (s : State) : (s.headerInitialised).magic = Config.oifMagic := rfl
@[simp] theorem State.headerInitialised_version (s : State) : (s.headerInitialised).version = Config.oifVersion := rfl
@[simp] theorem State.headerInitialised_subVersion (s : State) : (s.headerInitialised).subVersion = Config.oifSubVersion := rfl
@[simp] theorem State.headerInitialised_width (s : State) : (s.headerInitialised).width = s.width := rfl
@[simp] theorem State.headerInitialised_height (s : State) : (s.headerInitialised).height = s.height := rfl
@[simp] theorem State.headerInitialised_id (s : State) : (s.headerInitialised).id = 0 := rfl
@[simp] theorem State.headerInitialised_uncompressed (s : State) : (s.headerInitialised).uncompressed = 0 := rfl
@[simp] theorem State.headerInitialised_payloadSize (s : State) : (s.headerInitialised).payloadSize = s.payloadSize := rfl
@[simp] theorem State.headerInitialised_srcBaseHi (s : State) : (s.headerInitialised).srcBaseHi = s.srcBaseHi := rfl
@[simp] theorem State.headerInitialised_dstBaseHi (s : State) : (s.headerInitialised).dstBaseHi = s.dstBaseHi := rfl
@[simp] theorem State.headerInitialised_dstCap (s : State) : (s.headerInitialised).dstCap = s.dstCap := rfl
@[simp] theorem State.headerInitialised_partFirstLine (s : State) : (s.headerInitialised).partFirstLine = s.partFirstLine := rfl
@[simp] theorem State.headerInitialised_partLineCount (s : State) : (s.headerInitialised).partLineCount = s.partLineCount := rfl
@[simp] theorem State.headerInitialised_reserved (s : State) : (s.headerInitialised).reserved = s.reserved.map fun _ => 0 := rfl
@[simp] theorem State.headerInitialised_i (s : State) : (s.headerInitialised).i = s.i := rfl
@[simp] theorem State.headerInitialised_j (s : State) : (s.headerInitialised).j = s.j := rfl
@[simp] theorem State.headerInitialised_k (s : State) : (s.headerInitialised).k = s.k := rfl
@[simp] theorem State.headerInitialised_out (s : State) : (s.headerInitialised).out = s.out := rfl
@[simp] theorem State.headerInitialised_first (s : State) : (s.headerInitialised).first = s.first := rfl
@[simp] theorem State.headerInitialised_a (s : State) : (s.headerInitialised).a = s.a := rfl
@[simp] theorem State.headerInitialised_b (s : State) : (s.headerInitialised).b = s.b := rfl
@[simp] theorem State.headerInitialised_src (s : State) : (s.headerInitialised).src = s.src := rfl
@[simp] theorem State.headerInitialised_dst (s : State) : (s.headerInitialised).dst = s.dst := rfl
@[simp] theorem State.headerInitialised_cw (s : State) : (s.headerInitialised).cw = s.cw := rfl
@[simp] theorem State.headerInitialised_count (s : State) : (s.headerInitialised).count = s.count := rfl
@[simp] theorem State.headerInitialised_line (s : State) : (s.headerInitialised).line = s.line := rfl
@[simp] theorem State.headerInitialised_mem (s : State) : (s.headerInitialised).mem = s.mem := rfl
@[simp] theorem State.headerInitialised_devices (s : State) : (s.headerInitialised).devices = s.devices := rfl
@[simp] theorem State.headerInitialised_instances (s : State) : (s.headerInitialised).instances = s.instances := rfl
@[simp] theorem State.headerInitialised_others (s : State) : (s.headerInitialised).others = s.others := rfl
@[simp] theorem State.headerInitialised_unseen (s : State) : (s.headerInitialised).unseen = s.unseen := rfl
@[simp] theorem State.headerInitialised_inputs (s : State) : (s.headerInitialised).inputs = s.inputs := rfl
@[simp] theorem State.headerInitialised_reply (s : State) : (s.headerInitialised).reply = s.reply := rfl
@[simp] theorem State.headerInitialised_draws (s : State) : (s.headerInitialised).draws = s.draws := rfl
@[simp] theorem State.headerInitialised_pixelCount (s : State) : (s.headerInitialised).pixelCount = s.pixelCount := rfl
@[simp] theorem State.headerInitialised_payload (s : State) : (s.headerInitialised).payload = s.payload := rfl
@[simp] theorem State.headerInitialised_frameBytes (s : State) : (s.headerInitialised).frameBytes = s.frameBytes := rfl
@[simp] theorem State.headerInitialised_lineStart (s : State) : (s.headerInitialised).lineStart = s.lineStart := rfl
@[simp] theorem State.headerInitialised_srcBase (s : State) : (s.headerInitialised).srcBase = s.srcBase := rfl
@[simp] theorem State.headerInitialised_dstBase (s : State) : (s.headerInitialised).dstBase = s.dstBase := rfl
@[simp] theorem State.headerInitialised_srcAddr (s : State) : (s.headerInitialised).srcAddr = s.srcAddr := rfl
@[simp] theorem State.headerInitialised_dstAddr (s : State) : (s.headerInitialised).dstAddr = s.dstAddr := rfl
@[simp] theorem State.headerInitialised_pix (s : State) : (s.headerInitialised).pix = s.pix := rfl
@[simp] theorem State.headerInitialised_srcWord (s : State) : (s.headerInitialised).srcWord = s.srcWord := rfl
@[simp] theorem State.headerInitialised_dstPix (s : State) : (s.headerInitialised).dstPix = s.dstPix := rfl
@[simp] theorem State.headerInitialised_firstLine (s : State) : (s.headerInitialised).firstLine = s.firstLine := rfl
@[simp] theorem State.headerInitialised_lineCount (s : State) : (s.headerInitialised).lineCount = s.lineCount := rfl
@[simp] theorem State.headerInitialised_bandStart (s : State) : (s.headerInitialised).bandStart = s.bandStart := rfl
@[simp] theorem State.headerInitialised_bandEnd (s : State) : (s.headerInitialised).bandEnd = s.bandEnd := rfl
@[simp] theorem State.headerInitialised_frameSource (s : State) : (s.headerInitialised).frameSource = s.frameSource := rfl
@[simp] theorem State.headerInitialised_streamDest (s : State) : (s.headerInitialised).streamDest = s.streamDest := rfl
@[simp] theorem State.headerInitialised_streamSource (s : State) : (s.headerInitialised).streamSource = s.streamSource := rfl
@[simp] theorem State.headerInitialised_frameDest (s : State) : (s.headerInitialised).frameDest = s.frameDest := rfl
@[simp] theorem State.headerInitialised_sourceOf (s : State) : (s.headerInitialised).sourceOf = s.sourceOf := rfl
@[simp] theorem State.headerInitialised_destOf (s : State) : (s.headerInitialised).destOf = s.destOf := rfl
@[simp] theorem State.headerInitialised_pixelSource (s : State) : (s.headerInitialised).pixelSource = s.pixelSource := rfl
@[simp] theorem State.headerInitialised_activeSource (s : State) : (s.headerInitialised).activeSource = s.activeSource := rfl
@[simp] theorem State.headerInitialised_activeDest (s : State) : (s.headerInitialised).activeDest = s.activeDest := rfl
@[simp] theorem State.headerInitialised_activeClaim (s : State) : (s.headerInitialised).activeClaim = s.activeClaim := rfl
@[simp] theorem State.headerInitialised_heldSources (s : State) : (s.headerInitialised).heldSources = s.heldSources := rfl
@[simp] theorem State.headerInitialised_heldDests (s : State) : (s.headerInitialised).heldDests = s.heldDests := rfl
@[simp] theorem State.headerInitialised_busy (s : State) : (s.headerInitialised).busy = s.busy := rfl

/-! ### seen (20_memory R80 item 2) -/

@[simp] theorem State.seen_phase (s : State) : (s.seen).phase = s.phase := rfl
@[simp] theorem State.seen_done (s : State) : (s.seen).done = s.done := rfl
@[simp] theorem State.seen_cmdErr (s : State) : (s.seen).cmdErr = s.cmdErr := rfl
@[simp] theorem State.seen_doneIe (s : State) : (s.seen).doneIe = s.doneIe := rfl
@[simp] theorem State.seen_result (s : State) : (s.seen).result = s.result := rfl
@[simp] theorem State.seen_magic (s : State) : (s.seen).magic = s.magic := rfl
@[simp] theorem State.seen_version (s : State) : (s.seen).version = s.version := rfl
@[simp] theorem State.seen_subVersion (s : State) : (s.seen).subVersion = s.subVersion := rfl
@[simp] theorem State.seen_width (s : State) : (s.seen).width = s.width := rfl
@[simp] theorem State.seen_height (s : State) : (s.seen).height = s.height := rfl
@[simp] theorem State.seen_id (s : State) : (s.seen).id = s.id := rfl
@[simp] theorem State.seen_uncompressed (s : State) : (s.seen).uncompressed = s.uncompressed := rfl
@[simp] theorem State.seen_payloadSize (s : State) : (s.seen).payloadSize = s.payloadSize := rfl
@[simp] theorem State.seen_srcBaseHi (s : State) : (s.seen).srcBaseHi = s.srcBaseHi := rfl
@[simp] theorem State.seen_dstBaseHi (s : State) : (s.seen).dstBaseHi = s.dstBaseHi := rfl
@[simp] theorem State.seen_dstCap (s : State) : (s.seen).dstCap = s.dstCap := rfl
@[simp] theorem State.seen_partFirstLine (s : State) : (s.seen).partFirstLine = s.partFirstLine := rfl
@[simp] theorem State.seen_partLineCount (s : State) : (s.seen).partLineCount = s.partLineCount := rfl
@[simp] theorem State.seen_reserved (s : State) : (s.seen).reserved = s.reserved := rfl
@[simp] theorem State.seen_i (s : State) : (s.seen).i = s.i := rfl
@[simp] theorem State.seen_j (s : State) : (s.seen).j = s.j := rfl
@[simp] theorem State.seen_k (s : State) : (s.seen).k = s.k := rfl
@[simp] theorem State.seen_out (s : State) : (s.seen).out = s.out := rfl
@[simp] theorem State.seen_first (s : State) : (s.seen).first = s.first := rfl
@[simp] theorem State.seen_a (s : State) : (s.seen).a = s.a := rfl
@[simp] theorem State.seen_b (s : State) : (s.seen).b = s.b := rfl
@[simp] theorem State.seen_src (s : State) : (s.seen).src = s.src := rfl
@[simp] theorem State.seen_dst (s : State) : (s.seen).dst = s.dst := rfl
@[simp] theorem State.seen_cw (s : State) : (s.seen).cw = s.cw := rfl
@[simp] theorem State.seen_count (s : State) : (s.seen).count = s.count := rfl
@[simp] theorem State.seen_line (s : State) : (s.seen).line = s.line := rfl
@[simp] theorem State.seen_mem (s : State) : (s.seen).mem = s.mem := rfl
@[simp] theorem State.seen_devices (s : State) : (s.seen).devices = s.devices := rfl
@[simp] theorem State.seen_instances (s : State) : (s.seen).instances = s.instances := rfl
@[simp] theorem State.seen_others (s : State) : (s.seen).others = s.others := rfl
@[simp] theorem State.seen_unseen (s : State) : (s.seen).unseen = [] := rfl
@[simp] theorem State.seen_inputs (s : State) : (s.seen).inputs = s.inputs := rfl
@[simp] theorem State.seen_reply (s : State) : (s.seen).reply = s.reply := rfl
@[simp] theorem State.seen_draws (s : State) : (s.seen).draws = s.draws := rfl
@[simp] theorem State.seen_pixelCount (s : State) : (s.seen).pixelCount = s.pixelCount := rfl
@[simp] theorem State.seen_payload (s : State) : (s.seen).payload = s.payload := rfl
@[simp] theorem State.seen_frameBytes (s : State) : (s.seen).frameBytes = s.frameBytes := rfl
@[simp] theorem State.seen_lineStart (s : State) : (s.seen).lineStart = s.lineStart := rfl
@[simp] theorem State.seen_srcBase (s : State) : (s.seen).srcBase = s.srcBase := rfl
@[simp] theorem State.seen_dstBase (s : State) : (s.seen).dstBase = s.dstBase := rfl
@[simp] theorem State.seen_srcAddr (s : State) : (s.seen).srcAddr = s.srcAddr := rfl
@[simp] theorem State.seen_dstAddr (s : State) : (s.seen).dstAddr = s.dstAddr := rfl
@[simp] theorem State.seen_pix (s : State) : (s.seen).pix = s.pix := rfl
@[simp] theorem State.seen_srcWord (s : State) : (s.seen).srcWord = s.srcWord := rfl
@[simp] theorem State.seen_dstPix (s : State) : (s.seen).dstPix = s.dstPix := rfl
@[simp] theorem State.seen_firstLine (s : State) : (s.seen).firstLine = s.firstLine := rfl
@[simp] theorem State.seen_lineCount (s : State) : (s.seen).lineCount = s.lineCount := rfl
@[simp] theorem State.seen_bandStart (s : State) : (s.seen).bandStart = s.bandStart := rfl
@[simp] theorem State.seen_bandEnd (s : State) : (s.seen).bandEnd = s.bandEnd := rfl
@[simp] theorem State.seen_frameSource (s : State) : (s.seen).frameSource = s.frameSource := rfl
@[simp] theorem State.seen_streamDest (s : State) : (s.seen).streamDest = s.streamDest := rfl
@[simp] theorem State.seen_streamSource (s : State) : (s.seen).streamSource = s.streamSource := rfl
@[simp] theorem State.seen_frameDest (s : State) : (s.seen).frameDest = s.frameDest := rfl
@[simp] theorem State.seen_sourceOf (s : State) : (s.seen).sourceOf = s.sourceOf := rfl
@[simp] theorem State.seen_destOf (s : State) : (s.seen).destOf = s.destOf := rfl
@[simp] theorem State.seen_pixelSource (s : State) : (s.seen).pixelSource = s.pixelSource := rfl
@[simp] theorem State.seen_activeSource (s : State) : (s.seen).activeSource = s.activeSource := rfl
@[simp] theorem State.seen_activeDest (s : State) : (s.seen).activeDest = s.activeDest := rfl
@[simp] theorem State.seen_activeClaim (s : State) : (s.seen).activeClaim = s.activeClaim := rfl
@[simp] theorem State.seen_busy (s : State) : (s.seen).busy = s.busy := rfl

/-! ### STATUS.BUSY is the phase (10_state R34, R50) -/

theorem State.busy_eq_false {s : State} : s.busy = false ↔ s.phase = .idle := by
  unfold State.busy; split <;> simp_all

theorem State.busy_eq_true {s : State} : s.busy = true ↔ ∃ op, s.phase = .busy op := by
  unfold State.busy; split <;> simp_all

@[simp] theorem State.complete_busy (s : State) (code : ResultCode) : (s.complete code).busy = false := rfl
@[simp] theorem State.issue_busy (s : State) (op : Op) : (s.issue op).busy = true := rfl
@[simp] theorem State.complete_activeDest (s : State) (code : ResultCode) :
    (s.complete code).activeDest = Region.empty := rfl
@[simp] theorem State.complete_activeSource (s : State) (code : ResultCode) :
    (s.complete code).activeSource = Region.empty := rfl
@[simp] theorem State.issue_activeDest (s : State) (op : Op) : (s.issue op).activeDest = s.destOf op := rfl
@[simp] theorem State.issue_activeSource (s : State) (op : Op) : (s.issue op).activeSource = s.sourceOf op := rfl

end Sys2Proof.Machine
end

