-- ==== Sys2Proof/Laws/Exec.lean ====
section
/-! SUPPORT. For each shared operation of the machine, everything it can do, said once: the records, the commands, the engine's
turns and the machine's turn. Later proofs cite these and do not unfold an operation. -/

namespace Sys2Proof.Machine

variable {s t : State} {count : Nat}

@[simp] theorem andThen_next (s : State) (f : State → Answer) : andThen (.next s) f = f s := rfl
@[simp] theorem andThen_fault (e : Fault) (f : State → Answer) : andThen (.fault e) f = .fault e := rfl
@[simp] theorem andThen_refused (e : Refusal) (f : State → Answer) : andThen (.refused e) f = .refused e := rfl

theorem andThen_eq_next {r : Answer} {f : State → Answer} :
    andThen r f = .next t ↔ ∃ u, r = .next u ∧ f u = .next t := by
  cases r <;> simp

/-! ### Records (42_decoder R185, R187, R195) -/

theorem literalRecord_destination (h : s.pixelCount < s.dst + count) :
    literalRecord count s = .next (s.complete .destinationOverrun) := by
  simp [literalRecord, h, raiseDecodeError]

theorem literalRecord_source (hd : s.dst + count ≤ s.pixelCount) (h : s.payload < s.src + 4 * count) :
    literalRecord count s = .next (s.complete .sourceOverrun) := by
  simp [literalRecord, Nat.not_lt.2 hd, h, raiseDecodeError]

theorem literalRecord_copies (hd : s.dst + count ≤ s.pixelCount) (hs : s.src + 4 * count ≤ s.payload)
    (hfs : spanFits (s.srcAddr s.src) count = true) (hfd : spanFits (s.dstAddr (4 * s.dst)) count = true) :
    literalRecord count s = .next (s.copied count) := by
  simp [literalRecord, Nat.not_lt.2 hd, Nat.not_lt.2 hs, hfs, hfd]

theorem runRecord_destination (h : s.pixelCount < s.dst + count) :
    runRecord count s = .next (s.complete .destinationOverrun) := by
  simp [runRecord, h, raiseDecodeError]

theorem runRecord_source (hd : s.dst + count ≤ s.pixelCount) (h : s.payload < s.src + 4) :
    runRecord count s = .next (s.complete .sourceOverrun) := by
  simp [runRecord, Nat.not_lt.2 hd, h, raiseDecodeError]

theorem runRecord_fills (hd : s.dst + count ≤ s.pixelCount) (hs : s.src + 4 ≤ s.payload)
    (hfs : spanFits (s.srcAddr s.src) 1 = true) (hfd : spanFits (s.dstAddr (4 * s.dst)) count = true) :
    runRecord count s = .next (s.filled count) := by
  simp [runRecord, Nat.not_lt.2 hd, Nat.not_lt.2 hs, hfs, hfd]

/-- What a literal that answers a next state did. -/
theorem literalRecord_next (h : literalRecord count s = .next t) :
    (s.pixelCount < s.dst + count ∧ t = s.complete .destinationOverrun) ∨
    (s.dst + count ≤ s.pixelCount ∧ s.payload < s.src + 4 * count ∧ t = s.complete .sourceOverrun) ∨
    (s.dst + count ≤ s.pixelCount ∧ s.src + 4 * count ≤ s.payload ∧
      spanFits (s.srcAddr s.src) count = true ∧ spanFits (s.dstAddr (4 * s.dst)) count = true ∧
      t = s.copied count) := by
  unfold literalRecord raiseDecodeError at h
  split at h
  · rename_i hd; exact .inl ⟨hd, by cases h; rfl⟩
  · rename_i hd
    split at h
    · rename_i hs; exact .inr (.inl ⟨Nat.not_lt.1 hd, hs, by cases h; rfl⟩)
    · rename_i hs
      split at h
      · rename_i hf
        rw [Bool.and_eq_true] at hf
        exact .inr (.inr ⟨Nat.not_lt.1 hd, Nat.not_lt.1 hs, hf.1, hf.2, by cases h; rfl⟩)
      · cases h

/-- What a run that answers a next state did. -/
theorem runRecord_next (h : runRecord count s = .next t) :
    (s.pixelCount < s.dst + count ∧ t = s.complete .destinationOverrun) ∨
    (s.dst + count ≤ s.pixelCount ∧ s.payload < s.src + 4 ∧ t = s.complete .sourceOverrun) ∨
    (s.dst + count ≤ s.pixelCount ∧ s.src + 4 ≤ s.payload ∧
      spanFits (s.srcAddr s.src) 1 = true ∧ spanFits (s.dstAddr (4 * s.dst)) count = true ∧
      t = s.filled count) := by
  unfold runRecord raiseDecodeError at h
  split at h
  · rename_i hd; exact .inl ⟨hd, by cases h; rfl⟩
  · rename_i hd
    split at h
    · rename_i hs; exact .inr (.inl ⟨Nat.not_lt.1 hd, hs, by cases h; rfl⟩)
    · rename_i hs
      split at h
      · rename_i hf
        rw [Bool.and_eq_true] at hf
        exact .inr (.inr ⟨Nat.not_lt.1 hd, Nat.not_lt.1 hs, hf.1, hf.2, by cases h; rfl⟩)
      · cases h

/-! ### Commands (30_encoding R110, R111) -/

theorem command_busy {r : Option Refusal} {u : State} (h : s.busy = true) : command r u s = .next s.rejectCommand := by
  simp [command, h]

theorem command_refused {r : Refusal} {u : State} (h : s.busy = false) : command (some r) u s = .refused r := by
  simp [command, h]

theorem command_accepted {u : State} (h : s.busy = false) : command none u s = .next u := by
  simp [command, h]

/-- What a command that answers a next state did. -/
theorem command_next {r : Option Refusal} {u : State} (h : command r u s = .next t) :
    (s.busy = true ∧ t = s.rejectCommand) ∨ (s.busy = false ∧ r = none ∧ t = u) := by
  unfold command at h
  split at h
  · rename_i hb; exact .inl ⟨hb, by cases h; rfl⟩
  · rename_i hb
    cases r with
    | some r => cases h
    | none => exact .inr ⟨by simpa using hb, rfl, by cases h; rfl⟩

/-- Regions that are not refused lie in the space and share no byte (20_memory R78, R79). -/
theorem State.regionRefusal_none {source dest : Region} (h : s.regionRefusal source dest = none) :
    regionsInRange source dest = true ∧ source.overlaps dest = false ∧ s.touchesDevice source = false ∧
      s.touchesDevice dest = false ∧ (s.others.any fun o => claimsClash source dest o.claim) = false := by
  unfold State.regionRefusal at h
  split at h
  · cases h
  rename_i h1
  split at h
  · cases h
  rename_i h2
  split at h
  · cases h
  rename_i h3
  split at h
  · cases h
  rename_i h4
  simp only [Bool.not_eq_true, Bool.or_eq_false_iff, Bool.not_eq_false'] at h1 h2 h3 h4
  exact ⟨h1, h2, h3.1, h3.2, h4⟩

theorem State.encodeRefusal_none (h : s.encodeRefusal = none) :
    s.regionRefusal s.frameSource s.streamDest = none ∧ encLen s.pix 0 s.pixelCount ≤ s.dstCap.toNat := by
  unfold State.encodeRefusal State.capacityRefusal at h
  split at h
  · cases h
  rename_i h1
  split at h
  · cases h
  rename_i h2
  exact ⟨h1, Nat.not_lt.1 h2⟩

theorem State.encodePartialRefusal_none (h : s.encodePartialRefusal = none) :
    s.firstLine + s.lineCount ≤ s.height.toNat ∧ regionsInRange s.frameSource s.streamDest = true ∧
      s.regionRefusal (s.pixelSource s.bandStart s.bandEnd) s.streamDest = none ∧
      encLen s.pix s.bandStart s.bandEnd ≤ s.dstCap.toNat := by
  unfold State.encodePartialRefusal State.capacityRefusal at h
  split at h
  · cases h
  rename_i h0
  split at h
  · cases h
  rename_i hf
  split at h
  · cases h
  rename_i h1
  split at h
  · cases h
  rename_i h2
  exact ⟨Nat.not_lt.1 h0, by simpa using hf, h1, Nat.not_lt.1 h2⟩

/-! ### The engine's turns (41_encoder R142; 42_decoder R182) -/

/-- The words still to come begin with those of the next turn (41_encoder R142). -/
theorem State.remainingWords_pass (h : s.i < s.b) :
    s.remainingWords = s.turnWords ++ scanWords s.pix s.partFirstLine s.b (s.b - s.scanned.i) s.scanned.i s.scanned.k
      s.scanned.first := by
  unfold State.remainingWords State.turnWords
  rw [if_pos h, scanWords_pass h]; rfl

theorem State.remainingWords_tail (h : ¬s.i < s.b) : s.remainingWords = s.turnWords := by
  unfold State.remainingWords State.turnWords
  rw [if_neg h, scanWords_tail h]

theorem encodeTurn_pass (hc : s.out + 4 * s.turnWords.length ≤ s.dstCap.toNat)
    (hs : spanFits (s.srcAddr 0) s.b = true) (hd : spanFits (s.dstAddr s.out) s.turnWords.length = true)
    (hi : s.i < s.b) : encodeTurn s = .next (s.scanned.emitted s.turnWords) := by
  simp [encodeTurn, Nat.not_lt.2 hc, hs, hd, hi]

theorem encodeTurn_tail (hc : s.out + 4 * s.turnWords.length ≤ s.dstCap.toNat)
    (hs : spanFits (s.srcAddr 0) s.b = true) (hd : spanFits (s.dstAddr s.out) s.turnWords.length = true)
    (hi : ¬s.i < s.b) :
    encodeTurn s =
      .next (((s.flushed.emitted s.turnWords).payloadWritten (s.out + 4 * s.turnWords.length)).complete .success) := by
  simp [encodeTurn, Nat.not_lt.2 hc, hs, hd, hi, finish]

/-- What an encoder's turn that answers a next state did. -/
theorem encodeTurn_next (h : encodeTurn s = .next t) :
    s.out + 4 * s.turnWords.length ≤ s.dstCap.toNat ∧ spanFits (s.srcAddr 0) s.b = true ∧
      spanFits (s.dstAddr s.out) s.turnWords.length = true ∧
      ((s.i < s.b ∧ t = s.scanned.emitted s.turnWords) ∨
        (¬s.i < s.b ∧
          t = ((s.flushed.emitted s.turnWords).payloadWritten (s.out + 4 * s.turnWords.length)).complete .success)) := by
  unfold encodeTurn finish at h
  split at h
  · cases h
  rename_i hc
  split at h
  · cases h
  rename_i hf
  simp only [Bool.not_eq_true, Bool.not_eq_false', Bool.and_eq_true] at hf
  refine ⟨Nat.not_lt.1 hc, hf.1, hf.2, ?_⟩
  split at h
  · rename_i hi; exact .inl ⟨hi, by cases h; rfl⟩
  · rename_i hi; exact .inr ⟨hi, by cases h; rfl⟩

theorem decodeTurn_overrun (h : s.payload < s.src + 4) : decodeTurn s = .next (s.complete .sourceOverrun) := by
  simp [decodeTurn, h, raiseDecodeError]

theorem decodeTurn_record (h : s.src + 4 ≤ s.payload) (hf : spanFits (s.srcAddr s.src) 1 = true) :
    decodeTurn s = exec (decodeRecord (s.srcWord s.src)) s.fetched := by
  simp [decodeTurn, Nat.not_lt.2 h, hf]

/-- What a decoder's turn that answers a next state did. -/
theorem decodeTurn_next (h : decodeTurn s = .next t) :
    (s.payload < s.src + 4 ∧ t = s.complete .sourceOverrun) ∨
      (s.src + 4 ≤ s.payload ∧ spanFits (s.srcAddr s.src) 1 = true ∧
        exec (decodeRecord (s.srcWord s.src)) s.fetched = .next t) := by
  unfold decodeTurn raiseDecodeError at h
  split at h
  · rename_i hp; exact .inl ⟨hp, by cases h; rfl⟩
  rename_i hp
  split at h
  · cases h
  rename_i hf
  simp only [Bool.not_eq_true, Bool.not_eq_false'] at hf
  exact .inr ⟨Nat.not_lt.1 hp, hf, h⟩

/-! ### What a record can do (42_decoder R183 to R189) -/

/-- What a record run from s can leave: from s, repositioned or not, it completed with a code, or copied, or filled. -/
inductive RecordOutcome (s t : State) : Prop where
  | completed (u : State) (code : ResultCode) (hu : u = s ∨ ∃ line, u = s.repositioned line) (ht : t = u.complete code)
  | copied (u : State) (n : Nat) (hu : u = s ∨ ∃ line, u = s.repositioned line) (hd : u.dst + n ≤ u.pixelCount)
      (hp : u.src + 4 * n ≤ u.payload) (hs : spanFits (u.srcAddr u.src) n = true)
      (hf : spanFits (u.dstAddr (4 * u.dst)) n = true) (ht : t = u.copied n)
  | filled (u : State) (n : Nat) (hu : u = s ∨ ∃ line, u = s.repositioned line) (hd : u.dst + n ≤ u.pixelCount)
      (hp : u.src + 4 ≤ u.payload) (hs : spanFits (u.srcAddr u.src) 1 = true)
      (hf : spanFits (u.dstAddr (4 * u.dst)) n = true) (ht : t = u.filled n)

theorem recordOutcome_literal {u : State} (hu : u = s ∨ ∃ line, u = s.repositioned line)
    (h : literalRecord count u = .next t) : RecordOutcome s t := by
  rcases literalRecord_next h with ⟨_, ht⟩ | ⟨_, _, ht⟩ | ⟨h1, h2, h3, h4, ht⟩
  · exact .completed u _ hu ht
  · exact .completed u _ hu ht
  · exact .copied u _ hu h1 h2 h3 h4 ht

theorem recordOutcome_run {u : State} (hu : u = s ∨ ∃ line, u = s.repositioned line)
    (h : runRecord count u = .next t) : RecordOutcome s t := by
  rcases runRecord_next h with ⟨_, ht⟩ | ⟨_, _, ht⟩ | ⟨h1, h2, h3, h4, ht⟩
  · exact .completed u _ hu ht
  · exact .completed u _ hu ht
  · exact .filled u _ hu h1 h2 h3 h4 ht

/-- A record that answers a next state has one of these outcomes (42_decoder R183 to R189). -/
theorem exec_record_next {i : Instr} (hl : i.lang = .record) (h : exec i s = .next t) : RecordOutcome s t := by
  cases i with
  | lit g n => exact recordOutcome_literal (.inl rfl) h
  | litWsl l n => exact recordOutcome_literal (.inr ⟨l, rfl⟩) h
  | run g n => exact recordOutcome_run (.inl rfl) h
  | runWsl l n => exact recordOutcome_run (.inr ⟨l, rfl⟩) h
  | eos | reservedKind0 | reservedKind5 | reservedKind6 | reservedKind7 | reservedKind8 | reservedKind9
  | reservedKindA | reservedKindB | reservedKindC | reservedKindD | reservedKindE =>
    exact .completed s _ (.inl rfl) (Host.Outcome.next.inj h).symm
  | hdrInit | encode | encodePartial | decode | reservedCmd0 | reservedCmd5 | reservedCmd6 | reservedCmd7 => cases hl

/-- What a command word can do: it is rejected, or an operation starts whose precondition holds (30_encoding R110, R111). -/
theorem exec_command_next {i : Instr} (hl : i.lang = .command) (h : exec i s = .next t) :
    t = s.rejectCommand ∨
    (s.busy = false ∧
      (t = s.issue .hdrInit ∨
        (s.encodeRefusal = none ∧ t = (s.issue .encode).startEncode 0 s.pixelCount false) ∨
        (s.encodePartialRefusal = none ∧
          t = (s.issue .encodePartial).startEncode s.bandStart s.bandEnd true) ∨
        (s.decodeRefusal = none ∧ t = (s.issue .decode).startDecode))) := by
  cases i with
  | hdrInit g =>
    rcases command_next (show command none (s.issue .hdrInit) s = .next t from h) with ⟨_, ht⟩ | ⟨hb, _, ht⟩
    · exact .inl ht
    · exact .inr ⟨hb, .inl ht⟩
  | encode g =>
    rcases command_next (show command s.encodeRefusal _ s = .next t from h) with ⟨_, ht⟩ | ⟨hb, hr, ht⟩
    · exact .inl ht
    · exact .inr ⟨hb, .inr (.inl ⟨hr, ht⟩)⟩
  | encodePartial g =>
    rcases command_next (show command s.encodePartialRefusal _ s = .next t from h) with ⟨_, ht⟩ | ⟨hb, hr, ht⟩
    · exact .inl ht
    · exact .inr ⟨hb, .inr (.inr (.inl ⟨hr, ht⟩))⟩
  | decode g =>
    rcases command_next (show command s.decodeRefusal _ s = .next t from h) with ⟨_, ht⟩ | ⟨hb, hr, ht⟩
    · exact .inl ht
    · exact .inr ⟨hb, .inr (.inr (.inr ⟨hr, ht⟩))⟩
  | reservedCmd0 | reservedCmd5 | reservedCmd6 | reservedCmd7 =>
    exact .inl (Host.Outcome.next.inj h).symm
  | lit | litWsl | run | runWsl | eos | reservedKind0 | reservedKind5 | reservedKind6 | reservedKind7 | reservedKind8
  | reservedKind9 | reservedKindA | reservedKindB | reservedKindC | reservedKindD | reservedKindE => cases hl

/-! ### The machine's turn (log 3) -/

theorem step_engine (h : s.inputs = []) : step s = engineTurn s := by
  unfold step machineTurn; rw [h]

theorem step_engine_input {rest : List Input} (h : s.inputs = .engine :: rest) :
    step s = engineTurn { s with inputs := rest } := by
  unfold step machineTurn; rw [h]

theorem step_external {e : Event} {rest : List Input} (h : s.inputs = .external e :: rest) :
    step s = eventTurn e { s with inputs := rest } := by
  unfold step machineTurn; rw [h]

theorem step_sameCycle {e : Event} {f : Bool} {rest : List Input} (h : s.inputs = .sameCycle e f :: rest) :
    step s = sameCycleTurn e f { s with inputs := rest } := by
  unfold step machineTurn; rw [h]

theorem step_wait {rest : List Input} (h : s.inputs = .wait :: rest) : step s = pollTurn rest s := by
  unfold step machineTurn; rw [h]

theorem engineTurn_idle (h : s.phase = .idle) : engineTurn s = .next s := by
  unfold engineTurn; rw [h]

theorem engineTurn_hdrInit (h : s.phase = .busy .hdrInit) : engineTurn s = hdrInitTurn s := by
  unfold engineTurn; rw [h]

theorem engineTurn_encoding (h : s.encoding) : engineTurn s = encodeTurn s := by
  unfold engineTurn; rcases h with h | h <;> rw [h]

theorem engineTurn_decode (h : s.phase = .busy .decode) : engineTurn s = decodeTurn s := by
  unfold engineTurn; rw [h]

/-- The end of an operation that is not in the list does nothing (log 9). -/
theorem otherEnds_absent (who : Nat) (h : ∀ o ∈ s.others, o.who ≠ who) : otherEnds who s = .next s := by
  have : (s.others.filter fun o => decide (o.who ≠ who)) = s.others :=
    List.filter_eq_self.2 fun o ho => decide_eq_true (h o ho)
  simp only [otherEnds, this]

@[simp] theorem steps_zero (s : State) : steps 0 s = .next s := rfl

theorem steps_succ (n : Nat) (s : State) : steps (n + 1) s = andThen (step s) (steps n) := rfl

theorem steps_add (m n : Nat) (s : State) : steps (m + n) s = andThen (steps m s) (steps n) := by
  induction m generalizing s with
  | zero => simp
  | succ m ih =>
    rw [Nat.succ_add, steps_succ, steps_succ]
    cases step s <;> simp [ih]

end Sys2Proof.Machine
end

