-- ==== Sys2Proof/Laws/PerInstr.lean ====
section
/-! SUPPORT. For each instruction, that its word carries the fixed bits of its row of the opcode table (30_encoding R101, R112), in
the family TableRow: one lemma for each constructor. -/

namespace Sys2Proof

/-- The mask of an instruction's row in the opcode table. -/
def Instr.rowMask (i : Instr) : Word :=
  match i.lang with
  | .record => 0xF0000000
  | .command => 0x80000007

/-- The pattern of an instruction's row in the opcode table. -/
def Instr.rowMatch : Instr → Word
  | .lit _ _ => 0x10000000
  | .litWsl _ _ => 0x20000000
  | .run _ _ => 0x30000000
  | .runWsl _ _ => 0x40000000
  | .eos _ => 0xF0000000
  | .reservedKind0 _ => 0x00000000
  | .reservedKind5 _ => 0x50000000
  | .reservedKind6 _ => 0x60000000
  | .reservedKind7 _ => 0x70000000
  | .reservedKind8 _ => 0x80000000
  | .reservedKind9 _ => 0x90000000
  | .reservedKindA _ => 0xA0000000
  | .reservedKindB _ => 0xB0000000
  | .reservedKindC _ => 0xC0000000
  | .reservedKindD _ => 0xD0000000
  | .reservedKindE _ => 0xE0000000
  | .hdrInit _ => 0x80000001
  | .encode _ => 0x80000002
  | .encodePartial _ => 0x80000003
  | .decode _ => 0x80000004
  | .reservedCmd0 _ => 0x80000000
  | .reservedCmd5 _ => 0x80000005
  | .reservedCmd6 _ => 0x80000006
  | .reservedCmd7 _ => 0x80000007

/-- The bits of a record's mask. -/
theorem recordMask_bit {n : Nat} (h : n < 32) : (0xF0000000 : Word).getLsbD n = decide (28 ≤ n) :=
  (by decide : ∀ m : Fin 32, (0xF0000000 : Word).getLsbD m.val = decide (28 ≤ m.val)) ⟨n, h⟩

/-- The bits of a command's mask. -/
theorem commandMask_bit {n : Nat} (h : n < 32) : (0x80000007 : Word).getLsbD n = decide (n < 3 ∨ n = 31) :=
  (by decide : ∀ m : Fin 32, (0x80000007 : Word).getLsbD m.val = decide (m.val < 3 ∨ m.val = 31)) ⟨n, h⟩

theorem controlWord_row (kind : BitVec 4) (line : BitVec 12) (count : BitVec 16) :
    controlWord kind line count &&& 0xF0000000 = kind ++ 0#28 := by
  apply BitVec.eq_of_getLsbD_eq
  intro n hn
  simp only [controlWord, BitVec.getLsbD_and, BitVec.getLsbD_append]
  rw [recordMask_bit (by omega)]
  by_cases h0 : n < 16
  · simp [h0, show ¬28 ≤ n by omega, show n < 28 by omega]
  · by_cases h1 : n - 16 < 12
    · simp [show ¬28 ≤ n by omega, show n < 28 by omega]
    · simp [h0, h1, show 28 ≤ n by omega, show ¬n < 28 by omega, show n - 16 - 12 = n - 28 by omega]

theorem bareWord_row (kind : BitVec 4) (low : BitVec 28) : bareWord kind low &&& 0xF0000000 = kind ++ 0#28 := by
  apply BitVec.eq_of_getLsbD_eq
  intro n hn
  simp only [bareWord, BitVec.getLsbD_and, BitVec.getLsbD_append]
  rw [recordMask_bit (by omega)]
  by_cases h0 : n < 28
  · simp [h0]
  · simp [h0, show 28 ≤ n by omega]

theorem commandWord_row (cmd : BitVec 3) (ignored : BitVec 28) :
    commandWord cmd ignored &&& 0x80000007 = 1#1 ++ 0#28 ++ cmd := by
  apply BitVec.eq_of_getLsbD_eq
  intro n hn
  simp only [commandWord, BitVec.getLsbD_and, BitVec.getLsbD_append]
  rw [commandMask_bit (by omega)]
  by_cases h0 : n < 3
  · simp [h0]
  · by_cases h1 : n = 31
    · subst h1; simp
    · simp [h0, h1, show n - 3 < 28 by omega]

/-- An instruction's word carries the fixed bits of its row. -/
def Laws.TableRow.Statement (i : Instr) : Prop := Sys2Proof.encode i &&& i.rowMask = i.rowMatch

theorem Laws.TableRow.lit (ignored : BitVec 12) (count : Nat) : Laws.TableRow.Statement (.lit ignored count) :=
  controlWord_row _ _ _

theorem Laws.TableRow.litWsl (line count : Nat) : Laws.TableRow.Statement (.litWsl line count) :=
  controlWord_row _ _ _

theorem Laws.TableRow.run (ignored : BitVec 12) (count : Nat) : Laws.TableRow.Statement (.run ignored count) :=
  controlWord_row _ _ _

theorem Laws.TableRow.runWsl (line count : Nat) : Laws.TableRow.Statement (.runWsl line count) :=
  controlWord_row _ _ _

theorem Laws.TableRow.eos (ignored : BitVec 28) : Laws.TableRow.Statement (.eos ignored) := bareWord_row _ _

theorem Laws.TableRow.reservedKind0 (ignored : BitVec 28) : Laws.TableRow.Statement (.reservedKind0 ignored) := bareWord_row _ _

theorem Laws.TableRow.reservedKind5 (ignored : BitVec 28) : Laws.TableRow.Statement (.reservedKind5 ignored) := bareWord_row _ _

theorem Laws.TableRow.reservedKind6 (ignored : BitVec 28) : Laws.TableRow.Statement (.reservedKind6 ignored) := bareWord_row _ _

theorem Laws.TableRow.reservedKind7 (ignored : BitVec 28) : Laws.TableRow.Statement (.reservedKind7 ignored) := bareWord_row _ _

theorem Laws.TableRow.reservedKind8 (ignored : BitVec 28) : Laws.TableRow.Statement (.reservedKind8 ignored) := bareWord_row _ _

theorem Laws.TableRow.reservedKind9 (ignored : BitVec 28) : Laws.TableRow.Statement (.reservedKind9 ignored) := bareWord_row _ _

theorem Laws.TableRow.reservedKindA (ignored : BitVec 28) : Laws.TableRow.Statement (.reservedKindA ignored) := bareWord_row _ _

theorem Laws.TableRow.reservedKindB (ignored : BitVec 28) : Laws.TableRow.Statement (.reservedKindB ignored) := bareWord_row _ _

theorem Laws.TableRow.reservedKindC (ignored : BitVec 28) : Laws.TableRow.Statement (.reservedKindC ignored) := bareWord_row _ _

theorem Laws.TableRow.reservedKindD (ignored : BitVec 28) : Laws.TableRow.Statement (.reservedKindD ignored) := bareWord_row _ _

theorem Laws.TableRow.reservedKindE (ignored : BitVec 28) : Laws.TableRow.Statement (.reservedKindE ignored) := bareWord_row _ _

theorem Laws.TableRow.hdrInit (ignored : BitVec 28) : Laws.TableRow.Statement (.hdrInit ignored) := commandWord_row _ _

theorem Laws.TableRow.encode (ignored : BitVec 28) : Laws.TableRow.Statement (.encode ignored) := commandWord_row _ _

theorem Laws.TableRow.encodePartial (ignored : BitVec 28) : Laws.TableRow.Statement (.encodePartial ignored) := commandWord_row _ _

theorem Laws.TableRow.decode (ignored : BitVec 28) : Laws.TableRow.Statement (.decode ignored) := commandWord_row _ _

theorem Laws.TableRow.reservedCmd0 (ignored : BitVec 28) : Laws.TableRow.Statement (.reservedCmd0 ignored) := commandWord_row _ _

theorem Laws.TableRow.reservedCmd5 (ignored : BitVec 28) : Laws.TableRow.Statement (.reservedCmd5 ignored) := commandWord_row _ _

theorem Laws.TableRow.reservedCmd6 (ignored : BitVec 28) : Laws.TableRow.Statement (.reservedCmd6 ignored) := commandWord_row _ _

theorem Laws.TableRow.reservedCmd7 (ignored : BitVec 28) : Laws.TableRow.Statement (.reservedCmd7 ignored) := commandWord_row _ _

end Sys2Proof
end

