-- ==== Sys2Proof/Laws/Regions.lean ====
section
/-! SUPPORT. What disjoint regions in range say as arithmetic, and that a turn's writes leave the other region's words alone
(20_memory R78, R79, R81). -/

namespace Sys2Proof.Machine

variable {s u : State}

/-- The pixels [a, b) and the DST_CAP bytes of a running encode (20_memory R72, R78, R79). -/
theorem encoding_regions (he : s.encoding) (hr : s.regionsKept) (hab : s.a ≤ s.b) (hb : s.b ≤ s.pixelCount) :
    s.srcBase.toNat + 4 * s.b ≤ Config.addressSpace ∧ s.dstBase.toNat + s.dstCap.toNat ≤ Config.addressSpace ∧
      (s.a = s.b ∨ s.dstCap.toNat = 0 ∨ s.dstBase.toNat + s.dstCap.toNat ≤ s.srcBase.toNat + 4 * s.a ∨
        s.srcBase.toNat + 4 * s.b ≤ s.dstBase.toNat) := by
  obtain ⟨h1, h2⟩ := hr
  rw [Region.overlaps_eq_false] at h2
  rw [regionsInRange, Bool.and_eq_true, Region.inSpace_iff, Region.inSpace_iff] at h1
  rcases he with he | he <;>
    simp only [State.activeSource, State.activeDest, he, State.sourceOf, State.destOf, State.frameSource,
      State.pixelSource, State.srcAddr, State.streamDest, State.frameBytes] at h1 h2 <;> omega

/-- The P bytes and the frame of a running DECODE (20_memory R72, R78, R79). -/
theorem decoding_regions (he : s.phase = .busy .decode) (hr : s.regionsKept) :
    s.srcBase.toNat + s.payload ≤ Config.addressSpace ∧ s.dstBase.toNat + 4 * s.pixelCount ≤ Config.addressSpace ∧
      (s.payload = 0 ∨ s.pixelCount = 0 ∨ s.dstBase.toNat + 4 * s.pixelCount ≤ s.srcBase.toNat ∨
        s.srcBase.toNat + s.payload ≤ s.dstBase.toNat) := by
  obtain ⟨h1, h2⟩ := hr
  rw [Region.overlaps_eq_false] at h2
  rw [regionsInRange, Bool.and_eq_true, Region.inSpace_iff, Region.inSpace_iff] at h1
  simp only [State.activeSource, State.activeDest, he, State.sourceOf, State.destOf, State.streamSource,
    State.frameDest, State.frameBytes] at h1 h2
  omega

/-- Words an encode emits leave every pixel of its range as it was (20_memory R81). -/
theorem pix_emitted (he : s.encoding) (hr : s.regionsKept) (hb : s.b ≤ s.pixelCount) {ws : List Word}
    (hc : s.out + 4 * ws.length ≤ s.dstCap.toNat) (hm : u.mem = s.mem) (hs : u.srcBaseHi = s.srcBaseHi)
    (hd : u.dstBaseHi = s.dstBaseHi) (ho : u.out = s.out) {p : Nat} (hap : s.a ≤ p) (hp : p < s.b) :
    (u.emitted ws).pix p = s.pix p := by
  have hreg := encoding_regions he hr (by omega) hb
  have hsa : u.srcAddr (4 * p) = s.srcAddr (4 * p) := by simp [State.srcAddr, State.srcBase, hs]
  have hda : u.dstAddr u.out = s.dstBase.toNat + s.out := by simp [State.dstAddr, State.dstBase, hd, ho]
  show (u.mem.writeWords (u.dstAddr u.out) ws).read32 (u.srcAddr (4 * p)) = s.mem.read32 (s.srcAddr (4 * p))
  rw [hsa, hda, hm]
  rcases ws with _ | ⟨w, ws⟩
  · rfl
  · apply Memory.read32_writeWords_outside
    simp only [State.srcAddr, List.length_cons] at hc ⊢
    omega

/-- An operation whose regions are ready is refused nothing on their account (60_exceptions R238). -/
theorem State.regionRefusal_ready {source dest : Region} (h : s.regionsReady source dest) :
    s.regionRefusal source dest = none := by
  obtain ⟨h1, h2, h3, h4, h5⟩ := h
  simp [State.regionRefusal, h1, h2, h3, h4, h5]

end Sys2Proof.Machine
end

