-- ==== Sys2Proof/Laws/Stream.lean ====
section
/-! SUPPORT. The words of a record as the decoder reads them, the pixels of a span, and what the lookahead loop stops on
(41_encoder R143, R145, R146). -/

namespace Sys2Proof.Machine

variable {pix : Nat → Word} {i b e j k : Nat}

/-- EmitRecord writes the WSL kind, one above, for a first record (41_encoder R146). -/
@[simp] theorem kindOf_recordWord (first : Bool) (fl : BitVec 12) (kind : BitVec 4) (count : Nat) :
    kindOf (recordWord first fl kind count) = if first then kind + 1 else kind := by
  unfold recordWord; split <;> simp

@[simp] theorem lineOf_recordWord (first : Bool) (fl : BitVec 12) (kind : BitVec 4) (count : Nat) :
    lineOf (recordWord first fl kind count) = if first then fl else 0 := by
  unfold recordWord; split <;> simp

@[simp] theorem countOf_recordWord (first : Bool) (fl : BitVec 12) (kind : BitVec 4) (count : Nat) :
    countOf (recordWord first fl kind count) = BitVec.ofNat 16 count := by
  unfold recordWord; split <;> simp

@[simp] theorem pixelsFrom_length (pix : Nat → Word) (s n : Nat) : (pixelsFrom pix s n).length = n := by
  simp [pixelsFrom]

/-- Two spans in a row are one span. -/
theorem pixelsFrom_append (pix : Nat → Word) (s m n : Nat) :
    pixelsFrom pix s m ++ pixelsFrom pix (s + m) n = pixelsFrom pix s (m + n) := by
  simp [pixelsFrom, List.range_add, Nat.add_assoc]

/-- Every pixel the lookahead passed equals pixel i (41_encoder R143). -/
theorem extendRun_equal (fuel j : Nat) (h : ∀ q, i ≤ q → q < j → pix q = pix i) :
    ∀ q, i ≤ q → q < extendRun pix i b fuel j → pix q = pix i := by
  induction fuel generalizing j with
  | zero => exact h
  | succ f ih =>
    unfold extendRun
    split
    · rename_i hc
      refine ih (j + 1) fun q h1 h2 => ?_
      rcases Nat.lt_succ_iff_lt_or_eq.1 h2 with hq | rfl
      · exact h q h1 hq
      · exact hc.2.2
    · exact h

/-- The lookahead stops before b and before MAX_COUNT only at a pixel that differs (41_encoder R143). -/
theorem extendRun_stops (fuel j : Nat) (hj : i < j) (hf : min (b - j) (i + Config.maxCount - j) ≤ fuel)
    (hb : extendRun pix i b fuel j < b) (hm : extendRun pix i b fuel j - i < Config.maxCount) :
    pix (extendRun pix i b fuel j) ≠ pix i := by
  induction fuel generalizing j with
  | zero => simp only [extendRun] at hb hm; omega
  | succ f ih =>
    rw [extendRun] at hb hm ⊢
    split
    · rename_i hc
      rw [if_pos hc] at hb hm
      exact ih (j + 1) (by omega) (by omega) hb hm
    · rename_i hc
      rw [if_neg hc] at hb hm
      exact fun he => hc ⟨hb, hm, he⟩

/-- A literal span after the first record does not depend on the start line. -/
theorem flushLiteral_line (fl fl' : BitVec 12) (fuel s : Nat) :
    flushLiteral pix fl e fuel false s = flushLiteral pix fl' e fuel false s := by
  induction fuel generalizing s with
  | zero => rfl
  | succ f ih => simp [flushLiteral, ih, recordWord]

/-- A scan that does not start a partial encode does not depend on the start line (41_encoder R146, R149). -/
theorem scanWords_line (fl fl' : BitVec 12) (fuel i k : Nat) :
    scanWords pix fl b fuel i k false = scanWords pix fl' b fuel i k false := by
  induction fuel generalizing i k with
  | zero => simp only [scanWords, tailWords, literalWords, flushLiteral_line fl fl']
  | succ f ih =>
    simp [scanWords, passFirst, ih, tailWords, passWords, literalWords, flushLiteral_line fl fl', recordWord]

end Sys2Proof.Machine
end

