-- ==== Sys2Proof/Tests/Slice0.lean ====
section
/-! SUPPORT. The model's own tests, with results taken from spec/95_test_vectors.md and the rules: well-formedness, decoding of words
written out from the encoding, one step each of the instructions, and for each statement with hypotheses a witness. -/

namespace Sys2Proof.Tests

open Sys2Proof Sys2Proof.Machine

/-! ### Pixels and small states (95 Notation) -/

def pixA : Word := 0x11223344
def pixB : Word := 0xAABBCCDD
def pixC : Word := 0x55667788
def pixD : Word := 0x99AABBCC
def pixX : Word := 0x000000FF
def pixY : Word := 0x12345678

/-- Words in memory from an address upward. -/
def memoryOf (addr : Nat) (ws : List Word) : Memory := Memory.writeWords [] addr ws

/-- A DECODE of `p` bytes of a stream at 0x1000 into a frame at 0x2000. -/
def decoding (width height : Word) (p : Word) (stream : List Word) : State :=
  { State.reset with
    phase := .busy .decode
    width := width
    height := height
    payloadSize := p
    srcBaseHi := 0x400
    dstBaseHi := 0x800
    mem := memoryOf 0x1000 stream }

/-- The same just after a fetch, as a record meets it. -/
def fetched (width height : Word) (p : Word) (stream : List Word) : State :=
  { decoding width height p stream with src := 4 }

/-- An idle block with a one-line frame at 0x1000 and room for a stream at 0x2000. -/
def framed (cap : Word) (pixels : List Word) : State :=
  { State.reset with
    width := BitVec.ofNat 32 pixels.length
    height := 1
    srcBaseHi := 0x400
    dstBaseHi := 0x800
    dstCap := cap
    mem := memoryOf 0x1000 pixels }

/-- An ENCODE of that frame, just issued. -/
def encoding (cap : Word) (pixels : List Word) : State :=
  { framed cap pixels with phase := .busy .encode, b := pixels.length }

/-- The frame F of 95 L2-P with the band fl, lc. -/
def banded (fl : BitVec 12) (lc : Word) : State :=
  { framed 40 [pixA, pixB, pixX, pixX, pixX, pixY] with width := 2, height := 3, partFirstLine := fl, partLineCount := lc }

/-- The pixels of a frame as a function. -/
def pixelAt (pixels : List Word) (p : Nat) : Word := pixels.getD p 0

/-- An answer is a next state with a property. -/
def answers (r : Answer) (good : State → Bool) : Bool :=
  match r with
  | .next t => good t
  | .fault _ => false
  | .refused _ => false

theorem answers_next {r : Answer} {good : State → Bool} (h : answers r good = true) :
    ∃ t, r = .next t ∧ good t = true := by
  cases r with
  | next t => exact ⟨t, rfl, h⟩
  | fault e => cases h
  | refused e => cases h

/-- An answer is a refusal with a reason. -/
def refuses (r : Answer) (reason : Refusal) : Bool :=
  match r with
  | .refused e => decide (e = reason)
  | .next _ => false
  | .fault _ => false

/-! ### Well-formedness: an ill-formed term for each check -/

theorem test_wf_largest : (Instr.litWsl 4095 65535).wellFormed = true := by decide
theorem test_wf_lit_count : (Instr.lit 0 65536).wellFormed = false := by decide
theorem test_wf_litWsl_line : (Instr.litWsl 4096 1).wellFormed = false := by decide
theorem test_wf_litWsl_count : (Instr.litWsl 1 65536).wellFormed = false := by decide
theorem test_wf_run_count : (Instr.run 0 65536).wellFormed = false := by decide
theorem test_wf_runWsl_line : (Instr.runWsl 4096 1).wellFormed = false := by decide
theorem test_wf_runWsl_count : (Instr.runWsl 1 65536).wellFormed = false := by decide

/-! ### Decoding: words written out bit by bit from 30_encoding R100, R101 (KIND LINE COUNT) and R112 (START 30:3 CMD) -/

theorem test_decode_lit : decodeRecord 0b0001_000000000000_0000000000000011#32 = .lit 0 3 := by decide
theorem test_decode_litWsl : decodeRecord 0b0010_000000000101_0000000000000010#32 = .litWsl 5 2 := by decide
theorem test_decode_run : decodeRecord 0b0011_000000000000_1111111111111111#32 = .run 0 65535 := by decide
theorem test_decode_runWsl : decodeRecord 0b0100_111111111111_0000000000000001#32 = .runWsl 4095 1 := by decide
theorem test_decode_eos : decodeRecord 0b1111_0000000000000000000000000000#32 = .eos 0 := by decide
theorem test_decode_kind0 : decodeRecord 0b0000_0000000000000000000000000001#32 = .reservedKind0 1 := by decide
theorem test_decode_kind5 : decodeRecord 0b0101_0000000000000000000000000000#32 = .reservedKind5 0 := by decide
theorem test_decode_kind6 : decodeRecord 0b0110_0000000000000000000000000000#32 = .reservedKind6 0 := by decide
theorem test_decode_kind7 : decodeRecord 0b0111_0000000000000000000000000000#32 = .reservedKind7 0 := by decide
theorem test_decode_kind8 : decodeRecord 0b1000_0000000000000000000000000000#32 = .reservedKind8 0 := by decide
theorem test_decode_kind9 : decodeRecord 0b1001_0000000000000000000000000000#32 = .reservedKind9 0 := by decide
theorem test_decode_kindA : decodeRecord 0b1010_0000000000000000000000000000#32 = .reservedKindA 0 := by decide
theorem test_decode_kindB : decodeRecord 0b1011_0000000000000000000000000000#32 = .reservedKindB 0 := by decide
theorem test_decode_kindC : decodeRecord 0b1100_0000000000000000000000000000#32 = .reservedKindC 0 := by decide
theorem test_decode_kindD : decodeRecord 0b1101_0000000000000000000000000000#32 = .reservedKindD 0 := by decide
theorem test_decode_kindE : decodeRecord 0b1110_1000000000000000000000000000#32 = .reservedKindE 0x8000000 := by decide
theorem test_decode_hdrInit :
    decodeCommand 0b1_0000000000000000000000000000_001#32 = some (.hdrInit 0) := by decide
theorem test_decode_encode :
    decodeCommand 0b1_1111111111111111111111111111_010#32 = some (.encode 0xFFFFFFF) := by decide
theorem test_decode_encodePartial :
    decodeCommand 0b1_0000000000000000000000000001_011#32 = some (.encodePartial 1) := by decide
theorem test_decode_decode :
    decodeCommand 0b1_1000000000000000000000000000_100#32 = some (.decode 0x8000000) := by decide
theorem test_decode_cmd0 :
    decodeCommand 0b1_0000000000000000000000000000_000#32 = some (.reservedCmd0 0) := by decide
theorem test_decode_cmd5 :
    decodeCommand 0b1_0000000000000000000000000000_101#32 = some (.reservedCmd5 0) := by decide
theorem test_decode_cmd6 :
    decodeCommand 0b1_0000000000000000000000000000_110#32 = some (.reservedCmd6 0) := by decide
theorem test_decode_cmd7 :
    decodeCommand 0b1_0000000000000000000000000000_111#32 = some (.reservedCmd7 0) := by decide

/-- A word is stored little-endian: RUN 3 is the bytes 03 00 00 30 (95 Notation, 20_memory R70). -/
theorem test_decode_bytes : decode .record [0x03, 0x00, 0x00, 0x30, 0xEE] = .ok (.run 0 3, [0xEE]) := by decide

theorem test_decode_truncated : decode .record [0x03, 0x00, 0x00] = .error .truncated := by decide
theorem test_decode_noStart : decode .command [0x02, 0x00, 0x00, 0x00] = .error .noCommand := by decide
theorem test_encode_runWsl : encode (.runWsl 4095 1) = 0x4FFF0001 := by decide
theorem test_tableWord_lit : decodeTableWord 32 0x1ABC0007 = some (.lit 0xABC 7) := by decide
theorem test_tableWord_command : decodeTableWord 32 0x80000003 = some (.encodePartial 0) := by decide

/-! ### Record kinds: one step of a DECODE each (95 L1-4 to L1-6, L2-D) -/

/-- 95 L2-D17: the payload word equal to EOS is data. -/
theorem test_lit_copies :
    answers (step (decoding 2 2 12 [0x10000001, 0xF0000000, 0xF0000000])) (fun t =>
      decide (t.dstPix 0 = 0xF0000000 ∧ t.dstPix 1 = 0 ∧ t.src = 8 ∧ t.dst = 1)) = true := by decide

/-- 95 L2-D15: both checks fail and -3 wins. -/
theorem test_lit_overrun :
    answers (step (decoding 2 2 4 [0x10000005])) (fun t =>
      decide (t.result.word = 0xFFFFFFFD ∧ t.statusWord = 0x00000002 ∧ t.dstPix 0 = 0)) = true := by decide

/-- 95 L2-D22. -/
theorem test_litWsl_copies :
    answers (step (decoding 2 2 16 [0x20010002, pixC, pixD, 0xF0000000])) (fun t =>
      decide (t.dstPix 1 = 0 ∧ t.dstPix 2 = pixC ∧ t.dstPix 3 = pixD ∧ t.dst = 4)) = true := by decide

/-- 95 L2-D21: dst = 6 exceeds N although the count is 0. -/
theorem test_litWsl_overrun :
    answers (step (decoding 2 2 4 [0x20030000])) (fun t => decide (t.result.word = 0xFFFFFFFD)) = true := by decide

/-- 95 L2-D12: RUN ignores bits 27:16. -/
theorem test_run_fills :
    answers (step (decoding 2 2 12 [0x3FFF0002, pixA, 0xF0000000])) (fun t =>
      decide (t.dstPix 0 = pixA ∧ t.dstPix 1 = pixA ∧ t.dstPix 2 = 0 ∧ t.src = 8 ∧ t.dst = 2)) = true := by decide

/-- 95 L2-D10: RUN 0 still needs its pixel word. -/
theorem test_run_zero_needs_pixel :
    answers (step (decoding 2 2 4 [0x30000000])) (fun t => decide (t.result.word = 0xFFFFFFFE)) = true := by decide

/-- 95 L2-D18. -/
theorem test_runWsl_fills :
    answers (step (decoding 2 2 12 [0x40010002, pixA, 0xF0000000])) (fun t =>
      decide (t.dstPix 1 = 0 ∧ t.dstPix 2 = pixA ∧ t.dstPix 3 = pixA ∧ t.dst = 4)) = true := by decide

/-- 95 L2-D31, with the line and the width the other way round for RUN_WSL: 2048 * 2^21 = 2^32 does not wrap. -/
theorem test_runWsl_exact :
    answers (step (decoding 0x200000 1 8 [0x48000001, pixA])) (fun t =>
      decide (t.result.word = 0xFFFFFFFD ∧ t.dstPix 0 = 0)) = true := by decide

/-- 95 L2-D2: EOS ignores bits 27:0. -/
theorem test_eos :
    answers (step (decoding 2 2 4 [0xF1234567])) (fun t =>
      decide (t.result.word = 0 ∧ t.statusWord = 0x00000002 ∧ t.phase = .idle)) = true := by decide

/-- 95 L2-D4: the fetch check, 0 + 4 > 3. -/
theorem test_fetch_overrun :
    answers (step (decoding 2 2 3 [0xF0000000])) (fun t => decide (t.result.word = 0xFFFFFFFE)) = true := by decide

/-- A reserved kind's word ends the DECODE with -1 and writes nothing (42_decoder R189; 95 L2-D24 to D26). -/
def unknown (w : Word) : Bool :=
  answers (step (decoding 2 2 4 [w])) fun t =>
    decide (t.result.word = 0xFFFFFFFF ∧ t.statusWord = 0x00000002 ∧ t.dstPix 0 = 0)

theorem test_kind0 : unknown 0x00000000 = true := by decide
theorem test_kind5 : unknown 0x5000FFFF = true := by decide
theorem test_kind6 : unknown 0x60000000 = true := by decide
theorem test_kind7 : unknown 0x70000000 = true := by decide
theorem test_kind8 : unknown 0x80000000 = true := by decide
theorem test_kind9 : unknown 0x90000000 = true := by decide
theorem test_kindA : unknown 0xA0000000 = true := by decide
theorem test_kindB : unknown 0xB0000000 = true := by decide
theorem test_kindC : unknown 0xC0000000 = true := by decide
theorem test_kindD : unknown 0xD0000000 = true := by decide
theorem test_kindE : unknown 0xE0000000 = true := by decide

/-! ### Commands (95 L2-E, L2-P, L2-R) -/

/-- 30_encoding R110: BUSY is set and DONE cleared at issue. -/
theorem test_hdrInit_issue :
    answers (exec (.hdrInit 0) { framed 24 [pixA] with done := true }) (fun t => decide (t.statusWord = 1)) = true := by
  decide

/-- 95 L2-H1: the dimensions and PAYLOAD_SIZE keep their values, ID and UNCOMPRESSED read 0. -/
theorem test_hdrInit_step :
    answers (step { State.reset with
        phase := .busy .hdrInit, width := 640, height := 480, payloadSize := 1234, id := 7, uncompressed := 1 }) (fun t =>
      decide (t.width = 640 ∧ t.height = 480 ∧ t.payloadSize = 1234 ∧ t.id = 0 ∧ t.uncompressed = 0 ∧
        t.statusWord = 0x00000002)) = true := by decide

/-- 95 L2-E16: EncLen = 20 exceeds DST_CAP = 16. -/
theorem test_encode_capacity : refuses (exec (.encode 0) (framed 16 [pixX, pixX, pixY])) .capacity = true := by decide

/-- 95 L2-E17: EncLen = 12 is accepted; the first pass writes RUN 4 and its pixel. -/
theorem test_encode_step :
    answers (step (encoding 12 [pixX, pixX, pixX, pixX])) (fun t =>
      decide (t.mem.read32 0x2000 = 0x30000004 ∧ t.mem.read32 0x2004 = pixX ∧ t.out = 8 ∧ t.i = 4 ∧ t.k = 4)) = true := by
  decide

/-- 95 L2-P6: 2 + 2 > 3. -/
theorem test_encodePartial_range : refuses (exec (.encodePartial 0) (banded 2 2)) .range = true := by decide

/-- 95 L2-P1: the band starts at a = 2 and ends at b = 6. -/
theorem test_encodePartial_issue :
    answers (exec (.encodePartial 0) (banded 1 2)) (fun t =>
      decide (t.i = 2 ∧ t.k = 2 ∧ t.b = 6 ∧ t.out = 0 ∧ t.first = true ∧ t.busy = true)) = true := by decide

/-- 41_encoder R146: the trailing flush emits the first record, LIT_WSL with LINE = 1, and clears first. -/
theorem test_encodePartial_flush :
    answers (step { encoding 16 [pixA, pixB] with phase := .busy .encodePartial, partFirstLine := 1, i := 2, first := true })
      (fun t => decide (t.mem.read32 0x2000 = 0x20010002 ∧ t.first = false ∧ t.payloadSize = 16 ∧ t.phase = .idle)) = true := by
  decide

/-- 42_decoder R181: both cursors start at 0. -/
theorem test_decode_issue :
    answers (exec (.decode 0) { decoding 2 2 4 [0xF0000000] with phase := .idle, src := 9, dst := 9 }) (fun t =>
      decide (t.phase = .busy .decode ∧ t.src = 0 ∧ t.dst = 0)) = true := by decide

/-- 20_memory R79: the stream and the frame share bytes. -/
theorem test_decode_overlap :
    refuses (exec (.decode 0) { decoding 2 2 4 [0xF0000000] with phase := .idle, dstBaseHi := 0x400 }) .overlap = true := by
  decide

/-- 95 L2-R4, R5. -/
theorem test_cmd0 : answers (exec (.reservedCmd0 0) State.reset) (fun t => decide (t.statusWord = 4)) = true := by decide
theorem test_cmd5 : answers (exec (.reservedCmd5 0) State.reset) (fun t => decide (t.statusWord = 4)) = true := by decide
theorem test_cmd6 : answers (exec (.reservedCmd6 0) State.reset) (fun t => decide (t.statusWord = 4)) = true := by decide
theorem test_cmd7 : answers (exec (.reservedCmd7 0) State.reset) (fun t => decide (t.statusWord = 4)) = true := by decide

/-! ### The encoder's scan as a function of the pixels (95 L1-1, L1-2, L2-E, L2-P) -/

/-- 95 L1-1. -/
theorem test_scan_mixed_runs :
    encodeWords (pixelAt [pixA, pixB, pixB, pixC, pixC, pixC, pixD, pixD, pixD, pixD]) 0 0 10 false =
      [0x10000003, pixA, pixB, pixB, 0x30000003, pixC, 0x30000004, pixD, 0xF0000000] := by decide

/-- 95 L1-2a. -/
theorem test_scan_two_equal :
    encodeWords (pixelAt [pixX, pixX, pixY]) 0 0 3 false = [0x10000003, pixX, pixX, pixY, 0xF0000000] := by decide

/-- 95 L1-2b. -/
theorem test_scan_three_equal :
    encodeWords (pixelAt [pixX, pixX, pixX, pixY]) 0 0 4 false =
      [0x30000003, pixX, 0x10000001, pixY, 0xF0000000] := by decide

/-- 95 L2-P1: only the first record carries the start line. -/
theorem test_scan_partial_run :
    encodeWords (pixelAt [pixA, pixB, pixX, pixX, pixX, pixY]) 1 2 6 true =
      [0x40010003, pixX, 0x10000001, pixY, 0xF0000000] := by decide

/-- 95 L2-P4. -/
theorem test_scan_partial_literal :
    encodeWords (pixelAt [pixA, pixB, pixX, pixX, pixX, pixY]) 0 0 6 true =
      [0x20000002, pixA, pixB, 0x30000003, pixX, 0x10000001, pixY, 0xF0000000] := by decide

/-- 30_encoding R115: FILL 70000 is a run of 65535 and one of 4465 (95 L1-3). -/
theorem test_fill : StreamLine.words (.fill 70000 pixX) = [0x3000FFFF, pixX, 0x30001171, pixX] := by decide

/-! ### The register window (95 L2-R) -/

/-- 95 L2-R9. -/
theorem test_srcBase_low_bits :
    answers (registerWrite 0x02C 4 0x00001003 State.reset) (fun t => decide (t.readReg .srcBase = 0x00001000)) = true := by
  decide

/-- 95 L2-R10. -/
theorem test_partFirstLine_bits :
    answers (registerWrite 0x038 4 0x00012345 State.reset) (fun t =>
      decide (t.readReg .partFirstLine = 0x00000345)) = true := by decide

/-- 95 L2-R7. -/
theorem test_status_w1c :
    answers (registerWrite 0x004 4 0x00000002 { State.reset with done := true, cmdErr := true }) (fun t =>
      decide (t.statusWord = 0x00000004)) = true := by decide

/-- 95 L2-R17. -/
theorem test_bad_access : refuses (registerWrite 0x018 2 0 State.reset) .badAccess = true := by decide

/-- 30_encoding R116: the lines of a host program. -/
theorem test_host_lines :
    hostProgram [.wr .width 4, .cmd .encode, .wait] =
      [.external (.regWrite 0x018 4 4), .external (.regWrite 0x000 4 0x80000002), .wait] := by decide

/-! ### Placing one instruction -/

theorem test_fetchWord_record :
    answers (step (State.reset.withFetchWord 32 0x50000000)) (fun t => decide (t.result = .unknownCode)) = true := by decide

theorem test_fetchWord_command :
    answers (step (State.reset.withFetchWord 32 0x80000001)) (fun t => decide (t.statusWord = 1)) = true := by decide

/-! ### Witnesses: for each statement with hypotheses, a state and operands that meet them, each clause at a boundary -/

/-- A record with both fields at their largest. -/
theorem witness_recordWords : (Instr.litWsl 4095 65535).lang = .record ∧ (Instr.litWsl 4095 65535).wellFormed = true := by decide

theorem witness_commandWords :
    (Instr.decode 0xFFFFFFF).lang = .command ∧ (Instr.decode 0xFFFFFFF).wellFormed = true := by decide

theorem witness_startWords : startOf 0x80000000 = true ∧ startOf 0x7FFFFFFF = false := by decide

/-- A RUN with and without bits 27:16, an EOS with and without bits 27:0, and a LIT_WSL beside itself. -/
theorem witness_unusedBits :
    (kindOf 0x3FFF0002 = kindOf 0x30000002 ∧ countOf 0x3FFF0002 = countOf 0x30000002) ∧
      kindOf 0xF1234567 = kindOf 0xF0000000 ∧ countOf 0xF1234567 ≠ countOf 0xF0000000 ∧
      kindOf 0x20010002 = 0x2 := by decide

/-- The fetch ends exactly at P. -/
theorem witness_fetchedRecord :
    let s := decoding 2 2 4 [0xF0000000]
    s.phase = .busy .decode ∧ s.inputs = [] ∧ s.src + 4 = s.payload ∧ s.srcAddr s.src + 4 ≤ Config.addressSpace ∧
      decode .record [s.mem.read (s.srcAddr s.src), s.mem.read (s.srcAddr s.src + 1), s.mem.read (s.srcAddr s.src + 2),
        s.mem.read (s.srcAddr s.src + 3)] = .ok (.eos 0, []) := by decide

/-- The host's next action is a register write. -/
def writing (s : State) (offset : BitVec 12) (v : Word) : State :=
  { s with inputs := [.external (.regWrite offset 4 v)] }

theorem witness_writtenCommand :
    (writing State.reset 0x000 0x80000001).inputs = .external (.regWrite 0x000 4 0x80000001) :: [] ∧
      decode .command (wordBytes 0x80000001) = .ok (.hdrInit 0, []) ∧ startOf 0x00000002 = false := by decide

/-- LIT: one pixel too many for the frame; one byte too few in the stream; both exactly full. -/
theorem witness_lit :
    let s := fetched 2 2 8 [0x10000001, pixA]
    s.pixelCount < s.dst + 5 ∧ s.dst + 2 ≤ s.pixelCount ∧ s.payload < s.src + 4 * 2 ∧ s.src + 4 * 1 = s.payload ∧
      regionsInRange s.streamSource s.frameDest = true ∧ s.streamSource.overlaps s.frameDest = false := by decide

/-- LIT_WSL: line 2 of 2 with a pixel, line 1 of 2 to the frame's end, and past P. -/
theorem witness_litWsl :
    let s := fetched 2 2 12 [0x20010002, pixC, pixD]
    s.pixelCount < 2 * s.width.toNat + 1 ∧ 1 * s.width.toNat + 2 = s.pixelCount ∧ s.src + 4 * 2 = s.payload ∧
      0 * s.width.toNat + 3 ≤ s.pixelCount ∧ s.payload < s.src + 4 * 3 ∧
      regionsInRange s.streamSource s.frameDest = true ∧ s.streamSource.overlaps s.frameDest = false := by decide

/-- RUN: five pixels of four; four of four with the pixel word ending at P; and with no pixel word. -/
theorem witness_run :
    let s := fetched 2 2 8 [0x30000004, pixA]
    let short := fetched 2 2 4 [0x30000000]
    s.pixelCount < s.dst + 5 ∧ s.dst + 4 = s.pixelCount ∧ s.src + 4 = s.payload ∧
      short.dst + 0 ≤ short.pixelCount ∧ short.payload < short.src + 4 ∧
      regionsInRange s.streamSource s.frameDest = true := by decide

/-- RUN_WSL: line 2 with a pixel; line 2 with none; line 1 with two and no pixel word. -/
theorem witness_runWsl :
    let s := fetched 2 2 8 [0x40020000, pixA]
    let short := fetched 2 2 4 [0x40010002]
    s.pixelCount < 2 * s.width.toNat + 1 ∧ 2 * s.width.toNat + 0 = s.pixelCount ∧ s.src + 4 = s.payload ∧
      1 * short.width.toNat + 2 ≤ short.pixelCount ∧ short.payload < short.src + 4 ∧
      regionsInRange s.streamSource s.frameDest = true := by decide

/-- LIT and RUN answer a next state, writing and completing. -/
theorem witness_plainFrame :
    (∃ t, exec (.lit 0 1) (fetched 2 2 8 [0x10000001, pixA]) = .next t ∧ decide (t.dst = 1) = true) ∧
      ∃ t, exec (.run 0 5) (fetched 2 2 8 [0x30000005, pixA]) = .next t ∧ decide (t.phase = .idle) = true :=
  ⟨answers_next (by decide), answers_next (by decide)⟩

theorem witness_startLineFrame :
    (∃ t, exec (.litWsl 1 1) (fetched 2 2 8 [0x20010001, pixA]) = .next t ∧ decide (t.dst = 3) = true) ∧
      ∃ t, exec (.runWsl 2 1) (fetched 2 2 8 [0x40020001, pixA]) = .next t ∧ decide (t.phase = .idle) = true :=
  ⟨answers_next (by decide), answers_next (by decide)⟩

theorem witness_decodeStarts :
    let s : State := { decoding 2 2 4 [0xF0000000] with phase := .idle }
    s.phase = .idle ∧ s.regionsReady s.streamSource s.frameDest := by
  unfold State.regionsReady; decide

/-- The outcomes of the checks, each in a state of its own; a start-line record in two of them, and a fetch at 2^32. -/
theorem witness_firstFailing :
    let fetch := decoding 2 2 3 [0xF0000000]
    let top : State := { decoding 2 2 4 [] with srcBaseHi := 0x3FFFFFFF, src := 4 }
    let kind := decoding 2 2 4 [0x5000FFFF]
    let stop := decoding 2 2 4 [0xF0000000]
    let dest := decoding 2 2 4 [0x10000005]
    let destLine := decoding 2 2 4 [0x20030000]
    let source := decoding 2 2 8 [0x10000002, pixA]
    let sourceLine := decoding 2 2 4 [0x40020000]
    (∀ s ∈ [fetch, top, kind, stop, dest, destLine, source, sourceLine], s.phase = .busy .decode ∧ s.inputs = []) ∧
      (∀ s ∈ [kind, stop, dest, destLine, source, sourceLine], s.srcAddr s.src + 4 ≤ Config.addressSpace) ∧
      fetch.payload < fetch.src + 4 ∧ top.payload < top.src + 4 ∧ top.srcAddr top.src = Config.addressSpace ∧
      kindOf (kind.srcWord kind.src) = 0x5 ∧ kind.src + 4 = kind.payload ∧
      kindOf (stop.srcWord stop.src) = 0xF ∧ dest.pixelCount < dest.dst + 5 ∧
      kindOf (destLine.srcWord 0) = 0x2 ∧ destLine.pixelCount < 3 * destLine.width.toNat + 0 ∧
      source.dst + 2 ≤ source.pixelCount ∧ source.payload < source.src + 4 + 4 * 2 ∧
      kindOf (sourceLine.srcWord 0) = 0x4 ∧ 2 * sourceLine.width.toNat + 0 = sourceLine.pixelCount ∧
      sourceLine.payload < sourceLine.src + 4 + 4 := by
  simp only [List.forall_mem_cons, List.not_mem_nil, false_imp_iff, implies_true, and_true]
  decide

theorem witness_decodeStep :
    let s := decoding 2 2 12 [0x30000004, pixA, 0xF0000000]
    s.phase = .busy .decode ∧ s.inputs = [] ∧ ∃ t, step s = .next t ∧ decide (t.dst = 4) = true :=
  ⟨rfl, rfl, answers_next (by decide)⟩

/-- Another memory with the same stream and a byte more behind it. -/
theorem witness_decodeReads :
    let s := decoding 2 2 12 [0x30000004, pixA, 0xF0000000]
    s.phase = .busy .decode ∧ s.inputs = [] ∧ s.regionsKept ∧
      (∀ addr, s.streamSource.contains addr = true → (s.mem.write 0x100C 0xEE).read addr = s.mem.read addr) ∧
      ∃ t, step s = .next t ∧ decide (t.dst = 4) = true := by
  refine ⟨rfl, rfl, by unfold State.regionsKept; decide, fun addr h => ?_, answers_next (by decide)⟩
  apply Memory.read_write_ne
  have hr : (decoding 2 2 12 [0x30000004, pixA, 0xF0000000]).streamSource = ⟨0x1000, 12⟩ := by decide
  rw [hr] at h
  simp only [Region.contains, decide_eq_true_eq] at h
  omega

/-- A running DECODE in which the invariant holds, with RUN 4, A and EOS before it. -/
theorem witness_decodingInv :
    let s := decoding 2 2 12 [0x30000004, pixA, 0xF0000000]
    s.Inv ∧ s.phase = .busy .decode ∧ s.inputs = [] ∧ s.busy = true ∧ ∃ t, step s = .next t ∧ decide (t.dst = 4) = true := by
  refine ⟨⟨by decide, List.length_replicate, by decide, rfl, ⟨List.Pairwise.nil, fun _ h => (by cases h)⟩,
    by unfold State.regionsKept; decide, ?_, ?_⟩, rfl, rfl, rfl, answers_next (by decide)⟩
  · unfold State.decoderKept; decide
  · unfold State.encoderKept State.encoding; decide

/-- A running ENCODE in which the invariant holds, with exactly the room it needs. -/
theorem witness_encodingInv :
    let s := encoding 12 [pixX, pixX, pixX, pixX]
    s.Inv ∧ s.encoding ∧ s.busy = true ∧ s.phase ≠ .busy .hdrInit ∧ s.inputs = [] ∧
      s.out + 4 * s.remainingWords.length = s.dstCap.toNat ∧
      ∃ t, step s = .next t ∧ decide (t.busy = true ∧ t.out = 8) = true := by
  refine ⟨⟨by decide, List.length_replicate, by decide, rfl, ⟨List.Pairwise.nil, fun _ h => (by cases h)⟩,
    by unfold State.regionsKept; decide, ?_, ?_⟩, .inl rfl, rfl, by decide, rfl, by decide, answers_next (by decide)⟩
  · unfold State.decoderKept; decide
  · unfold State.encoderKept State.encoding; decide

/-- Another memory with the same pixels and another byte in the destination region. -/
theorem witness_encodeReads :
    let s := encoding 12 [pixX, pixX, pixX, pixX]
    s.encoding ∧ s.encoderKept ∧ s.inputs = [] ∧
      (∀ addr, (s.pixelSource s.a s.b).contains addr = true → (s.mem.write 0x2000 0xEE).read addr = s.mem.read addr) ∧
      ∃ t, step s = .next t ∧ decide (t.out = 8) = true := by
  refine ⟨.inl rfl, by unfold State.encoderKept State.encoding; decide, rfl, fun addr h => ?_, answers_next (by decide)⟩
  apply Memory.read_write_ne
  simp only [Region.contains, decide_eq_true_eq] at h
  have hb : ((encoding 12 [pixX, pixX, pixX, pixX]).pixelSource 0 4).base = 0x1000 := by decide
  have hl : ((encoding 12 [pixX, pixX, pixX, pixX]).pixelSource 0 4).len = 16 := by decide
  have h' : addr < 0x1000 + 16 := hb ▸ hl ▸ h.2
  omega

theorem witness_hdrInit :
    (framed 24 [pixA]).phase = .idle ∧ (framed 24 [pixA]).inputs = [] ∧ (framed 24 [pixA]).busy = false := by decide

/-- EncLen is exactly DST_CAP (95 L2-E17). -/
theorem witness_encode :
    let s := framed 12 [pixX, pixX, pixX, pixX]
    s.phase = .idle ∧ s.inputs = [] ∧ s.regionsReady s.frameSource s.streamDest ∧
      encLen s.pix 0 s.pixelCount = s.dstCap.toNat := by
  unfold State.regionsReady; decide

/-- fl + lc is exactly HEIGHT (95 L2-P1). -/
theorem witness_encodePartial :
    let s := banded 1 2
    s.phase = .idle ∧ s.inputs = [] ∧ s.firstLine + s.lineCount = s.height.toNat ∧
      regionsInRange s.frameSource s.streamDest = true ∧
      s.regionsReady (s.pixelSource s.bandStart s.bandEnd) s.streamDest ∧ encLen s.pix s.bandStart s.bandEnd ≤ s.dstCap.toNat := by
  unfold State.regionsReady; decide

/-- A run that a different pixel ends. -/
theorem witness_runLength :
    let pix := pixelAt [pixX, pixX, pixX, pixY]
    0 < 4 ∧ runLength pix 0 4 = 3 ∧ runLength pix 0 4 < min 65535 (4 - 0) := by decide

/-- Three equal pixels that end at b; two equal pixels. -/
theorem witness_runTrigger :
    (0 < 3 ∧ 0 + 2 < 3 ∧ pixelAt [pixX, pixX, pixX] 1 = pixX ∧ pixelAt [pixX, pixX, pixX] 2 = pixX) ∧
      ¬(0 + 2 < 2 ∧ pixelAt [pixX, pixX, pixX] 1 = pixX ∧ pixelAt [pixX, pixX, pixX] 2 = pixX) := by decide

/-- A destination that shares bytes with row 0 of the frame only, which the band does not hold (20_memory R72). -/
theorem witness_encodePartialBeside :
    let s : State := { banded 1 2 with dstBaseHi := 0x3F8, dstCap := 40 }
    s.regionsReady (s.pixelSource s.bandStart s.bandEnd) s.streamDest ∧ s.frameSource.overlaps s.streamDest = true := by
  unfold State.regionsReady; decide

/-- The stream of 95 L1-2b before its decode. -/
theorem witness_roundTrip :
    let pix := pixelAt [pixX, pixX, pixX, pixY]
    let s := decoding 4 1 20 [0x30000003, pixX, 0x10000001, pixY, 0xF0000000]
    s.phase = .busy .decode ∧ s.inputs = [] ∧ s.regionsKept ∧ s.src = 0 ∧ s.dst = 0 ∧
      wordsAt s s.srcBase.toNat (encodeWords pix 0 0 s.pixelCount false) ∧ s.payload = encLen pix 0 s.pixelCount := by
  unfold State.regionsKept wordsAt; decide

/-- The stream of 95 L2-P1 before its decode. -/
theorem witness_roundTripPartial :
    let pix := pixelAt [pixA, pixB, pixX, pixX, pixX, pixY]
    let s := decoding 2 3 20 [0x40010003, pixX, 0x10000001, pixY, 0xF0000000]
    s.phase = .busy .decode ∧ s.inputs = [] ∧ s.regionsKept ∧ s.src = 0 ∧ s.dst = 0 ∧
      (1 : BitVec 12).toNat + 2 = s.height.toNat ∧
      wordsAt s s.srcBase.toNat (encodeWords pix 1 (s.lineStart 1) (s.lineStart 3) true) ∧
      s.payload = encLen pix (s.lineStart 1) (s.lineStart 3) := by
  unfold State.regionsKept wordsAt; decide

/-- A reserved command, and a command while BUSY. -/
theorem witness_rejected :
    startOf 0x80000005 = true ∧ cmdOf 0x80000005 ∈ [0, 5, 6, 7] ∧ startOf 0x80000001 = true ∧
      (writing (decoding 2 2 4 [0xF0000000]) 0x000 0x80000001).busy = true := by decide

/-- For each reason an ENCODE, an ENCODE_PARTIAL or a DECODE for which it is the one precondition that fails. -/
theorem witness_refused :
    let room := framed 19 [pixX, pixX, pixY]
    let rows := banded 2 2
    let idle : State := { decoding 2 2 4 [0xF0000000] with phase := .idle }
    let high : State := { idle with dstBaseHi := 0x3FFFFFFD }
    let shared : State := { idle with dstBaseHi := 0x3FD }
    let device : State := { idle with devices := [⟨0x200F, 1⟩] }
    let beside : State := { idle with others := [⟨1, ⟨⟨0x200F, 1⟩, ⟨0x3000, 4⟩⟩⟩] }
    (∀ s ∈ [room, rows, idle, high, shared, device, beside], s.phase = .idle) ∧
      room.encodeFails .capacity ∧ ¬room.encodeFails .range ∧ ¬room.encodeFails .overlap ∧ ¬room.encodeFails .deviceMemory ∧
      ¬room.encodeFails .race ∧
      rows.encodePartialFails .range ∧ ¬rows.encodePartialFails .overlap ∧ ¬rows.encodePartialFails .capacity ∧
      high.decodeFails .range ∧ ¬high.decodeFails .overlap ∧
      shared.decodeFails .overlap ∧ ¬shared.decodeFails .range ∧
      device.decodeFails .deviceMemory ∧ ¬device.decodeFails .overlap ∧
      beside.decodeFails .race ∧ ¬beside.decodeFails .deviceMemory := by
  simp only [List.forall_mem_cons, List.not_mem_nil, false_imp_iff, implies_true, and_true, State.encodeFails,
    State.encodePartialFails, State.decodeFails, State.regionsFail]
  decide

/-- 95 L2-P6: the reason is RANGE; 95 L2-E16: it is CAPACITY; a region past 2^32: it is RANGE. -/
theorem test_reasons :
    refuses (exec (.encodePartial 0) (banded 2 2)) .range = true ∧
      refuses (exec (.encode 0) (framed 19 [pixX, pixX, pixY])) .capacity = true ∧
      refuses (exec (.decode 0) { decoding 2 2 4 [0xF0000000] with phase := .idle, dstBaseHi := 0x3FFFFFFD }) .range =
        true := by decide

/-- A command that is rejected, and one that is accepted. -/
theorem witness_commandFrame :
    (Instr.hdrInit 0).lang = .command ∧
      (∃ t, exec (.hdrInit 0) (decoding 2 2 4 [0xF0000000]) = .next t ∧ decide (t.cmdErr = true) = true) ∧
      ∃ t, exec (.hdrInit 0) State.reset = .next t ∧ decide (t.busy = true ∧ t.irq = false) = true :=
  ⟨rfl, answers_next (by decide), answers_next (by decide)⟩

/-- The first and the last register of the window that a host configures, and RESULT. -/
theorem witness_registerWrite :
    (writing State.reset 0x00C 1).phase = .idle ∧ regAt 0x00C = .irqEn ∧ regAt 0x008 = .result ∧
      regAt 0xFFC = .reserved 959 ∧ 959 < 960 ∧ BitVec.ofNat 12 (0x100 + 4 * 959) = 0xFFC ∧ (0xFFC : BitVec 12).toNat % 4 = 0 ∧ (0x00C : BitVec 12).toNat % 4 = 0 := by decide

theorem witness_busyWrite :
    (writing (decoding 2 2 4 [0xF0000000]) 0x018 99).busy = true ∧ (0x018 : BitVec 12).toNat % 4 = 0 ∧
      regAt 0x018 ∉ [.ctrl, .status, .irqEn] := by decide

theorem witness_statusWrite :
    (writing State.reset 0x004 0x6).inputs = .external (.regWrite 0x004 4 0x6) :: [] := by decide

/-- A narrow access and an access between two registers. -/
theorem witness_unaligned : (2 ≠ 4 ∨ (0x018 : BitVec 12).toNat % 4 ≠ 0) ∧ (4 ≠ 4 ∨ (0x01B : BitVec 12).toNat % 4 ≠ 0) := by
  decide

/-- The first and the last unassigned offset below RESERVED[]. -/
theorem witness_registerRead :
    (0x040 : BitVec 12).toNat % 4 = 0 ∧ 0x040 ≤ (0x040 : BitVec 12).toNat ∧ (0x0FC : BitVec 12).toNat < 0x100 ∧
      (0x0FC : BitVec 12).toNat % 4 = 0 ∧ regAt 0x0FC = .unassigned ∧ regAt 0x100 = .reserved 0 := by decide

/-- An interrupt that is pending, one a write of STATUS clears, and a completion with the enable set. -/
theorem witness_interrupt :
    ({ State.reset with done := true, doneIe := true } : State).irq = true ∧ (0x2 : Word).getLsbD 1 = true ∧
      (0x0 : Word).getLsbD 0 = false ∧
      ∃ t, step { decoding 2 2 4 [0xF0000000] with doneIe := true } = .next t ∧
        decide (t.busy = false ∧ t.irq = true) = true :=
  ⟨by decide, by decide, by decide, answers_next (by decide)⟩

/-- 10_state R56: a write of IRQ_EN while BUSY takes effect. -/
theorem test_irqEn_while_busy :
    answers (step (writing (decoding 2 2 4 [0xF0000000]) 0x00C 1)) (fun t =>
      decide (t.doneIe = true ∧ t.busy = true ∧ t.inputs = [])) = true := by decide

/-- A DECODE about to complete, in the cycle of a write of STATUS and in the cycle of a command. -/
theorem witness_sameCycle :
    let s := decoding 2 2 4 [0xF0000000]
    s.busy = true ∧ decodeCommand 0x80000001 = some (.hdrInit 0) ∧
      ({ s with inputs := [.sameCycle (.regWrite 0x004 4 2) true] } : State).inputs =
        .sameCycle (.regWrite 0x004 4 2) true :: [] ∧
      ∃ u, engineTurn s = .next u ∧ decide (u.busy = false) = true :=
  ⟨by decide, by decide, rfl, answers_next (by decide)⟩

/-- Four bytes at the top of the space. -/
theorem witness_hostBytes :
    State.reset.phase = .idle ∧ State.reset.unseen = [] ∧ State.reset.devices = [] ∧ 0xFFFFFFFC + 4 ≤ Config.addressSpace := by decide

/-- 10_state R38: -3 as the host reads it at offset 0x008. -/
theorem test_result_word :
    answers (registerRead 0x008 4 { State.reset with result := .destinationOverrun }) (fun t =>
      decide (t.reply = .register 0xFFFFFFFD)) = true := by decide

/-- 10_state R32: offset 0x01C is HEIGHT and offset 0x018 is WIDTH. -/
theorem test_offsets :
    answers (registerRead 0x01C 4 { State.reset with width := 3, height := 5 }) (fun t => decide (t.reply = .register 5)) =
        true ∧
      answers (registerWrite 0x018 4 9 State.reset) (fun t => decide (t.width = 9 ∧ t.height = 0)) = true := by decide

/-- A DECODE that has completed, before the host has looked. -/
def completed : State := (decoding 2 2 4 [0xF0000000]).complete .success

/-- A write of the frame's last byte, while the DECODE runs and when nobody has seen its completion, and of the byte behind it. -/
theorem witness_race :
    let s := decoding 2 2 4 [0xF0000000]
    s.touchesDevice ⟨0x200F, 1⟩ = false ∧ 0x200F + 1 ≤ Config.addressSpace ∧
      (Region.mk 0x200F 1).overlaps s.activeClaim.writes = true ∧ completed.unseen = [s.activeClaim] ∧
      completed.activeClaim = ⟨⟨0, 0⟩, ⟨0, 0⟩⟩ ∧ (Region.mk 0x2010 1).overlaps s.activeClaim.writes = false ∧
      (Region.mk 0x2010 1).overlaps s.activeClaim.reads = false := by decide

/-- A read that starts at the last byte of the frame being written, or written and not seen. -/
theorem witness_hostRead :
    let s := decoding 2 2 4 [0xF0000000]
    0x200F + 2 ≤ Config.addressSpace ∧ s.touchesDevice ⟨0x200F, 2⟩ = false ∧ s.activeClaim.writes.contains 0x200F = true ∧
      s.activeClaim.writes.contains 0x2010 = false ∧ completed.unseen = [s.activeClaim] := by decide

/-- 70_reset R258: a host write before DONE = 1 was seen is RACE, and after a read of STATUS it lands. -/
theorem test_write_before_done_seen : refuses (memoryWrite 0x2000 [0x11] completed) .race = true := by decide

theorem test_write_after_done_seen :
    answers (registerRead 0x004 4 completed) (fun t =>
      answers (memoryWrite 0x2000 [0x11] t) fun u => decide (u.mem.read 0x2000 = 0x11)) = true := by decide

/-- The host reads STATUS, polls, takes the interrupt; a step that completes, one that does not, and an event that sees nothing. -/
theorem witness_exclusion :
    completed.done = true ∧ ({ completed with doneIe := true } : State).irq = true ∧
      (decoding 2 2 4 [0xF0000000]).done = false ∧
      (∃ t, step (decoding 2 2 4 [0xF0000000]) = .next t ∧ decide (t.busy = false ∧ t.unseen ≠ []) = true) ∧
      (∃ t, step (decoding 2 2 12 [0x30000004, pixA, 0xF0000000]) = .next t ∧ decide (t.busy = true) = true) ∧
      (Event.regRead 0x008 4 ≠ .reset ∧ Event.regRead 0x008 4 ≠ .takeIrq ∧ Event.regRead 0x008 4 ≠ .regRead 0x004 4) ∧
      ∃ t, step { completed with inputs := [.external (.regRead 0x008 4)] } = .next t ∧ decide (t.unseen ≠ []) = true :=
  ⟨by decide, by decide, by decide, answers_next (by decide), answers_next (by decide), by decide, answers_next (by decide)⟩

/-- One step of each other kind of input: the engine by name, a poll with DONE = 0, an interrupt that is not enabled, an event in the
cycle of the completion, in both orders. -/
theorem witness_exclusionInputs :
    let s := decoding 2 2 4 [0xF0000000]
    let claim := s.activeClaim
    answers (step { s with inputs := [.engine] }) (fun t => decide (t.unseen = [claim])) = true ∧
      answers (step { s with inputs := [.wait] }) (fun t => decide (t.unseen = [claim])) = true ∧
      answers (step { completed with inputs := [.external .takeIrq] }) (fun t => decide (t.unseen = [claim])) = true ∧
      answers (step { s with inputs := [.sameCycle (.regRead 0x004 4) true] }) (fun t => decide (t.unseen = [])) = true ∧
      answers (step { s with inputs := [.sameCycle (.regRead 0x004 4) false] }) (fun t => decide (t.unseen = [claim])) =
        true := by decide

/-- Two instances: numbers the platform does not have, one that runs already, one that writes the stream's last byte, and one that
only reads it. -/
theorem witness_clash :
    let s : State := { decoding 2 2 4 [0xF0000000] with instances := 2 }
    let busy : State := { s with others := [⟨1, ⟨⟨0x4000, 4⟩, ⟨0x3000, 4⟩⟩⟩] }
    s.instances ≤ 2 ∧ ¬(1 = 0 ∨ s.instances ≤ 1) ∧ (∃ o ∈ busy.others, o.who = 1) ∧ ¬(∃ o ∈ s.others, o.who = 1) ∧
      (Region.mk 0x1003 1).overlaps s.activeSource = true ∧
      claimsClash s.activeSource s.activeDest ⟨⟨0x1003, 1⟩, ⟨0x3000, 4⟩⟩ = false := by decide

/-- An operation of another instance that ends, and one that is not in the list. -/
theorem witness_otherEnds :
    let s : State := { State.reset with others := [⟨1, ⟨⟨0x4000, 4⟩, ⟨0x3000, 4⟩⟩⟩] }
    answers (otherEnds 1 s) (fun t => decide (t.others = [])) = true ∧ ∀ o ∈ s.others, o.who ≠ 2 := by decide

/-- A DECODE that the engine moves under the input that names it, under a poll, and in the cycle of an event, in both orders. -/
theorem witness_engineMoves :
    let s := decoding 2 2 12 [0x30000004, pixA, 0xF0000000]
    s.done = false ∧ isStatusWrite (.memRead 0 1) = false ∧ isStatusWrite (.regWrite 0x004 4 2) = true ∧
      answers (step { s with inputs := [.engine] }) (fun t => decide (t.dst = 4 ∧ t.inputs = [])) = true ∧
      answers (step { s with inputs := [.wait] }) (fun t =>
        decide (t.dst = 4 ∧ t.inputs = [.wait] ∧ t.reply = .register 1)) = true := by decide

/-- Reset in IDLE and in the middle of a DECODE. -/
theorem witness_resetInput :
    ({ State.reset with inputs := [.external .reset] } : State).inputs = .external .reset :: [] ∧
      State.reset.phase = .idle ∧ (decoding 2 2 4 [0xF0000000]).activeDest = ⟨0x2000, 16⟩ ∧
      (decoding 2 2 4 [0xF0000000]).activeSource.contains 0x1003 = true := by decide

theorem witness_idle : State.reset.phase = .idle ∧ State.reset.inputs = [] := by decide

end Sys2Proof.Tests
end

section
/-! PROOFS. The register window: the map as arithmetic, a register access as one step of the machine, what a register reads after a
write of it or of another, and that the engine runs alike whatever DONE and CMD_ERR hold (10_state R32 to R49). -/

namespace Sys2Proof.Machine

variable {s u : State} {rest : List Input} {offset : BitVec 12} {v w : Word} {r r' : Reg} {i : Instr} {count : Nat}
  {d c : Bool}

/-! ### The register map (10_state R32) -/

theorem regAccessOk_aligned (h : offset.toNat % 4 = 0) : regAccessOk offset 4 = true := by
  simp [regAccessOk, h]

theorem regAt_past_named {n : Nat} (h : 0x040 ≤ n) :
    regAt n = if 0x100 ≤ n ∧ n % 4 = 0 then .reserved ((n - 0x100) / 4) else .unassigned := by
  unfold regAt
  split <;> try omega
  rfl

theorem regAt_reserved (n : Nat) : regAt (0x100 + 4 * n) = .reserved n := by
  rw [regAt_past_named (by omega), if_pos (by omega)]
  congr 1
  omega

theorem regAt_unassigned {n : Nat} (h : 0x040 ≤ n) (hn : n < 0x100) : regAt n = .unassigned := by
  rw [regAt_past_named h, if_neg (by omega)]

theorem regAt_eq_status {n : Nat} : regAt n = .status ↔ n = 0x004 := by
  constructor
  · intro h
    by_cases hn : 0x040 ≤ n
    · rw [regAt_past_named hn] at h
      split at h <;> cases h
    · have named : ∀ m < 0x040, regAt m = .status → m = 0x004 := by decide
      exact named n (by omega) h
  · rintro rfl
    rfl

/-! ### The words of STATUS and IRQ_EN (10_state R34 to R39) -/

theorem bitWord_getLsbD (b : Bool) {m : Nat} (hm : m < 32) (n : Nat) :
    (bitWord b m).getLsbD n = (decide (n = m) && b) := by
  cases b with
  | false => simp [bitWord]
  | true => simp [bitWord, BitVec.getLsbD_twoPow, hm, eq_comm]

theorem State.statusWord_getLsbD (s : State) (n : Nat) :
    s.statusWord.getLsbD n =
      ((decide (n = 0) && s.busy) || (decide (n = 1) && s.done) || (decide (n = 2) && s.cmdErr)) := by
  simp only [State.statusWord, BitVec.getLsbD_or, bitWord_getLsbD _ (by decide : 0 < 32),
    bitWord_getLsbD _ (by decide : 1 < 32), bitWord_getLsbD _ (by decide : 2 < 32)]

/-! ### A register access as one step (20_memory R75; log 3) -/

/-- A register write other than CTRL is one step of the machine, in every phase. -/
theorem step_writeReg (hin : s.inputs = .external (.regWrite offset 4 v) :: rest) (ha : offset.toNat % 4 = 0)
    (hr : regAt offset.toNat = r) (hc : r ≠ .ctrl) :
    step s = .next (({ s with inputs := rest } : State).writeReg r v) := by
  rw [step_external hin]
  simp [eventTurn, registerWrite, regAccessOk_aligned ha, hr, hc]

theorem step_writeCtrl (hin : s.inputs = .external (.regWrite 0x000 4 w) :: rest) :
    step s = writeCtrl w { s with inputs := rest } := by
  rw [step_external hin]
  rfl

theorem State.afterReading_eq (s : State) (r : Reg) :
    s.afterReading r = { s with unseen := if r = .status ∧ s.done = true then [] else s.unseen } := by
  unfold State.afterReading
  split <;> rfl

theorem step_readReg (hin : s.inputs = .external (.regRead offset 4) :: rest) (ha : offset.toNat % 4 = 0) :
    step s = .next { s with
      inputs := rest
      reply := .register (s.readReg (regAt offset.toNat))
      unseen := if regAt offset.toNat = .status ∧ s.done = true then [] else s.unseen } := by
  rw [step_external hin]
  simp only [eventTurn, registerRead, regAccessOk_aligned ha, State.afterReading_eq]
  rfl

theorem writeCtrl_command (h : decodeCommand w = some i) (s : State) : writeCtrl w s = exec i s := by
  simp [writeCtrl, h]

theorem writeCtrl_noStart (h : startOf w = false) (s : State) : writeCtrl w s = .next s := by
  simp [writeCtrl, decodeCommand_noStart h]

theorem decodeCommand_of_decode (h : decode .command (wordBytes w) = .ok (i, [])) : decodeCommand w = some i := by
  have hd := decode_wordBytes .command w []
  rw [List.append_nil, h] at hd
  cases hw : decodeCommand w with
  | none => rw [hw] at hd; cases hd
  | some j => rw [hw] at hd; cases hd; rfl

/-! ### Writes of configuration registers in IDLE (10_state R40 to R49) -/

theorem State.writeReg_eq_configured (hs : s.phase = .idle) (h : r ∉ [.status, .irqEn]) :
    s.writeReg r v = s.configured r v := by
  unfold State.writeReg
  split
  · simp at h
  · simp at h
  · simp [State.busy_eq_false.2 hs]

theorem step_configures (hs : s.phase = .idle) (hin : s.inputs = .external (.regWrite offset 4 v) :: rest)
    (ha : offset.toNat % 4 = 0) (hr : regAt offset.toNat = r) (h : r ∉ [.ctrl, .status, .irqEn]) :
    step s = .next (({ s with inputs := rest } : State).configured r v) := by
  rw [List.mem_cons, not_or] at h
  rw [step_writeReg hin ha hr h.1, State.writeReg_eq_configured (s := { s with inputs := rest }) hs h.2]

/-- Two halves of a word, one above the other, are the word (10_state R41). -/
theorem halves_append (v : Word) : v.extractLsb' 16 16 ++ v.extractLsb' 0 16 = v := by
  rw [BitVec.extractLsb'_append_extractLsb'_eq_extractLsb' (by decide)]
  simp

/-- A base address keeps bits 31:2 of the word written (10_state R46). -/
theorem base_append (v : Word) : v.extractLsb' 2 30 ++ 0#2 = v &&& 0xFFFFFFFC := by
  have mask : ∀ n : Fin 32, (0xFFFFFFFC : Word).getLsbD n = decide (2 ≤ n.val) := by decide
  apply BitVec.eq_of_getLsbD_eq
  intro n hn
  rw [BitVec.getLsbD_and, mask ⟨n, hn⟩, BitVec.getLsbD_append, BitVec.getLsbD_extractLsb']
  by_cases h : n < 2
  · simp [h]
  · simp [h, show 2 ≤ n by omega, show n - 2 < 30 by omega, show 2 + (n - 2) = n by omega]

/-- PART_FIRST_LINE keeps bits 11:0 of the word written (10_state R48). -/
theorem firstLine_zeroExtend (v : Word) : (v.extractLsb' 0 12).zeroExtend 32 = v &&& 0x00000FFF := by
  have mask : ∀ n : Fin 32, (0x00000FFF : Word).getLsbD n = decide (n.val < 12) := by decide
  apply BitVec.eq_of_getLsbD_eq
  intro n hn
  rw [BitVec.getLsbD_and, mask ⟨n, hn⟩]
  simp [hn, Bool.and_comm]

/-- IRQ_EN keeps bit 0 of the word written (10_state R39). -/
theorem bitWord_bit0 (v : Word) : bitWord (v.getLsbD 0) 0 = v &&& 0x00000001 := by
  have mask : ∀ n : Fin 32, (0x00000001 : Word).getLsbD n = decide (n.val = 0) := by decide
  apply BitVec.eq_of_getLsbD_eq
  intro n hn
  rw [BitVec.getLsbD_and, mask ⟨n, hn⟩, bitWord_getLsbD _ (by decide)]
  by_cases h : n = 0 <;> simp [h]

/-- A register all of whose bits the host writes keeps the whole word (10_state R40 to R49). -/
theorem and_fullMask (v : Word) : v &&& 0xFFFFFFFF = v := BitVec.and_allOnes

/-- A register written in IDLE reads as the value in its writable bits and 0 in the others. -/
theorem State.readReg_writeReg_same (hs : s.phase = .idle) (h : r ∉ [.ctrl, .status, .result]) :
    (s.writeReg r v).readReg r = v &&& s.writableBits r := by
  by_cases hi : r = .irqEn
  · subst hi
    exact bitWord_bit0 v
  rw [State.writeReg_eq_configured hs (by simp_all)]
  cases r with
  | ctrl | status | result | irqEn => simp at h hi
  | unassigned => exact (BitVec.and_zero (x := v)).symm
  | version => exact (halves_append v).trans (and_fullMask v).symm
  | srcBase | dstBase => exact base_append v
  | partFirstLine => exact firstLine_zeroExtend v
  | reserved n =>
    show (s.reserved.set n v).getD n 0 = v &&& (if n < s.reserved.length then 0xFFFFFFFF else 0)
    by_cases hn : n < s.reserved.length
    · rw [if_pos hn, and_fullMask]
      simp [hn]
    · rw [if_neg hn]
      simp [hn]
  | magic | width | height | id | uncompressed | payloadSize | dstCap | partLineCount => exact (and_fullMask v).symm

theorem State.readReg_configured_other (h : r' ≠ r) : (s.configured r v).readReg r' = s.readReg r' := by
  cases r with
  | reserved n =>
    cases r' with
    | reserved m =>
      have hn : n ≠ m := fun he => h (by rw [he])
      show (s.reserved.set n v).getD m 0 = s.reserved.getD m 0
      simp [List.getD_eq_getElem?_getD, List.getElem?_set_ne hn]
    | _ => rfl
  | ctrl | status | result | irqEn | unassigned => rfl
  | magic | version | width | height | id | uncompressed | payloadSize | srcBase | dstBase | dstCap | partFirstLine
  | partLineCount => cases r' <;> simp at h <;> rfl

/-- A register written in IDLE leaves what every other register reads as. -/
theorem State.readReg_writeReg_other (hs : s.phase = .idle) (hr : r ≠ .status) (h : r' ≠ r) :
    (s.writeReg r v).readReg r' = s.readReg r' := by
  by_cases hi : r = .irqEn
  · subst hi
    cases r' with
    | irqEn => exact absurd rfl h
    | _ => rfl
  · rw [State.writeReg_eq_configured hs (by simp [hr, hi]), State.readReg_configured_other h]

/-- A register write other than STATUS leaves memory, the status and everything outside the block. -/
theorem State.writeReg_frame (hs : s.phase = .idle) (hr : r ≠ .status) :
    (s.writeReg r v).mem = s.mem ∧ sameStatus s (s.writeReg r v) ∧ sameUnseen s (s.writeReg r v) ∧
      sameOutside s (s.writeReg r v) := by
  by_cases hi : r = .irqEn
  · subst hi
    exact ⟨rfl, ⟨rfl, rfl, rfl, rfl⟩, rfl, ⟨rfl, rfl, rfl, rfl, rfl, rfl⟩⟩
  · rw [State.writeReg_eq_configured hs (by simp [hr, hi])]
    cases r <;> exact ⟨rfl, ⟨rfl, rfl, rfl, rfl⟩, rfl, ⟨rfl, rfl, rfl, rfl, rfl, rfl⟩⟩

/-! ### The engine does not look at DONE and CMD_ERR (10_state R35, R36) -/

/-- The state with DONE and CMD_ERR at given values. -/
def State.withFlags (s : State) (d c : Bool) : State := { s with done := d, cmdErr := c }

@[simp] theorem State.withFlags_done (s : State) (d c : Bool) : (s.withFlags d c).done = d := rfl
@[simp] theorem State.withFlags_cmdErr (s : State) (d c : Bool) : (s.withFlags d c).cmdErr = c := rfl
@[simp] theorem State.withFlags_busy (s : State) (d c : Bool) : (s.withFlags d c).busy = s.busy := rfl
@[simp] theorem State.withFlags_result (s : State) (d c : Bool) : (s.withFlags d c).result = s.result := rfl
@[simp] theorem State.withFlags_mem (s : State) (d c : Bool) : (s.withFlags d c).mem = s.mem := rfl

theorem State.writeStatus_eq_withFlags (s : State) (v : Word) :
    s.writeStatus v = s.withFlags (s.done && !v.getLsbD 1) (s.cmdErr && !v.getLsbD 2) := rfl

/-- A move of a busy engine that led to u leads, from other values of the flags, to u with those values, but that a completion sets
DONE all the same. -/
def State.afterMove (u : State) (d c : Bool) : State := u.withFlags (!u.busy || d) c

theorem State.afterMove_complete (s : State) (code : ResultCode) (d c : Bool) :
    (s.complete code).afterMove d c = (s.withFlags d c).complete code := rfl

theorem State.afterMove_running (h : u.busy = true) (d c : Bool) : u.afterMove d c = u.withFlags d c := by
  simp [State.afterMove, h]

theorem literalRecord_withFlags (hb : s.busy = true) (h : literalRecord count s = .next u) :
    literalRecord count (s.withFlags d c) = .next (u.afterMove d c) := by
  rcases literalRecord_next h with ⟨hd, rfl⟩ | ⟨hd, hs, rfl⟩ | ⟨hd, hs, hfs, hfd, rfl⟩
  · rw [State.afterMove_complete]
    exact literalRecord_destination (s := s.withFlags d c) hd
  · rw [State.afterMove_complete]
    exact literalRecord_source (s := s.withFlags d c) hd hs
  · rw [State.afterMove_running (u := s.copied count) hb]
    exact literalRecord_copies (s := s.withFlags d c) hd hs hfs hfd

theorem runRecord_withFlags (hb : s.busy = true) (h : runRecord count s = .next u) :
    runRecord count (s.withFlags d c) = .next (u.afterMove d c) := by
  rcases runRecord_next h with ⟨hd, rfl⟩ | ⟨hd, hs, rfl⟩ | ⟨hd, hs, hfs, hfd, rfl⟩
  · rw [State.afterMove_complete]
    exact runRecord_destination (s := s.withFlags d c) hd
  · rw [State.afterMove_complete]
    exact runRecord_source (s := s.withFlags d c) hd hs
  · rw [State.afterMove_running (u := s.filled count) hb]
    exact runRecord_fills (s := s.withFlags d c) hd hs hfs hfd

theorem exec_record_withFlags (hl : i.lang = .record) (hb : s.busy = true) (h : exec i s = .next u) :
    exec i (s.withFlags d c) = .next (u.afterMove d c) := by
  cases i with
  | lit g n => exact literalRecord_withFlags hb h
  | litWsl l n => exact literalRecord_withFlags (s := s.repositioned l) hb h
  | run g n => exact runRecord_withFlags hb h
  | runWsl l n => exact runRecord_withFlags (s := s.repositioned l) hb h
  | eos | reservedKind0 | reservedKind5 | reservedKind6 | reservedKind7 | reservedKind8 | reservedKind9
  | reservedKindA | reservedKindB | reservedKindC | reservedKindD | reservedKindE =>
    cases Host.Outcome.next.inj h
    rfl
  | hdrInit | encode | encodePartial | decode | reservedCmd0 | reservedCmd5 | reservedCmd6 | reservedCmd7 => cases hl

theorem encodeTurn_withFlags (hb : s.busy = true) (h : encodeTurn s = .next u) :
    encodeTurn (s.withFlags d c) = .next (u.afterMove d c) := by
  obtain ⟨hc, hs, hd, ⟨hi, rfl⟩ | ⟨hi, rfl⟩⟩ := encodeTurn_next h
  · rw [State.afterMove_running (u := s.scanned.emitted s.turnWords) hb]
    exact encodeTurn_pass (s := s.withFlags d c) hc hs hd hi
  · rw [State.afterMove_complete]
    exact encodeTurn_tail (s := s.withFlags d c) hc hs hd hi

theorem decodeTurn_withFlags (hb : s.busy = true) (h : decodeTurn s = .next u) :
    decodeTurn (s.withFlags d c) = .next (u.afterMove d c) := by
  rcases decodeTurn_next h with ⟨hp, rfl⟩ | ⟨hp, hf, hx⟩
  · rw [State.afterMove_complete]
    exact decodeTurn_overrun (s := s.withFlags d c) hp
  · rw [decodeTurn_record (s := s.withFlags d c) hp hf]
    exact exec_record_withFlags (s := s.fetched) (decodeRecord_lang _) hb hx

/-- A busy engine makes the same move whatever DONE and CMD_ERR hold. -/
theorem engineTurn_withFlags (hb : s.busy = true) (h : engineTurn s = .next u) :
    engineTurn (s.withFlags d c) = .next (u.afterMove d c) := by
  obtain ⟨op, hop⟩ := State.busy_eq_true.1 hb
  cases op with
  | hdrInit =>
    rw [engineTurn_hdrInit hop] at h
    rw [engineTurn_hdrInit (s := s.withFlags d c) hop]
    cases Host.Outcome.next.inj h
    rfl
  | encode =>
    rw [engineTurn_encoding (.inl hop)] at h
    rw [engineTurn_encoding (s := s.withFlags d c) (.inl hop)]
    exact encodeTurn_withFlags hb h
  | encodePartial =>
    rw [engineTurn_encoding (.inr hop)] at h
    rw [engineTurn_encoding (s := s.withFlags d c) (.inr hop)]
    exact encodeTurn_withFlags hb h
  | decode =>
    rw [engineTurn_decode hop] at h
    rw [engineTurn_decode (s := s.withFlags d c) hop]
    exact decodeTurn_withFlags hb h

/-- A write of STATUS in the cycle of the engine's move goes before it, whichever order is asked for (10_state R35; log 11). -/
theorem step_sameCycle_writeStatus {engineFirst : Bool}
    (hin : s.inputs = .sameCycle (.regWrite 0x004 4 v) engineFirst :: rest) :
    step s = engineTurn (({ s with inputs := rest } : State).writeStatus v) := by
  have hw : isStatusWrite (.regWrite 0x004 4 v) = true := rfl
  rw [step_sameCycle hin, sameCycleTurn, hw]
  simp only [Bool.not_true, Bool.and_false]
  rfl

/-! ### The statements -/

/-- Settles O38: an offset of the map names one register, and a write of it in IDLE sets that register's field alone. -/
theorem registerWritesInIdleTakeEffect : Obligations.RegisterWritesInIdleTakeEffect := by
  refine ⟨fun s rest offset v hin hs ha hctrl hstatus => ?_, fun s rest v hs => ?_⟩
  · have hs' : ({ s with inputs := rest } : State).phase = .idle := hs
    obtain ⟨hmem, hst, hun, hout⟩ := State.writeReg_frame (v := v) hs' hstatus
    have ⟨_, _, _, hres⟩ := hst
    refine ⟨_, step_writeReg hin ha rfl hctrl, fun hresult => ?_, fun r hr => ?_, hmem, hst, hun, hout⟩
    · exact State.readReg_writeReg_same hs' (by simp [hctrl, hstatus, hresult])
    · rcases hr with hne | rfl
      · exact State.readReg_writeReg_other hs' hstatus hne
      · exact congrArg ResultCode.word hres
  · intro s'
    rw [List.forall_mem_append, List.forall_mem_map]
    constructor
    · simp only [List.forall_mem_cons]
      exact ⟨fun h => step_configures (r := .result) hs h rfl rfl (by decide),
        fun h => step_writeReg (r := .irqEn) h rfl rfl (by decide),
        fun h => step_configures (r := .magic) hs h rfl rfl (by decide),
        fun h => step_configures (r := .version) hs h rfl rfl (by decide),
        fun h => step_configures (r := .width) hs h rfl rfl (by decide),
        fun h => step_configures (r := .height) hs h rfl rfl (by decide),
        fun h => step_configures (r := .id) hs h rfl rfl (by decide),
        fun h => step_configures (r := .uncompressed) hs h rfl rfl (by decide),
        fun h => step_configures (r := .payloadSize) hs h rfl rfl (by decide),
        fun h => step_configures (r := .srcBase) hs h rfl rfl (by decide),
        fun h => step_configures (r := .dstBase) hs h rfl rfl (by decide),
        fun h => step_configures (r := .dstCap) hs h rfl rfl (by decide),
        fun h => step_configures (r := .partFirstLine) hs h rfl rfl (by decide),
        fun h => step_configures (r := .partLineCount) hs h rfl rfl (by decide),
        List.forall_mem_nil _⟩
    · intro n hn h
      have hoff : (BitVec.ofNat 12 (0x100 + 4 * n)).toNat = 0x100 + 4 * n := by
        rw [BitVec.toNat_ofNat, Nat.mod_eq_of_lt]
        have := List.mem_range.1 hn
        omega
      refine step_configures (offset := BitVec.ofNat 12 (0x100 + 4 * n)) (r := .reserved n) hs h ?_ ?_ (by simp)
      · rw [hoff]
        omega
      · rw [hoff, regAt_reserved]

/-- Settles O40: the word of STATUS bit by bit, a read of it and a write of it as one step each. -/
theorem statusReadsAndClearsByOnes : Obligations.StatusReadsAndClearsByOnes := by
  refine ⟨State.statusWord_getLsbD, fun s rest hin => ?_, fun s rest v hin => ?_⟩
  · exact ⟨_, step_readReg hin rfl, rfl,
      ⟨rfl, rfl, rfl, rfl, rfl, rfl, rfl, rfl, rfl, rfl, rfl, rfl, rfl, rfl, rfl⟩, ⟨rfl, rfl, rfl, rfl⟩, rfl⟩
  · exact step_writeReg (r := .status) hin rfl rfl (by decide)

/-- Settles O44: the write only moves the flags the engine does not look at, so the completion comes all the same, after it. -/
theorem completionWinsOverClearingDone : Obligations.CompletionWinsOverClearingDone := by
  intro s u rest v engineFirst hin hbusy hu hidle
  rw [step_sameCycle_writeStatus hin, State.writeStatus_eq_withFlags]
  refine ⟨_, engineTurn_withFlags (s := { s with inputs := rest }) hbusy hu, ?_⟩
  simp [State.afterMove, hidle]

/-- Settles O8: the write reaches CTRL, whose word decodes to one command or, with START = 0, to none. -/
theorem stepRunsTheWrittenCommand : Obligations.StepRunsTheWrittenCommand := by
  intro s rest w hin
  rw [step_writeCtrl hin]
  exact ⟨fun i hi => writeCtrl_command (decodeCommand_of_decode hi) _, fun hw => writeCtrl_noStart hw _⟩

/-- Settles O42: a read is one step, the named offsets read their fields, and the rest of the map reads RESERVED[] or 0. -/
theorem registerReadsReturnTheRegister : Obligations.RegisterReadsReturnTheRegister := by
  intro s rest offset ha hin
  have hstatus : regAt offset.toNat = .status ↔ offset = 0x004 := by
    rw [regAt_eq_status, ← BitVec.toNat_inj]
    rfl
  refine ⟨?_, ?_, fun ⟨h, hn⟩ => ?_, fun n => ⟨?_, fun hn => ?_⟩⟩
  · rw [step_readReg hin ha]
    simp only [hstatus]
  · have hirq : bitWord s.doneIe 0 = if s.doneIe = true then 1 else 0 := rfl
    have hline : s.partFirstLine.zeroExtend 32 = 0#20 ++ s.partFirstLine := BitVec.setWidth_eq_append (by decide)
    simp only [List.forall_mem_cons]
    refine ⟨rfl, rfl, ?_, hirq, rfl, rfl, rfl, rfl, rfl, rfl, rfl, rfl, rfl, rfl, hline, rfl, List.forall_mem_nil _⟩
    show s.result.word = _
    cases s.result <;> rfl
  · rw [regAt_unassigned h hn]
    rfl
  · rw [regAt_reserved]
    rfl
  · exact List.getD_eq_default _ _ hn

end Sys2Proof.Machine
end

section
/-! PROOFS. What each event from outside can do, said once, and the invariant: what it needs in IDLE, which updates do not touch
it, and that every turn of the machine keeps it (20_memory R76, R78, R79; 60_exceptions R226, R227; 70_reset R265). -/

namespace Sys2Proof.Machine

variable {s t : State} {r : Reg} {v : Word} {e : Event} {m : Memory}

/-! ### What an event can do (70_reset R265) -/

theorem registerRead_next {offset : BitVec 12} {width : Nat} (h : registerRead offset width s = .next t) :
    regAccessOk offset width = true ∧
      t = { s.afterReading (regAt offset.toNat) with reply := .register (s.readReg (regAt offset.toNat)) } := by
  unfold registerRead at h
  split at h
  · cases h
  · rename_i ha
    exact ⟨by simpa using ha, (Host.Outcome.next.inj h).symm⟩

/-- A register write that answers runs a command word, or does nothing with START = 0, or writes another register. -/
theorem registerWrite_next {offset : BitVec 12} {width : Nat} (h : registerWrite offset width v s = .next t) :
    (∃ i : Instr, i.lang = .command ∧ exec i s = .next t) ∨ t = s ∨ ∃ r, t = s.writeReg r v := by
  unfold registerWrite at h
  split at h
  · cases h
  split at h
  · unfold writeCtrl at h
    split at h
    · rename_i i hi
      exact .inl ⟨i, decodeCommand_lang hi, h⟩
    · exact .inr (.inl (Host.Outcome.next.inj h).symm)
  · exact .inr (.inr ⟨_, (Host.Outcome.next.inj h).symm⟩)

/-- A host read changes the answer and the count of draws alone. -/
theorem memoryRead_next {addr len : Nat} (h : memoryRead addr len s = .next t) :
    t = { s with
      reply := .memory ((List.range len).map fun q => s.hostByte (addr + q))
      draws := s.draws + 1 } := by
  unfold memoryRead at h
  split at h
  · cases h
  split at h
  · cases h
  · exact (Host.Outcome.next.inj h).symm

/-- A write from outside that answers stays in the space and beside every region held (20_memory R80). -/
theorem memoryWrite_next {addr : Nat} {bytes : List Byte} (h : memoryWrite addr bytes s = .next t) :
    addr + bytes.length ≤ Config.addressSpace ∧
      (∀ r ∈ s.heldSources ++ s.heldDests, (Region.mk addr bytes.length).overlaps r = false) ∧
      t = { s with mem := s.mem.writeBytes addr bytes } := by
  unfold memoryWrite at h
  split at h
  · cases h
  rename_i hspace
  split at h
  · cases h
  split at h
  · cases h
  rename_i hheld
  refine ⟨(Region.inSpace_iff _).1 (by simpa using hspace), fun r hr => ?_, (Host.Outcome.next.inj h).symm⟩
  rw [Bool.not_eq_true, List.any_eq_false] at hheld
  simpa using hheld r hr

/-- An operation that begins elsewhere joins the list, under a number that runs none there (60_exceptions R226). -/
theorem otherBegins_next {who : Nat} {c : Claim} (h : otherBegins who c s = .next t) :
    t = s ∨
      (0 < who ∧ who < s.instances ∧ (∀ o ∈ s.others, o.who ≠ who) ∧ t = { s with others := ⟨who, c⟩ :: s.others }) := by
  unfold otherBegins at h
  split at h
  · cases h
  rename_i hwho
  split at h
  · exact .inl (Host.Outcome.next.inj h).symm
  rename_i hruns
  split at h
  · cases h
  · rw [List.any_eq_true] at hruns
    exact .inr ⟨by omega, by omega, fun o ho he => hruns ⟨o, ho, decide_eq_true he⟩, (Host.Outcome.next.inj h).symm⟩

/-! ### The invariant in IDLE, and what does not touch it -/

/-- In IDLE the invariant speaks of memory, the number of RESERVED[] words and the other instances alone. -/
theorem State.Inv.of_idle (hp : s.phase = .idle) (hm : s.mem.wf = true) (hr : s.reserved.length = Config.hdrReservedWords)
    (hn : s.instances = Config.numInstances) (ho : s.othersKept) : s.Inv where
  memory := hm
  reservedWords := hr
  notBusyAndDone hb := by simp [State.busy_eq_false.2 hp] at hb
  instances := hn
  others := ho
  regions := by
    simp only [State.regionsKept, State.activeSource, State.activeDest, hp]
    decide
  decoder hd := by simp [hp] at hd
  encoder he := by simp [State.encoding, hp] at he

/-- A move to IDLE that leaves a canonical memory and the other instances keeps the invariant. -/
theorem State.Inv.idle (h : s.Inv) (hp : t.phase = .idle) (hm : t.mem.wf = true)
    (hr : t.reserved.length = s.reserved.length) (hn : t.instances = s.instances) (ho : t.others = s.others) : t.Inv :=
  .of_idle hp hm (hr.trans h.reservedWords) (hn.trans h.instances) (by
    rw [State.othersKept, hn, ho]
    exact h.others)

/-- What the host sees and enables, the answers, the inputs and the draws do not enter the invariant, but that DONE must not come
from nowhere. -/
theorem State.Inv.withPort (h : s.Inv) {d c ie : Bool} {us : List Claim} {ins : List Input} {rp : Reply} {n : Nat}
    (hd : d = true → s.done = true) :
    State.Inv { s with done := d, cmdErr := c, doneIe := ie, unseen := us, inputs := ins, reply := rp, draws := n } where
  memory := h.memory
  reservedWords := h.reservedWords
  notBusyAndDone hb := by
    cases d with
    | false => rfl
    | true => exact absurd (hd rfl) (by simp [h.notBusyAndDone hb])
  instances := h.instances
  others := h.others
  regions := h.regions
  decoder := h.decoder
  encoder := h.encoder

/-- The other instances are apart from the block. -/
theorem State.Inv.withOthers (h : s.Inv) {os : List OtherOp} (ho : State.othersKept { s with others := os }) :
    State.Inv { s with others := os } :=
  ⟨h.memory, h.reservedWords, h.notBusyAndDone, h.instances, ho, h.regions, h.decoder, h.encoder⟩

/-- Another memory with the same pixels still to be read keeps the invariant. -/
theorem State.Inv.withMemory (h : s.Inv) (hm : m.wf = true)
    (hpix : s.encoding → ∀ p, s.k ≤ p → p < s.b → m.read32 (s.srcAddr (4 * p)) = s.pix p) :
    State.Inv { s with mem := m } where
  memory := hm
  reservedWords := h.reservedWords
  notBusyAndDone := h.notBusyAndDone
  instances := h.instances
  others := h.others
  regions := h.regions
  decoder := h.decoder
  encoder he := by
    obtain ⟨hak, hki, hib, hbn, hout, hroom⟩ := h.encoder he
    refine ⟨hak, hki, hib, hbn, hout, ?_⟩
    have hwords : State.remainingWords { s with mem := m } = s.remainingWords := scanWords_congr _ (hpix he) hki
    rw [hwords]
    exact hroom

/-! ### The engine (40_header R130; 41_encoder R142; 42_decoder R182) -/

/-- A pass moves the scan on inside the range, and its words are taken from the room the rest needs (41_encoder R140, R142). -/
theorem encoderKept_pass (he : s.encoding) (hr : s.regionsKept) (hk : s.encoderKept) (hi : s.i < s.b) :
    (s.scanned.emitted s.turnWords).encoderKept := by
  intro _
  obtain ⟨hak, hki, hib, hbn, hout, hroom⟩ := hk he
  have hnext := passNext_bounds s.pix hi
  have hpend := passPending_bounds s.pix hi hki
  rw [State.remainingWords_pass hi, List.length_append] at hroom
  have hrest : (s.scanned.emitted s.turnWords).remainingWords = scanWords s.pix s.partFirstLine s.b (s.b - s.scanned.i)
      s.scanned.i s.scanned.k s.scanned.first :=
    scanWords_congr _ (fun p hp hb => pix_emitted (u := s.scanned) he hr hbn (by omega) rfl rfl rfl rfl
      (hak.trans (hpend.1.trans hp)) hb) hpend.2
  rw [hrest]
  simp only [State.emitted_a, State.emitted_b, State.emitted_i, State.emitted_k, State.emitted_out, State.emitted_dstCap,
    State.emitted_pixelCount, State.scanned_a, State.scanned_b, State.scanned_i, State.scanned_k, State.scanned_out,
    State.scanned_dstCap, State.scanned_pixelCount] at hroom ⊢
  exact ⟨hak.trans hpend.1, hpend.2, hnext.2, hbn, by omega, by omega⟩

theorem encodeTurn_keeps_inv (h : s.Inv) (he : s.encoding) (ht : encodeTurn s = .next t) : t.Inv := by
  obtain ⟨_, _, hfits, hcase⟩ := encodeTurn_next ht
  have hmem : (s.mem.writeWords (s.dstAddr s.out) s.turnWords).wf = true :=
    Memory.wf_writeWords h.memory _ (((spanFits_iff _ _).1 hfits).imp_left List.length_eq_zero_iff.1)
  rcases hcase with ⟨hi, rfl⟩ | ⟨_, rfl⟩
  · refine ⟨hmem, h.reservedWords, h.notBusyAndDone, h.instances, h.others, ?_, fun hd => ?_,
      encoderKept_pass he h.regions h.encoder hi⟩
    · simpa [State.regionsKept] using h.regions
    · have hd : s.phase = .busy .decode := hd
      simp [State.encoding, hd] at he
  · exact h.idle rfl hmem rfl rfl rfl

/-- A record that neither completes nor passes the cursors' bounds keeps the invariant (42_decoder R191). -/
theorem State.Inv.decodes (h : s.Inv) (hp : s.phase = .busy .decode) {src dst count line : Nat} {cw : Word} (hm : m.wf = true)
    (hs4 : src % 4 = 0) (hs : src ≤ s.payload) (hd : dst ≤ s.pixelCount) :
    State.Inv { s with mem := m, src := src, dst := dst, cw := cw, count := count, line := line } where
  memory := hm
  reservedWords := h.reservedWords
  notBusyAndDone := h.notBusyAndDone
  instances := h.instances
  others := h.others
  regions := h.regions
  decoder _ := ⟨hs4, hs, hd⟩
  encoder he := by
    have he : s.encoding := he
    simp [State.encoding, hp] at he

theorem decodeTurn_keeps_inv (h : s.Inv) (hp : s.phase = .busy .decode) (ht : decodeTurn s = .next t) : t.Inv := by
  obtain ⟨hs4, -, -⟩ := h.decoder hp
  rcases decodeTurn_next ht with ⟨_, rfl⟩ | ⟨_, _, hx⟩
  · exact h.idle rfl h.memory rfl rfl rfl
  · cases exec_record_next (decodeRecord_lang _) hx with
    | completed u code hu ht =>
      subst ht
      rcases hu with rfl | ⟨line, rfl⟩ <;> exact h.idle rfl h.memory rfl rfl rfl
    | copied u n hu hd hsrc _ hf ht =>
      subst ht
      have hf := (spanFits_iff _ _).1 hf
      rcases hu with rfl | ⟨line, rfl⟩ <;>
        exact h.decodes hp (Memory.wf_copyWords h.memory hf) (by simp; omega) hsrc hd
    | filled u n hu hd hsrc _ hf ht =>
      subst ht
      have hf := (spanFits_iff _ _).1 hf
      rcases hu with rfl | ⟨line, rfl⟩ <;>
        exact h.decodes hp (Memory.wf_fillWords h.memory _ hf) (by simp; omega) hsrc hd

theorem engineTurn_keeps_inv (h : s.Inv) (ht : engineTurn s = .next t) : t.Inv := by
  cases hp : s.phase with
  | idle =>
    rw [engineTurn_idle hp] at ht
    exact Host.Outcome.next.inj ht ▸ h
  | busy op =>
    cases op with
    | hdrInit =>
      rw [engineTurn_hdrInit hp] at ht
      cases Host.Outcome.next.inj ht
      exact h.idle rfl h.memory (List.length_map _) rfl rfl
    | encode => exact encodeTurn_keeps_inv h (.inl hp) (engineTurn_encoding (.inl hp) ▸ ht)
    | encodePartial => exact encodeTurn_keeps_inv h (.inr hp) (engineTurn_encoding (.inr hp) ▸ ht)
    | decode => exact decodeTurn_keeps_inv h hp (engineTurn_decode hp ▸ ht)

/-! ### Commands (30_encoding R110; 41_encoder R140, R150; 42_decoder R180) -/

/-- An encode starts with the whole range to scan and, its capacity tested, room for all of its words (41_encoder R140, R141). -/
theorem State.Inv.startsEncode (h : s.Inv) {op : Op} {a b : Nat} {part : Bool} (hop : op ≠ .decode) (hab : a ≤ b)
    (hb : b ≤ s.pixelCount) (hroom : encLen s.pix a b ≤ s.dstCap.toNat)
    (hr : ((s.issue op).startEncode a b part).regionsKept) : ((s.issue op).startEncode a b part).Inv where
  memory := h.memory
  reservedWords := h.reservedWords
  notBusyAndDone _ := rfl
  instances := h.instances
  others := h.others
  regions := hr
  decoder hd := by simp [hop] at hd
  encoder _ := by
    refine ⟨le_rfl, le_rfl, hab, hb, rfl, ?_⟩
    have hlen : 4 * ((s.issue op).startEncode a b part).remainingWords.length = encLen s.pix a b :=
      encodeWords_length s.partFirstLine part
    rw [hlen]
    simpa using hroom

theorem bandStart_le_bandEnd (s : State) : s.bandStart ≤ s.bandEnd :=
  Nat.mul_le_mul_right _ (Nat.le_add_right _ _)

/-- A band of lines of the frame ends inside it (41_encoder R150). -/
theorem bandEnd_le_pixelCount (h : s.firstLine + s.lineCount ≤ s.height.toNat) : s.bandEnd ≤ s.pixelCount := by
  rw [State.pixelCount, Nat.mul_comm]
  exact Nat.mul_le_mul_right _ h

/-- A command word is rejected or starts an operation whose preconditions are the invariant's. -/
theorem exec_command_keeps_inv {i : Instr} (h : s.Inv) (hl : i.lang = .command) (hx : exec i s = .next t) : t.Inv := by
  rcases exec_command_next hl hx with rfl | ⟨_, rfl | ⟨hr, rfl⟩ | ⟨hr, rfl⟩ | ⟨hr, rfl⟩⟩
  · exact h.withPort id
  · refine ⟨h.memory, h.reservedWords, fun _ => rfl, h.instances, h.others, ⟨rfl, rfl⟩, fun hd => ?_, fun he => ?_⟩
    · simp at hd
    · simp [State.encoding] at he
  · obtain ⟨hregions, hroom⟩ := State.encodeRefusal_none hr
    obtain ⟨hrange, hapart, -⟩ := State.regionRefusal_none hregions
    exact h.startsEncode (by decide) (Nat.zero_le _) le_rfl hroom ⟨hrange, hapart⟩
  · obtain ⟨hlines, -, hregions, hroom⟩ := State.encodePartialRefusal_none hr
    obtain ⟨hrange, hapart, -⟩ := State.regionRefusal_none hregions
    exact h.startsEncode (by decide) (bandStart_le_bandEnd s) (bandEnd_le_pixelCount hlines) hroom ⟨hrange, hapart⟩
  · obtain ⟨hrange, hapart, -⟩ := State.regionRefusal_none hr
    refine ⟨h.memory, h.reservedWords, fun _ => rfl, h.instances, h.others, ⟨hrange, hapart⟩,
      fun _ => ⟨rfl, Nat.zero_le _, Nat.zero_le _⟩, fun he => ?_⟩
    simp [State.encoding] at he

/-! ### Events (70_reset R265) -/

/-- A write of a register moves no configuration while an operation runs (10_state R56). -/
theorem writeReg_keeps_inv (h : s.Inv) : (s.writeReg r v).Inv := by
  unfold State.writeReg
  split
  · exact h.withPort fun hd => (Bool.and_eq_true _ _ ▸ hd).1
  · exact h.withPort id
  · split
    · exact h
    · rename_i hb
      have hp : s.phase = .idle := State.busy_eq_false.1 (by simpa using hb)
      cases r with
      | reserved n => exact h.idle hp h.memory List.length_set rfl rfl
      | _ => exact h.idle hp h.memory rfl rfl rfl

/-- The pixels of a running encode's range lie in its source region (20_memory R72). -/
theorem pixel_in_activeSource (he : s.encoding) {p : Nat} (ha : s.a ≤ p) (hp : p < s.b) (hb : s.b ≤ s.pixelCount) :
    s.activeSource.base ≤ s.srcAddr (4 * p) ∧ s.srcAddr (4 * p) + 4 ≤ s.activeSource.base + s.activeSource.len := by
  rcases he with he | he <;>
    simp only [State.activeSource, he, State.sourceOf, State.frameSource, State.pixelSource, State.srcAddr,
      State.frameBytes] <;> omega

/-- A write from outside leaves the pixels still to be read, for it lies beside the source region (20_memory R80). -/
theorem memoryWrite_keeps_inv {addr : Nat} {bytes : List Byte} (h : s.Inv) (ht : memoryWrite addr bytes s = .next t) :
    t.Inv := by
  obtain ⟨hspace, hbeside, rfl⟩ := memoryWrite_next ht
  refine h.withMemory (Memory.wf_writeBytes h.memory _ hspace) fun he p hkp hpb => ?_
  obtain ⟨hak, -, -, hbn, -⟩ := h.encoder he
  have hpixel := pixel_in_activeSource he (hak.trans hkp) hpb hbn
  have hapart := (Region.overlaps_eq_false _ _).1 (hbeside s.activeSource (by simp [State.heldSources]))
  simp only at hapart
  refine Memory.read32_congr fun c hc hc' => ?_
  rcases Nat.eq_zero_or_pos bytes.length with h0 | h0
  · rw [List.length_eq_zero_iff.1 h0]
    rfl
  · exact Memory.read_writeBytes_outside _ _ (by omega)

theorem otherBegins_keeps_inv {who : Nat} {c : Claim} (h : s.Inv) (ht : otherBegins who c s = .next t) : t.Inv := by
  obtain ⟨hdistinct, hnumbers⟩ := h.others
  rcases otherBegins_next ht with rfl | ⟨hpos, hlt, hnew, rfl⟩
  · exact h
  · refine h.withOthers ⟨List.pairwise_cons.2 ⟨fun o ho => (hnew o ho).symm, hdistinct⟩, fun o ho => ?_⟩
    rcases List.mem_cons.1 ho with rfl | ho
    · exact ⟨hpos, hlt⟩
    · exact hnumbers o ho

theorem otherEnds_keeps_inv {who : Nat} (h : s.Inv) (ht : otherEnds who s = .next t) : t.Inv := by
  cases Host.Outcome.next.inj ht
  exact h.withOthers ⟨h.others.1.filter _, fun o ho => h.others.2 o (List.mem_of_mem_filter ho)⟩

/-- The reset input leaves IDLE; the bytes it makes any value lie in the space (20_memory R78, 70_reset R252). -/
theorem resetBlock_keeps_inv (h : s.Inv) : (resetBlock s).Inv := by
  have hrange := h.regions.1
  rw [regionsInRange, Bool.and_eq_true, Region.inSpace_iff, Region.inSpace_iff] at hrange
  exact h.idle rfl (Memory.wf_scramble h.memory _ hrange.2) (List.length_map _) rfl rfl

theorem eventTurn_keeps_inv (h : s.Inv) (ht : eventTurn e s = .next t) : t.Inv := by
  cases e with
  | regRead offset width =>
    obtain ⟨-, rfl⟩ := registerRead_next ht
    rw [State.afterReading_eq]
    exact h.withPort id
  | regWrite offset width v =>
    rcases registerWrite_next ht with ⟨i, hl, hx⟩ | rfl | ⟨r, rfl⟩
    · exact exec_command_keeps_inv h hl hx
    · exact h
    · exact writeReg_keeps_inv h
  | memRead addr len =>
    cases memoryRead_next ht
    exact h.withPort id
  | memWrite agent addr bytes => exact memoryWrite_keeps_inv h ht
  | takeIrq =>
    cases Host.Outcome.next.inj ht
    split
    · exact h.withPort id
    · exact h
  | otherIssue who c => exact otherBegins_keeps_inv h ht
  | otherComplete who => exact otherEnds_keeps_inv h ht
  | reset =>
    cases Host.Outcome.next.inj ht
    exact resetBlock_keeps_inv h

/-! ### The machine's turn (log 3) -/

theorem sameCycleTurn_keeps_inv {engineFirst : Bool} (h : s.Inv) (ht : sameCycleTurn e engineFirst s = .next t) : t.Inv := by
  unfold sameCycleTurn at ht
  split at ht
  · obtain ⟨u, hu, ht⟩ := andThen_eq_next.1 ht
    exact eventTurn_keeps_inv (engineTurn_keeps_inv h hu) ht
  · obtain ⟨u, hu, ht⟩ := andThen_eq_next.1 ht
    exact engineTurn_keeps_inv (eventTurn_keeps_inv h hu) ht

theorem pollTurn_keeps_inv {rest : List Input} (h : s.Inv) (ht : pollTurn rest s = .next t) : t.Inv := by
  unfold pollTurn at ht
  split at ht
  · cases Host.Outcome.next.inj ht
    exact h.withPort id
  · exact engineTurn_keeps_inv (h.withPort id) ht

/-! ### The statements -/

/-- Settles O56: the next input says whose turn it is, and every turn keeps the invariant. -/
theorem everyStepKeepsTheInvariant : Obligations.EveryStepKeepsTheInvariant := by
  intro s t h ht
  have hrest : ∀ rest, State.Inv { s with inputs := rest } := fun _ => h.withPort id
  cases hin : s.inputs with
  | nil => exact engineTurn_keeps_inv h (step_engine hin ▸ ht)
  | cons input rest =>
    cases input with
    | engine => exact engineTurn_keeps_inv (hrest rest) (step_engine_input hin ▸ ht)
    | external e => exact eventTurn_keeps_inv (hrest rest) (step_external hin ▸ ht)
    | sameCycle e engineFirst => exact sameCycleTurn_keeps_inv (hrest rest) (step_sameCycle hin ▸ ht)
    | wait => exact pollTurn_keeps_inv h (step_wait hin ▸ ht)

/-- Settles O55: the reset state is idle, with an empty memory and none running elsewhere. -/
theorem invariantHoldsAtReset : Obligations.InvariantHoldsAtReset :=
  .of_idle rfl Memory.wf_nil List.length_replicate rfl ⟨.nil, List.forall_mem_nil _⟩

end Sys2Proof.Machine
end

section
/-! PROOFS. Memory as the host and other agents meet it: what an encode writes, what a write from outside changes and where it
races, what a host read sees, and how long the regions of an operation stay exclusive (20_memory R70, R72, R75, R80; 70_reset
R258). -/

namespace Sys2Proof.Machine

variable {s t : State} {r : Reg} {v : Word} {e : Event} {rest : List Input}

/-! ### The regions held (20_memory R80; log 15) -/

theorem State.heldSources_eq_map (s : State) : s.heldSources = (s.activeClaim :: s.unseen).map Claim.reads := rfl

theorem State.heldDests_eq_map (s : State) : s.heldDests = (s.activeClaim :: s.unseen).map Claim.writes := rfl

/-- The regions held are those of the running operation and of every completion the host has not seen. -/
theorem State.mem_held (s : State) (r : Region) :
    r ∈ s.heldSources ++ s.heldDests ↔ ∃ c ∈ s.activeClaim :: s.unseen, c.reads = r ∨ c.writes = r := by
  rw [s.heldSources_eq_map, s.heldDests_eq_map, List.mem_append, List.mem_map, List.mem_map]
  simp only [and_or_left, exists_or]

/-- An address of a region that shares no byte with a range lies outside the range. -/
theorem Region.outside_of_contains {x y : Region} {addr : Nat} (ho : x.overlaps y = false) (hc : y.contains addr = true) :
    addr < x.base ∨ x.base + x.len ≤ addr := by
  rw [Region.overlaps_eq_false] at ho
  rw [Region.contains, decide_eq_true_eq] at hc
  omega

/-- In IDLE with every completion seen no byte is held. -/
theorem State.held_empty (hp : s.phase = .idle) (hu : s.unseen = []) {r : Region} (hr : r ∈ s.heldSources ++ s.heldDests) :
    r = Region.empty := by
  simpa [State.heldSources, State.heldDests, State.activeSource, State.activeDest, hp, hu] using hr

/-! ### Writes from outside (20_memory R80, R90) -/

section Write

variable {addr : Nat} {bytes : List Byte}

theorem memoryWrite_race (hspace : addr + bytes.length ≤ Config.addressSpace)
    (hdev : s.touchesDevice ⟨addr, bytes.length⟩ = false)
    (hheld : ∃ r ∈ s.heldSources ++ s.heldDests, (Region.mk addr bytes.length).overlaps r = true) :
    memoryWrite addr bytes s = .refused .race := by
  rw [memoryWrite, (Region.inSpace_iff _).2 hspace, hdev, List.any_eq_true.2 hheld]
  rfl

theorem memoryWrite_lands (hspace : addr + bytes.length ≤ Config.addressSpace)
    (hdev : s.touchesDevice ⟨addr, bytes.length⟩ = false)
    (hbeside : ∀ r ∈ s.heldSources ++ s.heldDests, (Region.mk addr bytes.length).overlaps r = false) :
    memoryWrite addr bytes s = .next { s with mem := s.mem.writeBytes addr bytes } := by
  have hnone : ((s.heldSources ++ s.heldDests).any fun r => (Region.mk addr bytes.length).overlaps r) = false :=
    List.any_eq_false.2 fun r hr => by simp [hbeside r hr]
  rw [memoryWrite, (Region.inSpace_iff _).2 hspace, hdev, hnone]
  rfl

theorem memoryKeptOutside_writeBytes (s : State) (addr : Nat) (bytes : List Byte) :
    memoryKeptOutside addr bytes.length s { s with mem := s.mem.writeBytes addr bytes } :=
  fun _ hc => Memory.read_writeBytes_outside _ _ hc

/-- The input taken and another memory leave everything else alone. -/
theorem frame_withMemory (s : State) (rest : List Input) (m : Memory) :
    let t : State := { s with inputs := rest, mem := m }
    sameRegisters s t ∧ sameStatus s t ∧ sameEncoder s t ∧ sameDecoder s t ∧ sameUnseen s t ∧
      sameOutside { s with inputs := rest } t :=
  ⟨⟨rfl, rfl, rfl, rfl, rfl, rfl, rfl, rfl, rfl, rfl, rfl, rfl, rfl, rfl, rfl⟩, ⟨rfl, rfl, rfl, rfl⟩,
    ⟨rfl, rfl, rfl, rfl, rfl, rfl, rfl⟩, ⟨rfl, rfl, rfl, rfl, rfl⟩, rfl, ⟨rfl, rfl, rfl, rfl, rfl, rfl⟩⟩

/-- Bytes written stand in memory one after another. -/
theorem Memory.read_writeBytes_inside (m : Memory) (addr : Nat) (bytes : List Byte) {q : Nat} (h : q < bytes.length) :
    (m.writeBytes addr bytes).read (addr + q) = bytes[q] := by
  rw [Memory.read_writeBytes, dif_pos (by omega)]
  simp

/-- Four bytes are one word, the lowest address lowest (20_memory R70). -/
theorem Memory.read32_writeBytes (m : Memory) (addr : Nat) (b0 b1 b2 b3 : Byte) :
    (m.writeBytes addr [b0, b1, b2, b3]).read32 addr = b3 ++ b2 ++ b1 ++ b0 := by
  have hbyte := fun q (hq : q < 4) => m.read_writeBytes_inside addr [b0, b1, b2, b3] (q := q) hq
  have hfirst : (m.writeBytes addr [b0, b1, b2, b3]).read addr = b0 := hbyte 0 (by decide)
  rw [Memory.read32, hfirst, hbyte 1 (by decide), hbyte 2 (by decide), hbyte 3 (by decide)]
  rfl

end Write

/-! ### Host reads (20_memory R80; log 6) -/

theorem State.hostByte_eq_read {addr : Nat} (h : ∀ r ∈ s.heldDests, r.contains addr = false) :
    s.hostByte addr = s.mem.read addr := by
  rw [State.hostByte, if_neg]
  simpa using h

theorem memoryRead_answers {addr len : Nat} (hspace : addr + len ≤ Config.addressSpace)
    (hdev : s.touchesDevice ⟨addr, len⟩ = false) :
    memoryRead addr len s = .next { s with
      reply := .memory ((List.range len).map fun q => s.hostByte (addr + q))
      draws := s.draws + 1 } := by
  rw [memoryRead, (Region.inSpace_iff _).2 hspace, hdev]
  rfl

/-! ### Completions the host has not seen (20_memory R80 item 2, 70_reset R258; log 15) -/

/-- A move after which the operation still runs adds no completion. -/
theorem State.running_unseenAfterEngine (hb : t.busy = s.busy) (hu : t.unseen = s.unseen) :
    t.unseen = s.unseenAfterEngine t := by
  simp [State.unseenAfterEngine, hb, hu]

/-- A completion adds the regions of the operation that ran, which the move itself did not change. -/
theorem State.complete_unseenAfterEngine (u : State) (code : ResultCode) (hb : s.busy = true)
    (hc : u.activeClaim = s.activeClaim) (hu : u.unseen = s.unseen) :
    (u.complete code).unseen = s.unseenAfterEngine (u.complete code) := by
  simp [State.unseenAfterEngine, hb, hc, hu]

theorem encodeTurn_unseen (he : s.encoding) (ht : encodeTurn s = .next t) : t.unseen = s.unseenAfterEngine t := by
  obtain ⟨-, -, -, ⟨_, rfl⟩ | ⟨_, rfl⟩⟩ := encodeTurn_next ht
  · exact State.running_unseenAfterEngine (by simp) rfl
  · refine State.complete_unseenAfterEngine _ _ (State.busy_eq_true.2 (he.elim (⟨_, ·⟩) (⟨_, ·⟩))) ?_ rfl
    rcases he with he | he <;> simp [State.activeClaim, State.activeSource, State.activeDest, he, State.sourceOf, State.destOf]

theorem decodeTurn_unseen (hp : s.phase = .busy .decode) (ht : decodeTurn s = .next t) : t.unseen = s.unseenAfterEngine t := by
  have hb : s.busy = true := State.busy_eq_true.2 ⟨_, hp⟩
  rcases decodeTurn_next ht with ⟨_, rfl⟩ | ⟨_, _, hx⟩
  · exact State.complete_unseenAfterEngine _ _ hb rfl rfl
  · have hsame : ∀ u : State, (u = s.fetched ∨ ∃ line, u = s.fetched.repositioned line) →
        u.busy = s.busy ∧ u.activeClaim = s.activeClaim ∧ u.unseen = s.unseen := by
      rintro u (rfl | ⟨line, rfl⟩) <;> exact ⟨rfl, rfl, rfl⟩
    cases exec_record_next (decodeRecord_lang _) hx with
    | completed u code hu ht =>
      obtain ⟨-, hclaim, hunseen⟩ := hsame u hu
      exact ht ▸ State.complete_unseenAfterEngine u code hb hclaim hunseen
    | copied u n hu _ _ _ _ ht | filled u n hu _ _ _ _ ht =>
      obtain ⟨hbusy, -, hunseen⟩ := hsame u hu
      exact ht ▸ State.running_unseenAfterEngine hbusy hunseen

/-- A move of the engine adds the completion it makes and no other. -/
theorem engineTurn_unseen (ht : engineTurn s = .next t) : t.unseen = s.unseenAfterEngine t := by
  cases hp : s.phase with
  | idle =>
    rw [engineTurn_idle hp] at ht
    cases Host.Outcome.next.inj ht
    exact State.running_unseenAfterEngine rfl rfl
  | busy op =>
    cases op with
    | hdrInit =>
      rw [engineTurn_hdrInit hp] at ht
      cases Host.Outcome.next.inj ht
      exact State.complete_unseenAfterEngine s.headerInitialised _ (State.busy_eq_true.2 ⟨_, hp⟩) rfl rfl
    | encode => exact encodeTurn_unseen (.inl hp) (engineTurn_encoding (.inl hp) ▸ ht)
    | encodePartial => exact encodeTurn_unseen (.inr hp) (engineTurn_encoding (.inr hp) ▸ ht)
    | decode => exact decodeTurn_unseen hp (engineTurn_decode hp ▸ ht)

/-- A command word shows the host nothing. -/
theorem exec_command_unseen {i : Instr} (hl : i.lang = .command) (hx : exec i s = .next t) : t.unseen = s.unseen := by
  rcases exec_command_next hl hx with rfl | ⟨_, rfl | ⟨_, rfl⟩ | ⟨_, rfl⟩ | ⟨_, rfl⟩⟩ <;> rfl

theorem State.writeReg_unseen (s : State) (r : Reg) (v : Word) : (s.writeReg r v).unseen = s.unseen := by
  unfold State.writeReg
  split
  · rfl
  · rfl
  · split
    · rfl
    · cases r <;> rfl

/-- The read that shows DONE = 1 is that of STATUS, at its offset and at its width (20_memory R75). -/
theorem registerRead_unseen {offset : BitVec 12} {width : Nat} (ht : registerRead offset width s = .next t) :
    t.unseen = s.unseenAfterEvent (.regRead offset width) := by
  obtain ⟨ha, rfl⟩ := registerRead_next ht
  have hwidth : width = 4 := by
    rw [regAccessOk, Bool.and_eq_true, decide_eq_true_eq] at ha
    exact ha.1
  have hstatus : regAt offset.toNat = .status ↔ offset = 0x004 := by
    rw [regAt_eq_status, ← BitVec.toNat_inj]
    rfl
  subst hwidth
  simp [State.afterReading_eq, State.unseenAfterEvent, hstatus]

/-- An event shows the host DONE = 1, or resets the block, or leaves every completion as unseen as it was. -/
theorem eventTurn_unseen (ht : eventTurn e s = .next t) : t.unseen = s.unseenAfterEvent e := by
  cases e with
  | regRead offset width => exact registerRead_unseen ht
  | regWrite offset width v =>
    have hkept : t.unseen = s.unseen := by
      rcases registerWrite_next ht with ⟨i, hl, hx⟩ | rfl | ⟨r, rfl⟩
      · exact exec_command_unseen hl hx
      · rfl
      · exact s.writeReg_unseen r v
    simpa [State.unseenAfterEvent] using hkept
  | memRead addr len =>
    cases memoryRead_next ht
    simp [State.unseenAfterEvent]
  | memWrite agent addr bytes =>
    obtain ⟨-, -, rfl⟩ := memoryWrite_next ht
    simp [State.unseenAfterEvent]
  | takeIrq =>
    cases Host.Outcome.next.inj ht
    simp only [State.unseenAfterEvent, State.irq, Bool.and_eq_true]
    split <;> simp [*]
  | otherIssue who c =>
    rcases otherBegins_next ht with rfl | ⟨-, -, -, rfl⟩ <;> simp [State.unseenAfterEvent]
  | otherComplete who =>
    cases Host.Outcome.next.inj ht
    simp [State.unseenAfterEvent]
  | reset =>
    cases Host.Outcome.next.inj ht
    rfl

/-- A poll with DONE = 1 shows it; before that the engine moves (30_encoding R116). -/
theorem pollTurn_unseen (ht : pollTurn rest s = .next t) :
    t.unseen = if s.done = true then [] else s.unseenAfterEngine t := by
  unfold pollTurn at ht
  split at ht
  · rename_i hd
    cases Host.Outcome.next.inj ht
    rw [if_pos hd]
    rfl
  · rename_i hd
    rw [if_neg hd]
    exact engineTurn_unseen (s := { s with reply := .register s.statusWord }) ht

/-- The event and the engine's move follow one another, in the order of the cycle (60_exceptions R228; log 11). -/
theorem sameCycleTurn_unseen {engineFirst : Bool} (ht : sameCycleTurn e engineFirst s = .next t) :
    if engineFirst = true ∧ isStatusWrite e = false then
      ∃ u, engineTurn s = .next u ∧ eventTurn e u = .next t ∧ u.unseen = s.unseenAfterEngine u ∧
        t.unseen = u.unseenAfterEvent e
    else ∃ u, eventTurn e s = .next u ∧ engineTurn u = .next t ∧ u.unseen = s.unseenAfterEvent e ∧
        t.unseen = u.unseenAfterEngine t := by
  unfold sameCycleTurn at ht
  simp only [Bool.and_eq_true, Bool.not_eq_true'] at ht
  split at ht
  · rename_i hfirst
    obtain ⟨u, hu, ht⟩ := andThen_eq_next.1 ht
    rw [if_pos hfirst]
    exact ⟨u, hu, ht, engineTurn_unseen hu, eventTurn_unseen ht⟩
  · rename_i hfirst
    obtain ⟨u, hu, ht⟩ := andThen_eq_next.1 ht
    rw [if_neg hfirst]
    exact ⟨u, hu, ht, eventTurn_unseen hu, engineTurn_unseen ht⟩

/-! ### The statements -/

/-- Settles O31: a turn that answers passed its test of DST_CAP and wrote its words alone; a pass moves nothing but the scan. -/
theorem encodeStepWritesOnlyItsWords : Obligations.EncodeStepWritesOnlyItsWords := by
  intro s t he hin ht
  rw [step_engine hin, engineTurn_encoding he] at ht
  obtain ⟨hroom, -, -, ⟨_, rfl⟩ | ⟨_, rfl⟩⟩ := encodeTurn_next ht
  · refine ⟨fun addr h => Memory.read_writeWords_outside _ _ h, hroom, fun _ => ?_⟩
    exact ⟨⟨rfl, rfl, rfl, rfl, rfl, rfl, rfl, rfl, rfl, rfl, rfl, rfl, rfl, rfl, rfl⟩, ⟨rfl, rfl, rfl, rfl⟩,
      ⟨rfl, rfl, rfl, rfl, rfl⟩, rfl, ⟨rfl, rfl, rfl, rfl, rfl, rfl⟩⟩
  · refine ⟨fun addr h => Memory.read_writeWords_outside _ _ h, hroom, fun hb => ?_⟩
    simp at hb

/-- Settles O48: the regions held are those of the claims, and a write beside them all puts its bytes in memory. -/
theorem writesToARunningOperationsRegionsRace : Obligations.WritesToARunningOperationsRegionsRace := by
  intro s rest agent addr bytes hin hspace hdev
  rw [step_external hin]
  split
  · rename_i hclash
    obtain ⟨c, hc, hover⟩ := hclash
    refine memoryWrite_race (s := { s with inputs := rest }) hspace hdev ?_
    rcases hover with hover | hover
    · exact ⟨c.reads, (s.mem_held _).2 ⟨c, hc, .inl rfl⟩, hover⟩
    · exact ⟨c.writes, (s.mem_held _).2 ⟨c, hc, .inr rfl⟩, hover⟩
  · rename_i hclear
    have hbeside : ∀ r ∈ s.heldSources ++ s.heldDests, (Region.mk addr bytes.length).overlaps r = false := by
      intro r hr
      obtain ⟨c, hc, hrc⟩ := (s.mem_held r).1 hr
      refine Bool.not_eq_true _ ▸ fun hover => hclear ⟨c, hc, ?_⟩
      rcases hrc with rfl | rfl
      · exact .inl hover
      · exact .inr hover
    obtain ⟨hregisters, hstatus, hencoder, hdecoder, hunseen, houtside⟩ :=
      frame_withMemory s rest (s.mem.writeBytes addr bytes)
    refine ⟨_, memoryWrite_lands (s := { s with inputs := rest }) hspace hdev hbeside,
      fun q h => Memory.read_writeBytes_inside _ _ _ h, memoryKeptOutside_writeBytes s addr bytes, hregisters, hstatus,
      hencoder, hdecoder, hunseen, houtside, fun c hc a ha => memoryKeptOutside_writeBytes s addr bytes a ?_⟩
    rcases ha with ha | ha
    · exact Region.outside_of_contains (hbeside _ ((s.mem_held _).2 ⟨c, hc, .inl rfl⟩)) ha
    · exact Region.outside_of_contains (hbeside _ ((s.mem_held _).2 ⟨c, hc, .inr rfl⟩)) ha

/-- Settles O47: with no region held the four bytes land, and a word is its four bytes, the lowest address lowest. -/
theorem hostBytesAreLittleEndianWords : Obligations.HostBytesAreLittleEndianWords := by
  intro s rest agent addr b0 b1 b2 b3 hin hidle hseen hdevices hspace
  have hbeside : ∀ r ∈ s.heldSources ++ s.heldDests, (Region.mk addr 4).overlaps r = false := by
    intro r hr
    rw [State.held_empty hidle hseen hr]
    simp [Region.overlaps_eq_false, Region.empty]
  have hdev : s.touchesDevice ⟨addr, 4⟩ = false := by simp [State.touchesDevice, hdevices]
  rw [step_external hin]
  exact ⟨_, memoryWrite_lands (s := { s with inputs := rest }) hspace hdev hbeside, s.mem.read32_writeBytes addr b0 b1 b2 b3,
    memoryKeptOutside_writeBytes s addr [b0, b1, b2, b3], frame_withMemory s rest _⟩

/-- Settles O50: each way of seeing DONE = 1 is one step, and every turn treats the unseen completions as its input says. -/
theorem exclusionLastsUntilDoneIsSeen : Obligations.ExclusionLastsUntilDoneIsSeen := by
  refine ⟨fun s rest hd => ⟨fun hin => ?_, fun hin => ?_, fun hin hie => ?_⟩, fun s t ht => ?_⟩
  · rw [step_readReg hin rfl, if_pos ⟨rfl, hd⟩]
    rfl
  · rw [step_wait hin, pollTurn, if_pos hd]
    rfl
  · have hirq : State.irq { s with inputs := rest } = true := by simp [State.irq, hd, hie]
    rw [step_external hin, eventTurn, interruptTaken, if_pos hirq]
    rfl
  · split
    · rename_i hin
      exact engineTurn_unseen (step_engine hin ▸ ht)
    · rename_i rest hin
      exact engineTurn_unseen (s := { s with inputs := rest }) (step_engine_input hin ▸ ht)
    · rename_i rest hin
      exact pollTurn_unseen (step_wait hin ▸ ht)
    · rename_i e rest hin
      exact eventTurn_unseen (s := { s with inputs := rest }) (step_external hin ▸ ht)
    · rename_i e engineFirst rest hin
      exact sameCycleTurn_unseen (s := { s with inputs := rest }) (step_sameCycle hin ▸ ht)

/-- Settles O41: the access is tested for its width and its offset before anything else. -/
theorem unalignedRegisterAccessesAreRefused : Obligations.UnalignedRegisterAccessesAreRefused := by
  intro s rest offset width v h
  have hbad : regAccessOk offset width = false := by
    rw [regAccessOk, Bool.and_eq_false_iff, decide_eq_false_iff_not, decide_eq_false_iff_not]
    exact h
  exact ⟨fun hin => by simp [step_external hin, eventTurn, registerWrite, hbad],
    fun hin => by simp [step_external hin, eventTurn, registerRead, hbad]⟩

/-- Settles O49: a byte in no destination region held is read from memory. -/
theorem hostReadsSeeTheSourceRegion : Obligations.HostReadsSeeTheSourceRegion := by
  intro s rest addr len hin hspace hdev
  refine ⟨(List.range len).map fun q => s.hostByte (addr + q), ?_, by simp, fun q hq hfree => ?_⟩
  · rw [step_external hin]
    exact memoryRead_answers (s := { s with inputs := rest }) hspace hdev
  · rw [List.getElem_map, List.getElem_range, State.hostByte_eq_read]
    rw [s.heldDests_eq_map]
    exact List.forall_mem_map.2 hfree

end Sys2Proof.Machine
end

section
/-! PROOFS. The two encoded languages: the operands that fit their fields, decoding after encoding and encoding after decoding, and
what a record or a command word can do by its kind alone (30_encoding R100 to R112; 42_decoder R189). -/

namespace Sys2Proof.Machine

variable {w : Word} {i : Instr} {s : State} {rest : List Byte} {count line : Nat} {g : BitVec 28}

/-! ### Operands and their fields (30_encoding R105, R106) -/

theorem countFits_iff : countFits count = true ↔ count < 2 ^ 16 := by
  rw [countFits, Config.maxCount, decide_eq_true_iff]
  omega

theorem lineFits_iff : lineFits line = true ↔ line < 2 ^ 12 := by
  rw [lineFits, Config.lineMax, decide_eq_true_iff]
  omega

theorem toNat_ofNat_of_countFits (h : countFits count = true) : (BitVec.ofNat 16 count).toNat = count :=
  Nat.mod_eq_of_lt (countFits_iff.1 h)

theorem toNat_ofNat_of_lineFits (h : lineFits line = true) : (BitVec.ofNat 12 line).toNat = line :=
  Nat.mod_eq_of_lt (lineFits_iff.1 h)

/-! ### Decoding an instruction's word -/

/-- Each record's word has the record's KIND, and its fields are the operands that fit them. -/
theorem decodeRecord_encode (hl : i.lang = .record) (hw : i.wellFormed = true) : decodeRecord (encode i) = i := by
  cases i with
  | lit _ count | run _ count => simp [encode, decodeRecord, toNat_ofNat_of_countFits hw]
  | litWsl line count | runWsl line count =>
    obtain ⟨hline, hcount⟩ := Bool.and_eq_true_iff.1 hw
    simp [encode, decodeRecord, toNat_ofNat_of_lineFits hline, toNat_ofNat_of_countFits hcount]
  | eos | reservedKind0 | reservedKind5 | reservedKind6 | reservedKind7 | reservedKind8 | reservedKind9
  | reservedKindA | reservedKindB | reservedKindC | reservedKindD | reservedKindE => simp [encode, decodeRecord]
  | hdrInit | encode | encodePartial | decode | reservedCmd0 | reservedCmd5 | reservedCmd6 | reservedCmd7 => cases hl

/-- Each command's word has START = 1, the command's CMD and its ignored bits. -/
theorem decodeCommand_encode (hl : i.lang = .command) : decodeCommand (encode i) = some i := by
  cases i with
  | hdrInit | encode | encodePartial | decode | reservedCmd0 | reservedCmd5 | reservedCmd6 | reservedCmd7 =>
    simp [encode, decodeCommand]
  | _ => cases hl

theorem decode_record_wordBytes (w : Word) (rest : List Byte) :
    decode .record (wordBytes w ++ rest) = .ok (decodeRecord w, rest) := by
  rw [decode_wordBytes]

theorem decode_command_wordBytes (h : decodeCommand w = some i) (rest : List Byte) :
    decode .command (wordBytes w ++ rest) = .ok (i, rest) := by
  simp only [decode_wordBytes, h]

/-! ### Encoding a decoded word -/

theorem controlWord_of_kind {n : Nat} (h : (kindOf w).toNat = n) :
    controlWord (BitVec.ofNat 4 n) (lineOf w) (BitVec.ofNat 16 (countOf w).toNat) = w := by
  rw [← h, BitVec.ofNat_toNat, BitVec.ofNat_toNat]
  simpa using controlWord_fields w

theorem controlWord_of_kind_line {n : Nat} (h : (kindOf w).toNat = n) :
    controlWord (BitVec.ofNat 4 n) (BitVec.ofNat 12 (lineOf w).toNat) (BitVec.ofNat 16 (countOf w).toNat) = w := by
  simpa using controlWord_of_kind h

theorem bareWord_of_kind {n : Nat} (h : (kindOf w).toNat = n) : bareWord (BitVec.ofNat 4 n) (belowKind w) = w := by
  simpa [← h] using bareWord_fields w

theorem commandWord_of_cmd {n : Nat} (hs : startOf w = true) (h : (cmdOf w).toNat = n) :
    commandWord (BitVec.ofNat 3 n) (ctrlIgnored w) = w := by
  simpa [← h] using commandWord_fields w hs

/-- The operands of a decoded record come from its fields, so they fit them. -/
theorem decodeRecord_wellFormed (w : Word) : (decodeRecord w).wellFormed = true := by
  have hcount : countFits (countOf w).toNat = true := countFits_iff.2 (countOf w).isLt
  have hline : lineFits (lineOf w).toNat = true := lineFits_iff.2 (lineOf w).isLt
  unfold decodeRecord
  split <;> simp [Instr.wellFormed, hcount, hline]

/-- A control word is its KIND and either its two fields or the bits below KIND (30_encoding R108). -/
theorem encode_decodeRecord (w : Word) : encode (decodeRecord w) = w := by
  unfold decodeRecord
  split
  case h_2 h | h_4 h => exact controlWord_of_kind h
  case h_3 h | h_5 h => exact controlWord_of_kind_line h
  case h_16 =>
    have hlt := (kindOf w).isLt
    simp only [imp_false] at *
    exact bareWord_of_kind (n := 15) (by omega)
  all_goals exact bareWord_of_kind ‹_›

/-- A word with START = 1 is a command, whose word it is (30_encoding R112). -/
theorem decodeCommand_start (hs : startOf w = true) : ∃ i, decodeCommand w = some i ∧ encode i = w := by
  unfold decodeCommand
  rw [if_pos hs]
  split
  case h_8 =>
    have hlt := (cmdOf w).isLt
    simp only [imp_false] at *
    exact ⟨_, rfl, commandWord_of_cmd (n := 7) hs (by omega)⟩
  all_goals exact ⟨_, rfl, commandWord_of_cmd hs ‹_›⟩

/-! ### Rejected commands (30_encoding R111) -/

theorem decodeCommand_reserved (hs : startOf w = true) (h : cmdOf w ∈ [0, 5, 6, 7]) :
    ∃ g, ∃ i ∈ [Instr.reservedCmd0 g, .reservedCmd5 g, .reservedCmd6 g, .reservedCmd7 g], decodeCommand w = some i := by
  simp only [List.mem_cons, List.not_mem_nil, or_false] at h
  rcases h with h | h | h | h
  · exact ⟨ctrlIgnored w, _, by simp, decodeCommand_cmd0 hs h⟩
  · exact ⟨ctrlIgnored w, _, by simp, decodeCommand_cmd5 hs h⟩
  · exact ⟨ctrlIgnored w, _, by simp, decodeCommand_cmd6 hs h⟩
  · exact ⟨ctrlIgnored w, _, by simp, decodeCommand_cmd7 hs h⟩

theorem exec_reservedCommand (h : i ∈ [.reservedCmd0 g, .reservedCmd5 g, .reservedCmd6 g, .reservedCmd7 g]) :
    exec i s = .next s.rejectCommand := by
  simp only [List.mem_cons, List.not_mem_nil, or_false] at h
  rcases h with rfl | rfl | rfl | rfl <;> rfl

/-- While BUSY every command word is rejected. -/
theorem exec_command_busy (hl : i.lang = .command) (hb : s.busy = true) : exec i s = .next s.rejectCommand := by
  cases i with
  | hdrInit | encode | encodePartial | decode =>
    simp only [exec, execHdrInit, execEncode, execEncodePartial, execDecode, command_busy hb]
  | reservedCmd0 | reservedCmd5 | reservedCmd6 | reservedCmd7 => rfl
  | _ => cases hl

/-! ### The statements -/

/-- Settles O1: the four bytes are the word, and the word's KIND and fields are the record. -/
theorem recordWordsDecodeToTheirRecord : Obligations.RecordWordsDecodeToTheirRecord := by
  intro i rest hl hw
  rw [encodeBytes, decode_record_wordBytes, decodeRecord_encode hl hw]

/-- Settles O2: the four bytes are the word, and the word's CMD and ignored bits are the command. -/
theorem commandWordsDecodeToTheirCommand : Obligations.CommandWordsDecodeToTheirCommand := by
  intro i rest hl _
  rw [encodeBytes, decode_command_wordBytes (decodeCommand_encode hl)]

/-- Settles O3: the kind of a word names one record, and the word is built from the fields that record keeps. -/
theorem everyControlWordIsOneRecord : Obligations.EveryControlWordIsOneRecord :=
  fun w => ⟨decodeRecord_lang w, decodeRecord_wellFormed w, encode_decodeRecord w⟩

/-- Settles O4: with START = 1 the eight values of CMD name a command each. -/
theorem everyStartWordIsOneCommand : Obligations.EveryStartWordIsOneCommand := by
  intro w
  split
  · rename_i hs
    obtain ⟨i, hi, hw⟩ := decodeCommand_start hs
    exact ⟨i, hi, decodeCommand_lang hi, hw⟩
  · rename_i hs
    exact decodeCommand_noStart (by simpa using hs)

/-- Settles O6: both words select the same kind, and exec reads no operand but those the two words share. -/
theorem unusedControlWordBitsAreIgnored : Obligations.UnusedControlWordBitsAreIgnored := by
  intro w v s hkind hcount hfields
  unfold decodeRecord
  rw [← hkind]
  split
  case h_2 h =>
    rw [hcount (.inl (BitVec.eq_of_toNat_eq h))]
    rfl
  case h_4 h =>
    rw [hcount (.inr (BitVec.eq_of_toNat_eq h))]
    rfl
  case h_3 h =>
    obtain ⟨hc, hl⟩ := hfields (.inl (BitVec.eq_of_toNat_eq h))
    rw [hc, hl]
  case h_5 h =>
    obtain ⟨hc, hl⟩ := hfields (.inr (BitVec.eq_of_toNat_eq h))
    rw [hc, hl]
  all_goals rfl

/-- Settles O35: the word written decodes to a command that exec rejects, whatever else the state holds. -/
theorem rejectedCommandsOnlySetCmdErr : Obligations.RejectedCommandsOnlySetCmdErr := by
  refine fun s => ⟨fun rest w hin hs h => ?_, fun i g h => ?_⟩
  · rw [step_writeCtrl hin]
    rcases h with hcmd | hbusy
    · obtain ⟨g, i, hi, hdecode⟩ := decodeCommand_reserved hs hcmd
      exact (writeCtrl_command hdecode _).trans (exec_reservedCommand hi)
    · obtain ⟨i, hdecode, -⟩ := decodeCommand_start hs
      exact (writeCtrl_command hdecode _).trans (exec_command_busy (decodeCommand_lang hdecode) hbusy)
  · rcases h with hi | ⟨hbusy, hi⟩
    · exact exec_reservedCommand hi
    · have hl : i.lang = .command := by
        simp only [List.mem_cons, List.not_mem_nil, or_false] at hi
        rcases hi with rfl | rfl | rfl | rfl <;> rfl
      exact exec_command_busy hl hbusy

/-- Settles O37: a command that answers was rejected or has started its operation, which so far sets working registers alone. -/
theorem commandsKeepRegistersAndMemory : Obligations.CommandsKeepRegistersAndMemory := by
  intro s t i hl ht
  rcases exec_command_next hl ht with rfl | ⟨hidle, rfl | ⟨-, rfl⟩ | ⟨-, rfl⟩ | ⟨-, rfl⟩⟩
  · exact ⟨⟨rfl, rfl, rfl, rfl, rfl, rfl, rfl, rfl, rfl, rfl, rfl, rfl, rfl, rfl, rfl⟩, rfl, rfl, rfl,
      ⟨rfl, rfl, rfl, rfl, rfl, rfl⟩, .inl rfl⟩
  all_goals exact ⟨⟨rfl, rfl, rfl, rfl, rfl, rfl, rfl, rfl, rfl, rfl, rfl, rfl, rfl, rfl, rfl⟩, rfl, rfl, rfl,
    ⟨rfl, rfl, rfl, rfl, rfl, rfl⟩, .inr ⟨hidle, rfl, rfl, rfl⟩⟩

/-- Settles O5: each of the fifteen words is evaluated. -/
theorem wordsOfTheSpecDecode : Obligations.WordsOfTheSpecDecode := by
  unfold Obligations.WordsOfTheSpecDecode
  decide

end Sys2Proof.Machine
end

section
/-! PROOFS. The header: no record, encoder's turn or decoder's turn looks at the identity fields, and HDR_INIT's issue and its one
move (40_header R130 to R133). -/

namespace Sys2Proof.Machine

variable {s t h : State} {i : Instr} {count : Nat}

/-! ### The identity fields and the engine (40_header R133) -/

/-- The state with the identity fields that h holds. -/
def State.withIdentityOf (s h : State) : State :=
  s.withIdentity h.magic h.version h.subVersion h.id h.uncompressed h.reserved

theorem literalRecord_withIdentityOf (ht : literalRecord count s = .next t) :
    literalRecord count (s.withIdentityOf h) = .next (t.withIdentityOf h) := by
  rcases literalRecord_next ht with ⟨hd, rfl⟩ | ⟨hd, hp, rfl⟩ | ⟨hd, hp, hfs, hfd, rfl⟩
  · exact literalRecord_destination (s := s.withIdentityOf h) hd
  · exact literalRecord_source (s := s.withIdentityOf h) hd hp
  · exact literalRecord_copies (s := s.withIdentityOf h) hd hp hfs hfd

theorem runRecord_withIdentityOf (ht : runRecord count s = .next t) :
    runRecord count (s.withIdentityOf h) = .next (t.withIdentityOf h) := by
  rcases runRecord_next ht with ⟨hd, rfl⟩ | ⟨hd, hp, rfl⟩ | ⟨hd, hp, hfs, hfd, rfl⟩
  · exact runRecord_destination (s := s.withIdentityOf h) hd
  · exact runRecord_source (s := s.withIdentityOf h) hd hp
  · exact runRecord_fills (s := s.withIdentityOf h) hd hp hfs hfd

theorem exec_record_withIdentityOf (hl : i.lang = .record) (ht : exec i s = .next t) :
    exec i (s.withIdentityOf h) = .next (t.withIdentityOf h) := by
  cases i with
  | lit g n => exact literalRecord_withIdentityOf ht
  | litWsl l n => exact literalRecord_withIdentityOf (s := s.repositioned l) ht
  | run g n => exact runRecord_withIdentityOf ht
  | runWsl l n => exact runRecord_withIdentityOf (s := s.repositioned l) ht
  | eos | reservedKind0 | reservedKind5 | reservedKind6 | reservedKind7 | reservedKind8 | reservedKind9
  | reservedKindA | reservedKindB | reservedKindC | reservedKindD | reservedKindE =>
    cases Host.Outcome.next.inj ht
    rfl
  | hdrInit | encode | encodePartial | decode | reservedCmd0 | reservedCmd5 | reservedCmd6 | reservedCmd7 => cases hl

theorem encodeTurn_withIdentityOf (ht : encodeTurn s = .next t) :
    encodeTurn (s.withIdentityOf h) = .next (t.withIdentityOf h) := by
  obtain ⟨hc, hs, hd, ⟨hi, rfl⟩ | ⟨hi, rfl⟩⟩ := encodeTurn_next ht
  · exact encodeTurn_pass (s := s.withIdentityOf h) hc hs hd hi
  · exact encodeTurn_tail (s := s.withIdentityOf h) hc hs hd hi

theorem decodeTurn_withIdentityOf (ht : decodeTurn s = .next t) :
    decodeTurn (s.withIdentityOf h) = .next (t.withIdentityOf h) := by
  rcases decodeTurn_next ht with ⟨hp, rfl⟩ | ⟨hp, hf, hx⟩
  · exact decodeTurn_overrun (s := s.withIdentityOf h) hp
  · rw [decodeTurn_record (s := s.withIdentityOf h) hp hf]
    exact exec_record_withIdentityOf (s := s.fetched) (decodeRecord_lang _) hx

/-- Only HDR_INIT has to do with the identity fields: every other move of the engine neither reads nor writes them. -/
theorem engineTurn_withIdentityOf (hp : s.phase ≠ .busy .hdrInit) (ht : engineTurn s = .next t) :
    engineTurn (s.withIdentityOf h) = .next (t.withIdentityOf h) := by
  cases hs : s.phase with
  | idle =>
    rw [engineTurn_idle hs] at ht
    cases Host.Outcome.next.inj ht
    exact engineTurn_idle (s := s.withIdentityOf h) hs
  | busy op =>
    cases op with
    | hdrInit => exact absurd hs hp
    | encode =>
      rw [engineTurn_encoding (.inl hs)] at ht
      rw [engineTurn_encoding (s := s.withIdentityOf h) (.inl hs)]
      exact encodeTurn_withIdentityOf ht
    | encodePartial =>
      rw [engineTurn_encoding (.inr hs)] at ht
      rw [engineTurn_encoding (s := s.withIdentityOf h) (.inr hs)]
      exact encodeTurn_withIdentityOf ht
    | decode =>
      rw [engineTurn_decode hs] at ht
      rw [engineTurn_decode (s := s.withIdentityOf h) hs]
      exact decodeTurn_withIdentityOf ht

theorem step_withIdentityOf (hin : s.inputs = []) (hp : s.phase ≠ .busy .hdrInit) (ht : step s = .next t) :
    step (s.withIdentityOf h) = .next (t.withIdentityOf h) := by
  rw [step_engine hin] at ht
  rw [step_engine (s := s.withIdentityOf h) hin]
  exact engineTurn_withIdentityOf hp ht

/-! ### HDR_INIT (40_header R130) -/

theorem exec_hdrInit_idle (hs : s.phase = .idle) (g : BitVec 28) : exec (.hdrInit g) s = .next (s.issue .hdrInit) :=
  command_accepted (State.busy_eq_false.2 hs)

/-- The running HDR_INIT needs one move: the header is written and the operation completes. -/
theorem step_hdrInit (hp : s.phase = .busy .hdrInit) (hin : s.inputs = []) :
    step s = .next (s.headerInitialised.complete .success) := by
  rw [step_engine hin, engineTurn_hdrInit hp]
  rfl

theorem State.headerInitialised_reserved_zero (s : State) : ∀ v ∈ s.headerInitialised.reserved, v = 0 := by
  simp

/-! ### The statements -/

/-- Settles O22: a move that is not HDR_INIT's does not look at the identity fields; any six values are those of some state. -/
theorem headerIdentityIsNeverRead : Obligations.HeaderIdentityIsNeverRead := by
  intro s t magic version subVersion id uncompressed reserved _ hp hin ht
  exact step_withIdentityOf (h := State.reset.withIdentity magic version subVersion id uncompressed reserved) hin hp ht

/-- Settles O23: an idle block accepts the command, and the engine's next move writes the header and completes. -/
theorem hdrInitWritesTheIdentity : Obligations.HdrInitWritesTheIdentity := by
  intro s g hs hin
  refine ⟨s.issue .hdrInit, _, exec_hdrInit_idle hs g, rfl, step_hdrInit rfl hin, ⟨rfl, rfl, rfl, rfl⟩, rfl, rfl, rfl, rfl, rfl,
    List.length_map _, (s.issue .hdrInit).headerInitialised_reserved_zero, rfl, rfl, rfl, rfl, rfl, rfl, rfl, rfl, rfl, rfl, ?_⟩
  exact ⟨⟨rfl, rfl, rfl, rfl, rfl, rfl, rfl⟩, ⟨rfl, rfl, rfl, rfl, rfl⟩, rfl, ⟨rfl, rfl, rfl, rfl, rfl, rfl⟩⟩

end Sys2Proof.Machine
end

section
/-! PROOFS. The encoder's scan and the stream it makes: the longest run, the shape of every stream as a predicate of its records,
and what that shape says of well-formedness, of the pixels it stands for and of its length (41_encoder R142 to R152, R155). -/

namespace Sys2Proof.Machine

variable {pix : Nat → Word} {fl : BitVec 12} {b e i k n p fuel : Nat} {first : Bool} {ws : List Word}

/-! ### RunLength (41_encoder R143, R144) -/

theorem runLength_equal {q : Nat} (hq : q < runLength pix i b) : pix (i + q) = pix i := by
  unfold runLength at hq
  refine extendRun_equal (b := b) (min Config.maxCount (b - i)) (i + 1) (fun r hr hr' => ?_) (i + q) (by omega) (by omega)
  rw [show r = i by omega]

/-- A run shorter than both caps ends at a pixel that differs. -/
theorem runLength_stops (hm : runLength pix i b < Config.maxCount) (hb : runLength pix i b < b - i) :
    pix (i + runLength pix i b) ≠ pix i := by
  have hend : i + runLength pix i b = extendRun pix i b (min Config.maxCount (b - i)) (i + 1) := by
    have := le_extendRun pix i b (min Config.maxCount (b - i)) (i + 1)
    unfold runLength
    omega
  rw [hend]
  exact extendRun_stops _ _ (by omega) (by omega) (by omega) (by omega)

theorem three_le_runLength_iff (h : i < b) :
    3 ≤ runLength pix i b ↔ i + 2 < b ∧ pix (i + 1) = pix i ∧ pix (i + 2) = pix i := by
  obtain ⟨hpos, hb, -⟩ := runLength_bounds pix h
  constructor
  · intro hl
    exact ⟨by omega, runLength_equal (b := b) (by omega), runLength_equal (b := b) (by omega)⟩
  · rintro ⟨h2, hp1, hp2⟩
    by_contra hl
    have hstop := runLength_stops (pix := pix) (i := i) (b := b) (by rw [Config.maxCount]; omega) (by omega)
    obtain hl | hl : runLength pix i b = 1 ∨ runLength pix i b = 2 := by omega
    · exact hstop (hl ▸ hp1)
    · exact hstop (hl ▸ hp2)

theorem isRun_iff : isRun pix i b = true ↔ 3 ≤ runLength pix i b := by
  rw [isRun, decide_eq_true_iff, Config.runMin]

/-! ### One pass by whether it finds a run (41_encoder R142) -/

theorem passWords_run (h : isRun pix i b = true) :
    passWords pix fl b i k first =
      literalWords pix fl first k i ++ [recordWord (first && !decide (k < i)) fl kindRun (runLength pix i b), pix i] :=
  if_pos h

theorem passWords_noRun (h : ¬isRun pix i b = true) : passWords pix fl b i k first = [] := if_neg h

theorem passNext_run (h : isRun pix i b = true) : passNext pix b i = i + runLength pix i b := if_pos h

theorem passNext_noRun (h : ¬isRun pix i b = true) : passNext pix b i = i + 1 := if_neg h

theorem passPending_run (h : isRun pix i b = true) : passPending pix b i k = i + runLength pix i b := if_pos h

theorem passPending_noRun (h : ¬isRun pix i b = true) : passPending pix b i k = k := if_neg h

theorem passFirst_run (h : isRun pix i b = true) : passFirst pix b i first = false := if_pos h

theorem passFirst_noRun (h : ¬isRun pix i b = true) : passFirst pix b i first = first := if_neg h

theorem literalWords_nil (h : e ≤ k) : literalWords pix fl first k e = [] := by
  rw [literalWords, Nat.sub_eq_zero_of_le h]
  rfl

/-! ### The shape of a stream (30_encoding R101, R104; 41_encoder R145 to R149) -/

/-- The words are records for the pixels from p up to b, then EOS: each record covers the pixels that follow the one before it, and
the first is a start-line record when `first` holds. -/
inductive StreamFrom (pix : Nat → Word) (fl : BitVec 12) (b : Nat) : Bool → Nat → List Word → Prop
  | eos {first : Bool} {p : Nat} (hp : b ≤ p) : StreamFrom pix fl b first p [eosWord]
  | lit {first : Bool} {p n : Nat} {ws : List Word} (hmin : 1 ≤ n) (hmax : n ≤ Config.maxCount) (hb : p + n ≤ b)
      (rest : StreamFrom pix fl b false (p + n) ws) :
      StreamFrom pix fl b first p (recordWord first fl kindLit n :: (pixelsFrom pix p n ++ ws))
  | run {first : Bool} {p n : Nat} {ws : List Word} (hmin : 3 ≤ n) (hmax : n ≤ Config.maxCount) (hb : p + n ≤ b)
      (heq : ∀ q < n, pix (p + q) = pix p) (rest : StreamFrom pix fl b false (p + n) ws) :
      StreamFrom pix fl b first p (recordWord first fl kindRun n :: pix p :: ws)

/-- A flush puts literal records before a stream; one that starts a partial encode takes the start line (41_encoder R145). -/
theorem StreamFrom.prepend_flush (fuel : Nat) (hf : e - k ≤ fuel) (hk : k ≤ e) (he : e ≤ b)
    (h : StreamFrom pix fl b (first && !decide (k < e)) e ws) :
    StreamFrom pix fl b first k (flushLiteral pix fl e fuel first k ++ ws) := by
  induction fuel generalizing k first with
  | zero =>
    obtain rfl : k = e := by omega
    simpa [flushLiteral] using h
  | succ fuel ih =>
    unfold flushLiteral
    split
    · rename_i hlt
      rw [List.cons_append, List.append_assoc]
      have hn : min Config.maxCount (e - k) ≤ Config.maxCount := Nat.min_le_left _ _
      have hpos : 1 ≤ min Config.maxCount (e - k) := by rw [Config.maxCount]; omega
      refine .lit hpos hn (by omega) (ih (by omega) (by omega) ?_)
      simpa [hlt] using h
    · obtain rfl : k = e := by omega
      simpa using h

theorem StreamFrom.prepend_literal (hk : k ≤ e) (he : e ≤ b) (h : StreamFrom pix fl b (first && !decide (k < e)) e ws) :
    StreamFrom pix fl b first k (literalWords pix fl first k e ++ ws) :=
  h.prepend_flush _ le_rfl hk he

theorem tailWords_streamFrom (pix : Nat → Word) (fl : BitVec 12) (b k : Nat) (first : Bool) :
    StreamFrom pix fl b first k (tailWords pix fl b k first) := by
  rcases Nat.le_total k b with hk | hk
  · exact .prepend_literal hk le_rfl (.eos le_rfl)
  · rw [tailWords, literalWords_nil hk]
    exact .eos hk

/-- From the pending span on, the words to come are a stream of the pixels still to be covered (41_encoder R142). -/
theorem scanWords_streamFrom (fuel : Nat) (hk : k ≤ i) :
    StreamFrom pix fl b first k (scanWords pix fl b fuel i k first) := by
  induction fuel generalizing i k first with
  | zero => exact tailWords_streamFrom pix fl b k first
  | succ fuel ih =>
    unfold scanWords
    split
    · rename_i hi
      by_cases hr : isRun pix i b = true
      · obtain ⟨-, hb, hmax⟩ := runLength_bounds pix hi
        rw [passWords_run hr, passNext_run hr, passPending_run hr, passFirst_run hr, List.append_assoc]
        exact .prepend_literal hk hi.le (.run (isRun_iff.1 hr) hmax (by omega) (fun q hq => runLength_equal hq) (ih le_rfl))
      · rw [passWords_noRun hr, passNext_noRun hr, passPending_noRun hr, passFirst_noRun hr]
        exact ih (by omega)
    · exact tailWords_streamFrom pix fl b k first

theorem encodeWords_streamFrom (pix : Nat → Word) (fl : BitVec 12) (a b : Nat) (part : Bool) :
    StreamFrom pix fl b part a (encodeWords pix fl a b part) := scanWords_streamFrom _ le_rfl

/-! ### The records of a stream as the decoder reads them (30_encoding R101) -/

theorem toNat_countOf_recordWord (h : n ≤ Config.maxCount) {kind : BitVec 4} :
    (countOf (recordWord first fl kind n)).toNat = n := by
  rw [countOf_recordWord, BitVec.toNat_ofNat, Nat.mod_eq_of_lt (by rw [Config.maxCount] at h; omega)]

theorem decodeRecord_eosWord : decodeRecord eosWord = .eos 0 := by decide

theorem decodeRecord_recordWord_lit (h : n ≤ Config.maxCount) :
    decodeRecord (recordWord first fl kindLit n) = if first then .litWsl fl.toNat n else .lit 0 n := by
  have hc := toNat_countOf_recordWord (first := first) (fl := fl) (kind := kindLit) h
  cases first with
  | true => rw [decodeRecord_kind2 (by simp [kindLit]), hc, lineOf_recordWord]; rfl
  | false => rw [decodeRecord_kind1 (by simp [kindLit]), hc, lineOf_recordWord]; rfl

theorem decodeRecord_recordWord_run (h : n ≤ Config.maxCount) :
    decodeRecord (recordWord first fl kindRun n) = if first then .runWsl fl.toNat n else .run 0 n := by
  have hc := toNat_countOf_recordWord (first := first) (fl := fl) (kind := kindRun) h
  cases first with
  | true => rw [decodeRecord_kind4 (by simp [kindRun]), hc, lineOf_recordWord]; rfl
  | false => rw [decodeRecord_kind3 (by simp [kindRun]), hc, lineOf_recordWord]; rfl

/-- A record's KIND is not that of EOS. -/
theorem recordWord_ne_eos {kind : BitVec 4} (h : kind = kindLit ∨ kind = kindRun) :
    recordWord first fl kind n ≠ 0xF0000000 := by
  intro he
  have hk := congrArg kindOf he
  rw [kindOf_recordWord] at hk
  rcases h with rfl | rfl <;> cases first <;> revert hk <;> decide

/-- Equal pixels are one pixel repeated. -/
theorem replicate_eq_pixelsFrom (heq : ∀ q < n, pix (p + q) = pix p) : List.replicate n (pix p) = pixelsFrom pix p n := by
  rw [pixelsFrom, eq_comm, List.eq_replicate_iff]
  exact ⟨by simp, by simpa using heq⟩

/-- The pixels from p on are the n next ones and the others. -/
theorem pixelsFrom_split (h : p + n ≤ b) :
    pixelsFrom pix p n ++ pixelsFrom pix (p + n) (b - (p + n)) = pixelsFrom pix p (b - p) := by
  rw [pixelsFrom_append, show n + (b - (p + n)) = b - p by omega]

/-! ### What the shape says (30_encoding R104, R109; 41_encoder R155) -/

theorem StreamFrom.wellFormed (h : StreamFrom pix fl b first p ws) (hf : ws.length ≤ fuel) :
    wellFormedStream fuel ws = true := by
  induction h generalizing fuel with
  | eos hp =>
    obtain ⟨f, rfl⟩ : ∃ f, fuel = f + 1 := ⟨fuel - 1, by simp at hf; omega⟩
    simp [wellFormedStream, decodeRecord_eosWord]
  | @lit first p n ws hmin hmax hb rest ih =>
    simp only [List.length_cons, List.length_append, pixelsFrom_length] at hf
    obtain ⟨f, rfl⟩ : ∃ f, fuel = f + 1 := ⟨fuel - 1, by omega⟩
    have := ih (fuel := f) (by omega)
    cases first <;> simp [wellFormedStream, decodeRecord_recordWord_lit hmax, this]
  | @run first p n ws hmin hmax hb heq rest ih =>
    simp only [List.length_cons] at hf
    obtain ⟨f, rfl⟩ : ∃ f, fuel = f + 1 := ⟨fuel - 1, by omega⟩
    have := ih (fuel := f) (by omega)
    cases first <;> simp [wellFormedStream, decodeRecord_recordWord_run hmax, this]

theorem StreamFrom.canonical (h : StreamFrom pix fl b first p ws) (hf : ws.length ≤ fuel) :
    canonicalStream fl fuel first ws = true := by
  induction h generalizing fuel with
  | eos hp =>
    obtain ⟨f, rfl⟩ : ∃ f, fuel = f + 1 := ⟨fuel - 1, by simp at hf; omega⟩
    simp [canonicalStream, eosWord]
  | @lit first p n ws hmin hmax hb rest ih =>
    simp only [List.length_cons, List.length_append, pixelsFrom_length] at hf
    obtain ⟨f, rfl⟩ : ∃ f, fuel = f + 1 := ⟨fuel - 1, by omega⟩
    have hkind : kindOf (recordWord first fl kindLit n) = if first then 0x2 else 0x1 := by simp [kindLit]
    rw [canonicalStream, if_neg (recordWord_ne_eos (.inl rfl)), lineOf_recordWord, if_neg (by simp), hkind, if_pos rfl,
      toNat_countOf_recordWord hmax, List.drop_left' (pixelsFrom_length pix p n), ih (by omega)]
    simpa using hmin
  | @run first p n ws hmin hmax hb heq rest ih =>
    simp only [List.length_cons] at hf
    obtain ⟨f, rfl⟩ : ∃ f, fuel = f + 1 := ⟨fuel - 1, by omega⟩
    have hkind : kindOf (recordWord first fl kindRun n) = if first then 0x4 else 0x3 := by simp [kindRun]
    have hlit : ¬(if first then 0x4 else 0x3 : BitVec 4) = if first then 0x2 else 0x1 := by cases first <;> decide
    rw [canonicalStream, if_neg (recordWord_ne_eos (.inr rfl)), lineOf_recordWord, if_neg (by simp), hkind, if_neg hlit,
      if_pos rfl, toNat_countOf_recordWord hmax, List.drop_one, List.tail_cons, ih (by omega)]
    simpa using hmin

theorem StreamFrom.pixels (h : StreamFrom pix fl b first p ws) (hf : ws.length ≤ fuel) :
    streamPixels fuel ws = some (pixelsFrom pix p (b - p)) := by
  induction h generalizing fuel with
  | eos hp =>
    obtain ⟨f, rfl⟩ : ∃ f, fuel = f + 1 := ⟨fuel - 1, by simp at hf; omega⟩
    simp [streamPixels, decodeRecord_eosWord, Nat.sub_eq_zero_of_le hp, pixelsFrom]
  | @lit first p n ws hmin hmax hb rest ih =>
    simp only [List.length_cons, List.length_append, pixelsFrom_length] at hf
    obtain ⟨f, rfl⟩ : ∃ f, fuel = f + 1 := ⟨fuel - 1, by omega⟩
    have := ih (fuel := f) (by omega)
    cases first <;> simp [streamPixels, decodeRecord_recordWord_lit hmax, this, pixelsFrom_split hb]
  | @run first p n ws hmin hmax hb heq rest ih =>
    simp only [List.length_cons] at hf
    obtain ⟨f, rfl⟩ : ∃ f, fuel = f + 1 := ⟨fuel - 1, by omega⟩
    have := ih (fuel := f) (by omega)
    cases first <;>
      simp [streamPixels, decodeRecord_recordWord_run hmax, this, replicate_eq_pixelsFrom heq, pixelsFrom_split hb]

/-! ### Lengths (41_encoder R151, R152) -/

/-- A span costs its pixels and one control word for each 65535 of them, begun ones counted (41_encoder R145). -/
theorem flushLiteral_length_le (fuel k : Nat) (first : Bool) :
    (flushLiteral pix fl e fuel first k).length ≤ (e - k) + ((e - k) + 65534) / 65535 := by
  induction fuel generalizing k first with
  | zero => exact Nat.zero_le _
  | succ fuel ih =>
    unfold flushLiteral
    split
    · have := ih (k + min Config.maxCount (e - k)) false
      simp only [List.length_cons, List.length_append, pixelsFrom_length]
      rw [Config.maxCount] at this ⊢
      omega
    · exact Nat.zero_le _

theorem literalWords_length_le (pix : Nat → Word) (fl : BitVec 12) (first : Bool) (k e : Nat) :
    (literalWords pix fl first k e).length ≤ (e - k) + (e - k) / 65535 + 1 := by
  have := flushLiteral_length_le (pix := pix) (fl := fl) (e := e) (e - k) k first
  unfold literalWords
  omega

theorem tailWords_length_le (pix : Nat → Word) (fl : BitVec 12) (b k : Nat) (first : Bool) :
    (tailWords pix fl b k first).length ≤ (b - k) + (b - k) / 65535 + 2 := by
  have := literalWords_length_le pix fl first k b
  rw [tailWords, List.length_append, List.length_singleton]
  omega

/-- A run of three pixels or more takes two words, so it pays for the control word of the span before it (41_encoder R152). -/
theorem scanWords_length_le (fuel : Nat) (hk : k ≤ i) :
    (scanWords pix fl b fuel i k first).length ≤ (b - k) + (b - k) / 65535 + 2 := by
  induction fuel generalizing i k first with
  | zero => exact tailWords_length_le pix fl b k first
  | succ fuel ih =>
    unfold scanWords
    split
    · rename_i hi
      by_cases hr : isRun pix i b = true
      · have hlit := literalWords_length_le pix fl first k i
        have hrest := ih (i := i + runLength pix i b) (first := false) le_rfl
        have hrun := isRun_iff.1 hr
        have hb := (runLength_bounds pix hi).2.1
        rw [passWords_run hr, passNext_run hr, passPending_run hr, passFirst_run hr]
        simp only [List.length_append, List.length_cons, List.length_nil]
        omega
      · rw [passWords_noRun hr, passNext_noRun hr, passPending_noRun hr, passFirst_noRun hr]
        exact ih (by omega)
    · exact tailWords_length_le pix fl b k first

theorem encodeWords_empty {a : Nat} {part : Bool} (h : b ≤ a) : encodeWords pix fl a b part = [eosWord] := by
  rw [encodeWords, Nat.sub_eq_zero_of_le h, scanWords, tailWords, literalWords_nil h]
  rfl

/-! ### The statements -/

/-- Settles O26: the lookahead passes equal pixels alone and stops at a cap or at a pixel that differs. -/
theorem runLengthIsTheLongestRun : Obligations.RunLengthIsTheLongestRun := by
  intro pix i b h
  obtain ⟨hpos, hb, hmax⟩ := runLength_bounds pix h
  exact ⟨hpos, le_min hmax hb, fun q hq => runLength_equal hq,
    fun hlt => runLength_stops (hlt.trans_le (min_le_left _ _)) (hlt.trans_le (min_le_right _ _))⟩

/-- Settles O27: three equal pixels before b are a run of length 3 or more, and the pass follows its test of that. -/
theorem runsStartAtThreeEqualPixels : Obligations.RunsStartAtThreeEqualPixels := by
  intro pix fl b i k first h
  split
  · rename_i hthree
    have hl := (three_le_runLength_iff h).2 hthree
    have hr := isRun_iff.2 hl
    refine ⟨hl, passNext_run hr, passPending_run hr, _, _, passWords_run hr,
      toNat_countOf_recordWord (runLength_bounds pix h).2.2, ?_⟩
    rw [kindOf_recordWord]
    split
    · exact .inr rfl
    · exact .inl rfl
  · rename_i hthree
    have hl := mt (three_le_runLength_iff h).1 hthree
    have hr := mt isRun_iff.1 hl
    exact ⟨by omega, passNext_noRun hr, passPending_noRun hr, passWords_noRun hr⟩

/-- Settles O28: by induction on the records of the stream. -/
theorem encodedStreamsAreWellFormed : Obligations.EncodedStreamsAreWellFormed := fun pix fl a b part =>
  have h := encodeWords_streamFrom pix fl a b part
  ⟨h.wellFormed le_rfl, h.canonical le_rfl⟩

/-- Settles O29: by induction on the records of the stream. -/
theorem encodedStreamsCoverTheRange : Obligations.EncodedStreamsCoverTheRange := fun pix fl a b part =>
  (encodeWords_streamFrom pix fl a b part).pixels le_rfl

/-- Settles O30: the bound holds of every scan from its pending span on. -/
theorem encodedLengthIsBounded : Obligations.EncodedLengthIsBounded := by
  intro pix a b
  refine ⟨?_, fun h => ?_⟩
  · have : (encodeWords pix 0 a b false).length ≤ (b - a) + (b - a) / 65535 + 2 := scanWords_length_le _ le_rfl
    unfold encLen
    omega
  · rw [encLen, encodeWords_empty h]
    rfl

end Sys2Proof.Machine
end

section
/-! PROOFS. A running encode: the room and the space each turn has, the run of its turns to the completion, what an issued encode
leaves, and that a turn reads its pixels alone (41_encoder R140 to R148, R154, R158). -/

namespace Sys2Proof.Machine

variable {s u : State} {m : Memory} {ws ws' : List Word}

/-! ### Words written over another memory (20_memory R70) -/

/-- Inside the words written, what stood there before does not matter. -/
theorem Memory.read_writeWords_inside (m m' : Memory) {addr c : Nat} (h : addr ≤ c) (h' : c < addr + 4 * ws.length) :
    (m'.writeWords addr ws).read c = (m.writeWords addr ws).read c := by
  induction ws generalizing m m' addr with
  | nil => simp at h'; omega
  | cons w rest ih =>
    rw [List.length_cons] at h'
    rw [Memory.writeWords, Memory.writeWords]
    by_cases hc : c < addr + 4
    · obtain ⟨q, rfl⟩ := Nat.exists_eq_add_of_le h
      rw [Memory.read_writeWords_outside _ _ (by omega), Memory.read_writeWords_outside _ _ (by omega),
        Memory.read_write32_byte _ _ _ _ (by omega), Memory.read_write32_byte _ _ _ _ (by omega)]
    · exact ih _ _ (by omega) (by omega)

/-- Words written over two memories: each byte is written alike in both or in neither. -/
theorem Memory.read_writeWords_alike (m m' : Memory) (addr c : Nat) (ws : List Word) :
    (m'.writeWords addr ws).read c = (m.writeWords addr ws).read c ∨
      ((m.writeWords addr ws).read c = m.read c ∧ (m'.writeWords addr ws).read c = m'.read c) := by
  by_cases h : addr ≤ c ∧ c < addr + 4 * ws.length
  · exact .inl (Memory.read_writeWords_inside m m' h.1 h.2)
  · exact .inr ⟨Memory.read_writeWords_outside _ _ (by omega), Memory.read_writeWords_outside _ _ (by omega)⟩

/-! ### The turns of a running encode (41_encoder R140, R142) -/

/-- The words of the turn are among those still to come. -/
theorem State.turnWords_length_le (s : State) : s.turnWords.length ≤ s.remainingWords.length := by
  by_cases hi : s.i < s.b
  · rw [State.remainingWords_pass hi, List.length_append]
    exact Nat.le_add_right _ _
  · rw [State.remainingWords_tail hi]

/-- A turn of a running encode passes its tests: the issue tested the room for all words and the space of both regions. -/
theorem encoding_fits (he : s.encoding) (hr : s.regionsKept) (hk : s.encoderKept) :
    s.out + 4 * s.turnWords.length ≤ s.dstCap.toNat ∧ spanFits (s.srcAddr 0) s.b = true ∧
      spanFits (s.dstAddr s.out) s.turnWords.length = true := by
  obtain ⟨hak, hki, hib, hbn, -, hroom⟩ := hk he
  obtain ⟨hsource, hdest, -⟩ := encoding_regions he hr (by omega) hbn
  have hturn := s.turnWords_length_le
  rw [spanFits_iff, spanFits_iff, State.srcAddr, State.dstAddr]
  omega

theorem step_encode_pass (he : s.encoding) (hin : s.inputs = []) (hr : s.regionsKept) (hk : s.encoderKept) (hi : s.i < s.b) :
    step s = .next (s.scanned.emitted s.turnWords) := by
  obtain ⟨hroom, hsource, hdest⟩ := encoding_fits he hr hk
  rw [step_engine hin, engineTurn_encoding he, encodeTurn_pass hroom hsource hdest hi]

theorem step_encode_tail (he : s.encoding) (hin : s.inputs = []) (hr : s.regionsKept) (hk : s.encoderKept) (hi : ¬s.i < s.b) :
    step s =
      .next (((s.flushed.emitted s.turnWords).payloadWritten (s.out + 4 * s.turnWords.length)).complete .success) := by
  obtain ⟨hroom, hsource, hdest⟩ := encoding_fits he hr hk
  rw [step_engine hin, engineTurn_encoding he, encodeTurn_tail hroom hsource hdest hi]

/-- The words a pass writes touch no pixel, so those still to come stay what they were (41_encoder R158; 20_memory R81). -/
theorem remainingWords_after_pass (he : s.encoding) (hr : s.regionsKept) (hk : s.encoderKept) (hi : s.i < s.b) :
    s.remainingWords = s.turnWords ++ (s.scanned.emitted s.turnWords).remainingWords := by
  obtain ⟨hak, hki, -, hbn, -⟩ := hk he
  have hpend := passPending_bounds s.pix hi hki
  rw [State.remainingWords_pass hi]
  refine congrArg (s.turnWords ++ ·) (scanWords_congr _ (fun p hp hb => ?_) hpend.2).symm
  exact pix_emitted (u := s.scanned) he hr hbn (encoding_fits he hr hk).1 rfl rfl rfl rfl (hak.trans (hpend.1.trans hp)) hb

/-! ### The run to the completion (41_encoder R142, R147, R148) -/

/-- u is s after its encode completed with the words ws written, their bytes added to `out` in PAYLOAD_SIZE, and nothing else. -/
structure EncodeCompleted (ws : List Word) (s u : State) : Prop where
  completed : completedWith .success s u
  unseen : addsUnseen s u
  memory : u.mem = s.mem.writeWords (s.dstAddr s.out) ws
  payload : u.payloadSize = BitVec.ofNat 32 (s.out + 4 * ws.length)
  registers : sameRegisters s { u with payloadSize := s.payloadSize }
  decoder : sameDecoder s u
  outside : sameOutside s u

theorem EncodeCompleted.of_tail (he : s.encoding) (ws : List Word) :
    EncodeCompleted ws s (((s.flushed.emitted ws).payloadWritten (s.out + 4 * ws.length)).complete .success) where
  completed := ⟨rfl, rfl, rfl, rfl⟩
  unseen := by
    rcases he with he | he <;>
      simp [addsUnseen, State.activeClaim, State.activeSource, State.activeDest, he, State.sourceOf, State.destOf]
  memory := rfl
  payload := rfl
  registers := by simp [sameRegisters]
  decoder := by simp [sameDecoder]
  outside := by simp [sameOutside]

/-- The words of a pass stand before those of the turns after it. -/
theorem EncodeCompleted.after_pass (h : EncodeCompleted ws' (s.scanned.emitted ws) u) : EncodeCompleted (ws ++ ws') s u where
  completed := h.completed
  unseen := h.unseen
  memory := by
    rw [h.memory, Memory.writeWords_append]
    simp [State.dstAddr, Nat.add_assoc]
  payload := by
    rw [h.payload, List.length_append, Nat.mul_add, ← Nat.add_assoc]
    rfl
  registers := h.registers
  decoder := h.decoder
  outside := h.outside

/-- A running encode completes, with the words still to come written behind those it has written. -/
theorem encode_completes (he : s.encoding) (hin : s.inputs = []) (hr : s.regionsKept) (hk : s.encoderKept) :
    ∃ n u, steps n s = .next u ∧ EncodeCompleted s.remainingWords s u := by
  induction hd : s.b - s.i using Nat.strong_induction_on generalizing s with
  | _ d ih =>
    by_cases hi : s.i < s.b
    · have hnext : s.i < (s.scanned.emitted s.turnWords).i := (passNext_bounds s.pix hi).1
      have hless : s.b - (s.scanned.emitted s.turnWords).i < d := by omega
      obtain ⟨n, u, hrun, hu⟩ := ih _ hless (s := s.scanned.emitted s.turnWords) he hin hr (encoderKept_pass he hr hk hi) rfl
      refine ⟨n + 1, u, ?_, remainingWords_after_pass he hr hk hi ▸ hu.after_pass⟩
      rw [steps_succ, step_encode_pass he hin hr hk hi, andThen_next, hrun]
    · rw [State.remainingWords_tail hi]
      refine ⟨1, _, ?_, .of_tail he s.turnWords⟩
      rw [steps_succ, step_encode_tail he hin hr hk hi, andThen_next, steps_zero]

/-! ### An issued encode (41_encoder R140, R150) -/

theorem State.encodeRefusal_ready (h : s.regionsReady s.frameSource s.streamDest)
    (hroom : encLen s.pix 0 s.pixelCount ≤ s.dstCap.toNat) : s.encodeRefusal = none := by
  simp only [State.encodeRefusal, State.regionRefusal_ready h]
  exact if_neg hroom.not_gt

theorem State.encodePartialRefusal_ready (hlines : s.firstLine + s.lineCount ≤ s.height.toNat)
    (hrange : regionsInRange s.frameSource s.streamDest = true)
    (h : s.regionsReady (s.pixelSource s.bandStart s.bandEnd) s.streamDest)
    (hroom : encLen s.pix s.bandStart s.bandEnd ≤ s.dstCap.toNat) : s.encodePartialRefusal = none := by
  rw [State.encodePartialRefusal, if_neg hlines.not_gt, hrange]
  simp only [State.regionRefusal_ready h]
  exact if_neg hroom.not_gt

section Issued

variable {op : Op} {a b : Nat} {part : Bool}

/-- At its issue an encode has its whole range to scan and the room it was tested for. -/
theorem startEncode_encoderKept (hab : a ≤ b) (hb : b ≤ s.pixelCount) (hroom : encLen s.pix a b ≤ s.dstCap.toNat) :
    ((s.issue op).startEncode a b part).encoderKept := by
  intro _
  have hlen : 4 * ((s.issue op).startEncode a b part).remainingWords.length = encLen s.pix a b :=
    encodeWords_length s.partFirstLine part
  exact ⟨le_rfl, le_rfl, hab, hb, rfl, (Nat.zero_add _).trans_le (hlen.trans_le hroom)⟩

/-- What an encode of the pixels [a, b) issued in s leaves when it completes: its words from DST_BASE on, PAYLOAD_SIZE their bytes,
and nothing else. -/
theorem issued_encode_writes_its_words (hop : op = .encode ∨ op = .encodePartial) (hin : s.inputs = []) (hab : a ≤ b)
    (hb : b ≤ s.pixelCount) (hroom : encLen s.pix a b ≤ s.dstCap.toNat)
    (hr : ((s.issue op).startEncode a b part).regionsKept) :
    ∃ n u, steps n ((s.issue op).startEncode a b part) = .next u ∧ completedWith .success s u ∧
      addsUnseen ((s.issue op).startEncode a b part) u ∧
      wordsAt u s.dstBase.toNat (encodeWords s.pix s.partFirstLine a b part) ∧
      memoryKeptOutside s.dstBase.toNat (encLen s.pix a b) s u ∧ u.payload = encLen s.pix a b ∧
      sameRegisters s { u with payloadSize := s.payloadSize } ∧ sameDecoder s u ∧ sameOutside s u := by
  have he : ((s.issue op).startEncode a b part).encoding := hop.imp (congrArg Phase.busy) (congrArg Phase.busy)
  obtain ⟨n, u, hrun, hu⟩ := encode_completes he hin hr (startEncode_encoderKept hab hb hroom)
  have hlen : 4 * (encodeWords s.pix s.partFirstLine a b part).length = encLen s.pix a b := encodeWords_length _ part
  have hmem : u.mem = s.mem.writeWords s.dstBase.toNat (encodeWords s.pix s.partFirstLine a b part) := hu.memory
  have hpayload : u.payloadSize = BitVec.ofNat 32 (0 + 4 * (encodeWords s.pix s.partFirstLine a b part).length) := hu.payload
  refine ⟨n, u, hrun, hu.completed, hu.unseen, fun q hq => ?_, fun addr haddr => ?_, ?_, hu.registers, hu.decoder,
    hu.outside⟩
  · rw [hmem, Memory.read32_writeWords _ _ _ _ hq]
  · rw [hmem, Memory.read_writeWords_outside _ _ (hlen ▸ haddr)]
  · rw [State.payload, hpayload, Nat.zero_add, hlen, BitVec.toNat_ofNat, Nat.mod_eq_of_lt (hroom.trans_lt s.dstCap.isLt)]

/-- An encode that is issued sets BUSY, clears DONE and sets its working registers, and nothing else (30_encoding R110). -/
theorem startEncode_frame (s : State) (op : Op) (a b : Nat) (part : Bool) :
    let t := (s.issue op).startEncode a b part
    t.phase = .busy op ∧ t.done = false ∧ t.cmdErr = s.cmdErr ∧ t.result = s.result ∧ sameRegisters s t ∧ t.mem = s.mem ∧
      sameDecoder s t ∧ sameUnseen s t ∧ sameOutside s t :=
  ⟨rfl, rfl, rfl, rfl, ⟨rfl, rfl, rfl, rfl, rfl, rfl, rfl, rfl, rfl, rfl, rfl, rfl, rfl, rfl, rfl⟩, rfl,
    ⟨rfl, rfl, rfl, rfl, rfl⟩, rfl, ⟨rfl, rfl, rfl, rfl, rfl, rfl⟩⟩

end Issued

/-! ### What a turn reads (41_encoder R154, R158) -/

/-- The state over another memory. -/
def State.withMemory (s : State) (m : Memory) : State := { s with mem := m }

@[simp] theorem State.withMemory_mem (s : State) (m : Memory) : (s.withMemory m).mem = m := rfl
@[simp] theorem State.withMemory_b (s : State) (m : Memory) : (s.withMemory m).b = s.b := rfl
@[simp] theorem State.withMemory_i (s : State) (m : Memory) : (s.withMemory m).i = s.i := rfl
@[simp] theorem State.withMemory_k (s : State) (m : Memory) : (s.withMemory m).k = s.k := rfl
@[simp] theorem State.withMemory_first (s : State) (m : Memory) : (s.withMemory m).first = s.first := rfl

theorem State.emitted_withMemory (s : State) (m : Memory) (ws : List Word) :
    (s.withMemory m).emitted ws = (s.emitted ws).withMemory (m.writeWords (s.dstAddr s.out) ws) := rfl

theorem State.flushed_withMemory (s : State) (m : Memory) : (s.withMemory m).flushed = s.flushed.withMemory m := rfl

theorem State.payloadWritten_withMemory (s : State) (m : Memory) (n : Nat) :
    (s.withMemory m).payloadWritten n = (s.payloadWritten n).withMemory m := rfl

theorem State.complete_withMemory (s : State) (m : Memory) (code : ResultCode) :
    (s.withMemory m).complete code = (s.complete code).withMemory m := rfl

/-- Memories that agree on the bytes of the pixels [a, b) agree on those pixels. -/
theorem pix_withMemory {a b : Nat} (h : ∀ addr, (s.pixelSource a b).contains addr = true → m.read addr = s.mem.read addr)
    {p : Nat} (ha : a ≤ p) (hb : p < b) : (s.withMemory m).pix p = s.pix p := by
  refine Memory.read32_congr fun c hc hc' => h c ?_
  have hc : s.srcAddr (4 * p) ≤ c := hc
  have hc' : c < s.srcAddr (4 * p) + 4 := hc'
  rw [Region.contains, decide_eq_true_eq]
  simp only [State.pixelSource, State.srcAddr] at hc hc' ⊢
  omega

theorem turnWords_withMemory (hki : s.k ≤ s.i) (h : ∀ p, s.k ≤ p → p < s.b → (s.withMemory m).pix p = s.pix p) :
    (s.withMemory m).turnWords = s.turnWords := by
  unfold State.turnWords
  by_cases hi : s.i < s.b
  · rw [if_pos hi]
    exact (if_pos hi).trans (passWords_congr h hi hki)
  · rw [if_neg hi]
    exact (if_neg hi).trans (congrArg (· ++ [eosWord]) (literalWords_congr h))

/-- A pass moves the scan alike over any memory with the same pixels from i on. -/
theorem scanned_withMemory (hi : s.i < s.b) (h : ∀ p, s.i ≤ p → p < s.b → (s.withMemory m).pix p = s.pix p) :
    (s.withMemory m).scanned = s.scanned.withMemory m := by
  simp only [State.scanned, passNext, passPending, passFirst, State.withMemory_b, State.withMemory_i, State.withMemory_k,
    State.withMemory_first, isRun_congr h hi, runLength_congr h hi]
  rfl

/-- A turn does over another memory with the same pixels what it does over this one, and writes its words there (41_encoder R154,
R158). -/
theorem encodeTurn_withMemory (hki : s.k ≤ s.i) (h : ∀ p, s.k ≤ p → p < s.b → (s.withMemory m).pix p = s.pix p)
    (ht : encodeTurn s = .next u) :
    u.mem = s.mem.writeWords (s.dstAddr s.out) s.turnWords ∧
      encodeTurn (s.withMemory m) = .next (u.withMemory (m.writeWords (s.dstAddr s.out) s.turnWords)) := by
  have hwords := turnWords_withMemory hki h
  obtain ⟨hroom, hsource, hdest, hcase⟩ := encodeTurn_next ht
  rw [← hwords] at hroom hdest
  rcases hcase with ⟨hi, rfl⟩ | ⟨hi, rfl⟩
  · refine ⟨rfl, (encodeTurn_pass (s := s.withMemory m) hroom hsource hdest hi).trans ?_⟩
    rw [hwords, scanned_withMemory hi fun p hp hb => h p (hki.trans hp) hb, State.emitted_withMemory]
    rfl
  · refine ⟨rfl, (encodeTurn_tail (s := s.withMemory m) hroom hsource hdest hi).trans ?_⟩
    rw [hwords, State.flushed_withMemory, State.emitted_withMemory, State.payloadWritten_withMemory,
      State.complete_withMemory]
    rfl

/-! ### The statements -/

/-- Settles O32: the words of the turn and the moves of the scan are functions of the pixels, and the turn writes those words
at one place. -/
theorem encodeReadsOnlyItsPixels : Obligations.EncodeReadsOnlyItsPixels := by
  intro s t m he hk hin hm ht
  obtain ⟨hak, hki, -⟩ := hk he
  rw [step_engine hin, engineTurn_encoding he] at ht
  obtain ⟨hmem, hturn⟩ := encodeTurn_withMemory hki (fun p hp hb => pix_withMemory hm (hak.trans hp) hb) ht
  refine ⟨t.withMemory (m.writeWords (s.dstAddr s.out) s.turnWords), ?_, rfl, fun addr => ?_⟩
  · rw [step_engine (s := { s with mem := m }) hin, engineTurn_encoding (s := { s with mem := m }) he]
    exact hturn
  · rw [hmem, State.withMemory_mem]
    exact Memory.read_writeWords_alike _ _ _ _ _

/-- Settles O24: an idle block accepts the command, and the run of its turns writes the words of the whole frame. -/
theorem encodeWritesTheStream : Obligations.EncodeWritesTheStream := by
  intro s ignored hidle hin hready hroom
  have hissue : exec (.encode ignored) s = .next ((s.issue .encode).startEncode 0 s.pixelCount false) :=
    (congrArg (command · _ s) (State.encodeRefusal_ready hready hroom)).trans (command_accepted (State.busy_eq_false.2 hidle))
  obtain ⟨hrange, hapart, -⟩ := hready
  obtain ⟨n, u, hrun, hcompleted, hunseen, hwords, hrest⟩ :=
    issued_encode_writes_its_words (part := false) (.inl rfl) hin (Nat.zero_le _) le_rfl hroom ⟨hrange, hapart⟩
  obtain ⟨hphase, hdone, herr, hresult, hregisters, hmem, hdecoder, hseen, houtside⟩ :=
    startEncode_frame s .encode 0 s.pixelCount false
  have hline : encodeWords s.pix s.partFirstLine 0 s.pixelCount false = encodeWords s.pix 0 0 s.pixelCount false :=
    scanWords_line _ _ _ _ _
  exact ⟨_, n, u, hissue, hphase, hdone, herr, hresult, hregisters, hmem, hdecoder, hseen, houtside, hrun, hcompleted,
    hunseen, hline ▸ hwords, hrest⟩

/-- Settles O25: as for a whole frame; the band's end is not past that of the frame. -/
theorem encodePartialWritesTheBand : Obligations.EncodePartialWritesTheBand := by
  intro s ignored hidle hin hlines hframe hready hroom
  have hissue : exec (.encodePartial ignored) s =
      .next ((s.issue .encodePartial).startEncode s.bandStart s.bandEnd true) :=
    (congrArg (command · _ s) (State.encodePartialRefusal_ready hlines hframe hready hroom)).trans
      (command_accepted (State.busy_eq_false.2 hidle))
  obtain ⟨hrange, hapart, -⟩ := hready
  obtain ⟨n, u, hrun, hcompleted, hunseen, hwords, hrest⟩ :=
    issued_encode_writes_its_words (part := true) (.inr rfl) hin (bandStart_le_bandEnd s) (bandEnd_le_pixelCount hlines) hroom
      ⟨hrange, hapart⟩
  obtain ⟨hphase, hdone, herr, hresult, hregisters, hmem, hdecoder, hseen, houtside⟩ :=
    startEncode_frame s .encodePartial s.bandStart s.bandEnd true
  exact ⟨_, n, u, hissue, hphase, hdone, herr, hresult, hregisters, hmem, hdecoder, hseen, houtside, hrun, hcompleted,
    hunseen, hwords, hrest⟩

end Sys2Proof.Machine
end

section
/-! PROOFS. A DECODE of an encoder's stream: each record puts the pixels it stands for in their place and leaves the rest of the
stream to be read, so that the run to EOS leaves the pixels of the range (41_encoder R155, R157; 42_decoder R182 to R188). -/

namespace Sys2Proof.Machine

variable {pix : Nat → Word} {fl : BitVec 12} {b n p addr : Nat} {first : Bool} {s u : State} {m : Memory} {w : Word}
  {us ws : List Word}

/-! ### Words in memory -/

theorem wordsAt_cons (h : wordsAt s addr (w :: ws)) : s.mem.read32 addr = w ∧ wordsAt s (addr + 4) ws := by
  refine ⟨h 0 (Nat.succ_pos _), fun q hq => ?_⟩
  rw [Nat.add_assoc, Nat.add_comm 4 (4 * q)]
  exact h (q + 1) (Nat.succ_lt_succ hq)

theorem wordsAt_append_right (h : wordsAt s addr (us ++ ws)) : wordsAt s (addr + 4 * us.length) ws := by
  intro q hq
  rw [Nat.add_assoc, ← Nat.mul_add, h (us.length + q) (by rw [List.length_append]; omega)]
  simp

/-- A span that stands in memory is read pixel by pixel. -/
theorem read32_of_wordsAt_pixelsFrom (h : wordsAt s addr (pixelsFrom pix p n ++ ws)) {q : Nat} (hq : q < n) :
    s.mem.read32 (addr + 4 * q) = pix (p + q) := by
  have hspan : q < (pixelsFrom pix p n).length := by rwa [pixelsFrom_length]
  rw [h q (by rw [List.length_append]; omega), List.getElem_append_left hspan]
  simp [pixelsFrom]

/-! ### A record of the encoder as the decoder runs it (42_decoder R185 to R188) -/

/-- The pixel index a record starts at: its start line's, or where the one before it ended. -/
def State.cursor (s : State) (first : Bool) (fl : BitVec 12) : Nat := if first then s.lineStart fl.toNat else s.dst

theorem exec_litWord (h : n ≤ Config.maxCount) :
    exec (decodeRecord (recordWord first fl kindLit n)) s = literalRecord n { s with dst := s.cursor first fl } := by
  rw [decodeRecord_recordWord_lit h]
  cases first <;> rfl

theorem exec_runWord (h : n ≤ Config.maxCount) :
    exec (decodeRecord (recordWord first fl kindRun n)) s = runRecord n { s with dst := s.cursor first fl } := by
  rw [decodeRecord_recordWord_run h]
  cases first <;> rfl

/-- The state after a record that left this memory and these cursors. -/
def State.afterRecord (s : State) (m : Memory) (src dst : Nat) : State := { s.fetched with mem := m, src := src, dst := dst }

/-- A DECODE runs and is about to read the words ws, a part of its stream, whose first record starts at pixel p of the range that
ends at b. -/
structure DecoderAt (fl : BitVec 12) (b : Nat) (first : Bool) (p : Nat) (ws : List Word) (s : State) : Prop where
  decoding : s.phase = .busy .decode
  alone : s.inputs = []
  regions : s.regionsKept
  cursor : s.cursor first fl = p
  inside : b ≤ s.pixelCount
  words : wordsAt s (s.srcAddr s.src) ws
  room : s.src + 4 * ws.length ≤ s.payload

/-- The fetch takes the first of the words (42_decoder R182). -/
theorem DecoderAt.step_fetch (h : DecoderAt fl b first p (w :: ws) s) : step s = exec (decodeRecord w) s.fetched := by
  have hroom := h.room
  rw [List.length_cons] at hroom
  obtain ⟨hspace, -⟩ := decoding_regions h.decoding h.regions
  have hw : s.srcWord s.src = w := (wordsAt_cons h.words).1
  rw [step_engine h.alone, engineTurn_decode h.decoding, decodeTurn_record (by omega), hw]
  rw [spanFits_iff, State.srcAddr]
  omega

theorem DecoderAt.step_eos (h : DecoderAt fl b first p [eosWord] s) : step s = .next (s.fetched.complete .success) := by
  rw [h.step_fetch, decodeRecord_eosWord]
  rfl

/-- A literal record copies its pixels to their place (42_decoder R185, R186). -/
theorem DecoderAt.step_lit (h : DecoderAt fl b first p (recordWord first fl kindLit n :: (pixelsFrom pix p n ++ ws)) s)
    (hmax : n ≤ Config.maxCount) (hb : p + n ≤ b) :
    step s = .next (s.afterRecord (s.mem.copyWords (s.srcAddr (s.src + 4)) (s.dstAddr (4 * p)) n) (s.src + 4 + 4 * n)
      (p + n)) := by
  have hroom := h.room
  have hinside := h.inside
  simp only [List.length_cons, List.length_append, pixelsFrom_length] at hroom
  obtain ⟨hsource, hdest, -⟩ := decoding_regions h.decoding h.regions
  rw [h.step_fetch, exec_litWord hmax, show s.fetched.cursor first fl = p from h.cursor]
  refine literalRecord_copies (s := { s.fetched with dst := p }) ?_ ?_ ?_ ?_
  · exact hb.trans hinside
  · show s.src + 4 + 4 * n ≤ s.payload
    omega
  · rw [spanFits_iff]
    show n = 0 ∨ s.srcBase.toNat + (s.src + 4) + 4 * n ≤ _
    omega
  · rw [spanFits_iff]
    show n = 0 ∨ s.dstBase.toNat + 4 * p + 4 * n ≤ _
    omega

/-- The copy reads the pixels of the record, for it writes beside the stream (20_memory R79). -/
theorem DecoderAt.read32_copyWords (h : DecoderAt fl b first p (w :: (pixelsFrom pix p n ++ ws)) s) (hb : p + n ≤ b) {q : Nat}
    (hq : q < n) :
    (s.mem.copyWords (s.srcAddr (s.src + 4)) (s.dstAddr (4 * p)) n).read32 (s.dstAddr (4 * p) + 4 * q) = pix (p + q) := by
  have hroom := h.room
  have hinside := h.inside
  simp only [List.length_cons, List.length_append, pixelsFrom_length] at hroom
  obtain ⟨-, -, hapart⟩ := decoding_regions h.decoding h.regions
  rw [Memory.read32_copyWords _ _ _ _ _ hq]
  · exact read32_of_wordsAt_pixelsFrom (wordsAt_cons h.words).2 hq
  · rw [State.srcAddr, State.dstAddr]
    omega

/-- A run record writes its pixel to each of its places (42_decoder R187, R188). -/
theorem DecoderAt.step_run (h : DecoderAt fl b first p (recordWord first fl kindRun n :: pix p :: ws) s)
    (hmax : n ≤ Config.maxCount) (hb : p + n ≤ b) :
    step s = .next (s.afterRecord (s.mem.fillWords (s.dstAddr (4 * p)) (pix p) n) (s.src + 4 + 4) (p + n)) := by
  have hroom := h.room
  have hinside := h.inside
  simp only [List.length_cons] at hroom
  obtain ⟨hsource, hdest, -⟩ := decoding_regions h.decoding h.regions
  have hpixel : s.srcWord (s.src + 4) = pix p := (wordsAt_cons (wordsAt_cons h.words).2).1
  rw [h.step_fetch, exec_runWord hmax, show s.fetched.cursor first fl = p from h.cursor, ← hpixel]
  refine runRecord_fills (s := { s.fetched with dst := p }) ?_ ?_ ?_ ?_
  · exact hb.trans hinside
  · show s.src + 4 + 4 ≤ s.payload
    omega
  · rw [spanFits_iff]
    show _ ∨ s.srcBase.toNat + (s.src + 4) + 4 * 1 ≤ _
    omega
  · rw [spanFits_iff]
    show n = 0 ∨ s.dstBase.toNat + 4 * p + 4 * n ≤ _
    omega

/-- Behind a record that wrote only its own pixels the decoder is at the rest of the stream, which no record writes (20_memory
R79). -/
theorem DecoderAt.next (h : DecoderAt fl b first p (w :: (us ++ ws)) s) (hb : p + n ≤ b)
    (hm : memoryKeptOutside (s.dstAddr (4 * p)) (4 * n) s (s.withMemory m)) :
    DecoderAt fl b false (p + n) ws (s.afterRecord m (s.src + 4 + 4 * us.length) (p + n)) := by
  have hroom := h.room
  have hinside := h.inside
  simp only [List.length_cons, List.length_append] at hroom
  obtain ⟨-, -, hapart⟩ := decoding_regions h.decoding h.regions
  refine ⟨h.decoding, h.alone, h.regions, rfl, hinside, fun q hq => ?_, ?_⟩
  · have hold := wordsAt_append_right (wordsAt_cons h.words).2 q hq
    have haddr : s.srcAddr s.src + 4 + 4 * us.length + 4 * q = s.srcAddr (s.src + 4 + 4 * us.length) + 4 * q := by
      simp only [State.srcAddr]
      omega
    rw [haddr] at hold
    refine (Memory.read32_congr fun c hc hc' => hm c ?_).trans hold
    have hc : s.srcAddr (s.src + 4 + 4 * us.length) + 4 * q ≤ c := hc
    have hc' : c < s.srcAddr (s.src + 4 + 4 * us.length) + 4 * q + 4 := hc'
    simp only [State.srcAddr, State.dstAddr] at hc hc' ⊢
    omega
  · show s.src + 4 + 4 * us.length + 4 * ws.length ≤ s.payload
    omega

/-! ### The run to EOS (42_decoder R184; 41_encoder R157) -/

/-- u is s after its DECODE completed with 0, the pixels [p, b) in their place and no other byte and no register changed. -/
structure SpanDecoded (pix : Nat → Word) (p b : Nat) (s u : State) : Prop where
  completed : completedWith .success s u
  pixels : ∀ q, p ≤ q → q < b → u.mem.read32 (s.dstAddr (4 * q)) = pix q
  kept : memoryKeptOutside (s.dstAddr (4 * p)) (4 * (b - p)) s u
  registers : sameRegisters s u

theorem SpanDecoded.dstPix (h : SpanDecoded pix p b s u) {q : Nat} (hp : p ≤ q) (hb : q < b) : u.dstPix q = pix q := by
  have hdst : u.dstBaseHi = s.dstBaseHi := by
    obtain ⟨-, -, -, -, -, -, -, -, -, -, hdst, -⟩ := h.registers
    exact hdst
  rw [State.dstPix, State.dstAddr, State.dstBase, hdst]
  exact h.pixels q hp hb

/-- A record's pixels stand before those of the records after it. -/
theorem SpanDecoded.prepend {src : Nat} (h : SpanDecoded pix (p + n) b (s.afterRecord m src (p + n)) u) (hb : p + n ≤ b)
    (hm : memoryKeptOutside (s.dstAddr (4 * p)) (4 * n) s (s.withMemory m))
    (hpix : ∀ q < n, m.read32 (s.dstAddr (4 * p) + 4 * q) = pix (p + q)) : SpanDecoded pix p b s u where
  completed := h.completed
  pixels q hq hqb := by
    by_cases hrest : p + n ≤ q
    · exact h.pixels q hrest hqb
    · obtain ⟨r, rfl⟩ := Nat.exists_eq_add_of_le hq
      rw [← hpix r (by omega), State.dstAddr, State.dstAddr, Nat.mul_add, Nat.add_assoc]
      refine Memory.read32_congr fun c hc hc' => h.kept c (.inl ?_)
      show c < s.dstBase.toNat + 4 * (p + n)
      omega
  kept c hc := by
    have hc : c < s.dstBase.toNat + 4 * p ∨ s.dstBase.toNat + 4 * p + 4 * (b - p) ≤ c := hc
    refine (h.kept c ?_).trans (hm c ?_)
    · show c < s.dstBase.toNat + 4 * (p + n) ∨ s.dstBase.toNat + 4 * (p + n) + 4 * (b - (p + n)) ≤ c
      omega
    · rw [State.dstAddr]
      omega
  registers := h.registers

theorem SpanDecoded.of_eos (hp : b ≤ p) : SpanDecoded pix p b s (s.fetched.complete .success) where
  completed := ⟨rfl, rfl, rfl, rfl⟩
  pixels q hq hqb := absurd hqb (by omega)
  kept _ _ := rfl
  registers := ⟨rfl, rfl, rfl, rfl, rfl, rfl, rfl, rfl, rfl, rfl, rfl, rfl, rfl, rfl, rfl⟩

/-- A record that answers with its own pixels in place leaves the rest of the run to the records after it. -/
theorem DecoderAt.run_next (h : DecoderAt fl b first p (w :: (us ++ ws)) s) (hb : p + n ≤ b)
    (hstep : step s = .next (s.afterRecord m (s.src + 4 + 4 * us.length) (p + n)))
    (hm : memoryKeptOutside (s.dstAddr (4 * p)) (4 * n) s (s.withMemory m))
    (hpix : ∀ q < n, m.read32 (s.dstAddr (4 * p) + 4 * q) = pix (p + q))
    (hrest : ∀ t, DecoderAt fl b false (p + n) ws t → ∃ k u, steps k t = .next u ∧ SpanDecoded pix (p + n) b t u) :
    ∃ k u, steps k s = .next u ∧ SpanDecoded pix p b s u := by
  obtain ⟨k, u, hrun, hu⟩ := hrest _ (h.next hb hm)
  exact ⟨k + 1, u, by rw [steps_succ, hstep, andThen_next, hrun], hu.prepend hb hm hpix⟩

/-- A DECODE of a stream for the pixels [p, b) puts them in their place. -/
theorem StreamFrom.decodes (hs : StreamFrom pix fl b first p ws) (h : DecoderAt fl b first p ws s) :
    ∃ k u, steps k s = .next u ∧ SpanDecoded pix p b s u := by
  induction hs generalizing s with
  | eos hp =>
    refine ⟨1, _, ?_, .of_eos hp⟩
    rw [steps_succ, h.step_eos, andThen_next, steps_zero]
  | @lit first p n ws hmin hmax hb rest ih =>
    refine h.run_next hb ?_ (fun c hc => Memory.read_copyWords_outside _ hc) (fun q hq => h.read32_copyWords hb hq)
      fun t ht => ih ht
    rw [h.step_lit hmax hb, pixelsFrom_length]
  | @run first p n ws hmin hmax hb heq rest ih =>
    refine h.run_next (us := [pix p]) hb (h.step_run hmax hb) (fun c hc => Memory.read_fillWords_outside _ _ hc)
      (fun q hq => ?_) fun t ht => ih ht
    rw [Memory.read32_fillWords _ _ _ _ _ hq, heq q hq]

/-- A DECODE that starts at the words of Encode(a, b, part, fl) leaves the pixels of the range. -/
theorem decode_encodeWords {a : Nat} {part : Bool} (hp : s.phase = .busy .decode) (hin : s.inputs = []) (hr : s.regionsKept)
    (hsrc : s.src = 0) (hcursor : s.cursor part fl = a) (hb : b ≤ s.pixelCount)
    (hwords : wordsAt s s.srcBase.toNat (encodeWords pix fl a b part)) (hpayload : s.payload = encLen pix a b) :
    ∃ k u, steps k s = .next u ∧ SpanDecoded pix a b s u := by
  refine (encodeWords_streamFrom pix fl a b part).decodes ⟨hp, hin, hr, hcursor, hb, ?_, ?_⟩
  · rwa [hsrc, State.srcAddr, Nat.add_zero]
  · rw [hsrc, hpayload, Nat.zero_add, encodeWords_length]

/-! ### The statements -/

/-- Settles O33: by induction on the records of the stream, from pixel 0. -/
theorem decodeInvertsEncode : Obligations.DecodeInvertsEncode := by
  intro s pix hp hin hr hsrc hdst hwords hpayload
  obtain ⟨k, u, hrun, hu⟩ := decode_encodeWords hp hin hr hsrc (part := false) hdst le_rfl hwords hpayload
  exact ⟨k, u, hrun, hu.completed, fun p hlt => hu.dstPix (Nat.zero_le _) hlt, hu.kept, hu.registers⟩

/-- Settles O34: by induction on the records of the stream, the first of which sets the cursor to the band's first pixel. -/
theorem decodeInvertsEncodePartial : Obligations.DecodeInvertsEncodePartial := by
  intro s pix fl lc hp hin hr hsrc _ hlines hwords hpayload
  have hb : s.lineStart (fl.toNat + lc) ≤ s.pixelCount := by
    rw [State.lineStart, State.pixelCount, Nat.mul_comm s.width.toNat]
    exact Nat.mul_le_mul_right _ hlines
  have hlen : s.lineStart (fl.toNat + lc) - s.lineStart fl.toNat = lc * s.width.toNat := by
    rw [State.lineStart, State.lineStart, Nat.add_mul, Nat.add_sub_cancel_left]
  obtain ⟨k, u, hrun, hu⟩ := decode_encodeWords hp hin hr hsrc (part := true) rfl hb hwords hpayload
  exact ⟨k, u, hrun, hu.completed, fun p hlo hhi => hu.dstPix hlo hhi, hlen ▸ hu.kept, hu.registers⟩

end Sys2Proof.Machine
end

section
/-! PROOFS. The decoder: what each record does and leaves alone, what a turn of a running DECODE can do, that it reads its stream
alone and that it comes to an end (42_decoder R180 to R195). -/

namespace Sys2Proof.Machine

variable {s t : State} {m : Memory} {w : Word} {i : Instr} {code : ResultCode} {r : Answer} {count n : Nat}

/-! ### Completions (42_decoder R190; 60_exceptions R224) -/

/-- The completion event touches nothing that `completesOnly` speaks of but STATUS, RESULT and the unseen completions. -/
theorem completesOnly_of_complete (h : r = .next (s.complete code)) : completesOnly code s r :=
  ⟨s.complete code, h, ⟨rfl, rfl, rfl, rfl⟩,
    ⟨rfl, rfl, rfl, rfl, rfl, rfl, rfl, rfl, rfl, rfl, rfl, rfl, rfl, rfl, rfl⟩, rfl,
    ⟨rfl, rfl, rfl, rfl, rfl, rfl, rfl⟩, rfl, ⟨rfl, rfl, rfl, rfl, rfl, rfl⟩⟩

theorem exec_reservedKind {g : BitVec 28}
    (h : i ∈ [.reservedKind0 g, .reservedKind5 g, .reservedKind6 g, .reservedKind7 g, .reservedKind8 g, .reservedKind9 g,
      .reservedKindA g, .reservedKindB g, .reservedKindC g, .reservedKindD g, .reservedKindE g]) :
    exec i s = .next (s.complete .unknownCode) := by
  revert i
  simp only [List.forall_mem_cons]
  exact ⟨rfl, rfl, rfl, rfl, rfl, rfl, rfl, rfl, rfl, rfl, rfl, List.forall_mem_nil _⟩

/-! ### Where a record reads and writes (20_memory R72, R78, R79) -/

/-- The regions of a running DECODE are its stream and its frame. -/
theorem decoding_regionsKept (hp : s.phase = .busy .decode) (hr : s.regionsKept) :
    regionsInRange s.streamSource s.frameDest = true ∧ s.streamSource.overlaps s.frameDest = false := by
  simpa only [State.regionsKept, State.activeSource, State.activeDest, hp, State.sourceOf, State.destOf] using hr

/-- A payload inside the stream stays inside the space. -/
theorem spanFits_payload (hr : regionsInRange s.streamSource s.frameDest = true) (hp : s.src + 4 * n ≤ s.payload) :
    spanFits (s.srcAddr s.src) n = true := by
  rw [regionsInRange, Bool.and_eq_true, Region.inSpace_iff] at hr
  have hspace : s.srcBase.toNat + s.payload ≤ Config.addressSpace := hr.1
  rw [spanFits_iff, State.srcAddr]
  omega

/-- Pixels inside the frame stay inside the space. -/
theorem spanFits_pixels (hr : regionsInRange s.streamSource s.frameDest = true) (hd : s.dst + n ≤ s.pixelCount) :
    spanFits (s.dstAddr (4 * s.dst)) n = true := by
  rw [regionsInRange, Bool.and_eq_true, Region.inSpace_iff, Region.inSpace_iff] at hr
  have hspace : s.dstBase.toNat + 4 * s.pixelCount ≤ Config.addressSpace := hr.2
  rw [spanFits_iff, State.dstAddr]
  omega

/-- A literal's payload and its pixels lie apart. -/
theorem payload_apart_from_pixels (ho : s.streamSource.overlaps s.frameDest = false) (hd : s.dst + n ≤ s.pixelCount)
    (hp : s.src + 4 * n ≤ s.payload) :
    s.srcAddr s.src + 4 * n ≤ s.dstAddr (4 * s.dst) ∨ s.dstAddr (4 * s.dst) + 4 * n ≤ s.srcAddr s.src := by
  rw [Region.overlaps_eq_false] at ho
  simp only [State.streamSource, State.frameDest, State.frameBytes] at ho
  rw [State.srcAddr, State.dstAddr]
  omega

/-! ### Literal and run records (42_decoder R185 to R188) -/

/-- Another memory and other cursors are all a record that goes on leaves behind. -/
theorem recordFrame_written (s : State) (m : Memory) (src dst : Nat) :
    recordFrame s { s with mem := m, src := src, dst := dst } :=
  ⟨⟨rfl, rfl, rfl, rfl, rfl, rfl, rfl, rfl, rfl, rfl, rfl, rfl, rfl, rfl, rfl⟩, ⟨rfl, rfl, rfl, rfl⟩,
    ⟨rfl, rfl, rfl, rfl, rfl, rfl, rfl⟩, rfl, rfl, rfl, rfl, ⟨rfl, rfl, rfl, rfl, rfl, rfl⟩⟩

theorem memoryKeptOutside_copied (s : State) (n : Nat) : memoryKeptOutside (s.dstAddr (4 * s.dst)) (4 * n) s (s.copied n) :=
  fun _ hc => Memory.read_copyWords_outside _ hc

theorem memoryKeptOutside_filled (s : State) (n : Nat) : memoryKeptOutside (s.dstAddr (4 * s.dst)) (4 * n) s (s.filled n) :=
  fun _ hc => Memory.read_fillWords_outside _ _ hc

/-- Pixel dst + q stands q words behind pixel dst. -/
theorem State.dstAddr_pixel_add (s : State) (d q : Nat) : s.dstAddr (4 * (d + q)) = s.dstAddr (4 * d) + 4 * q := by
  rw [State.dstAddr, State.dstAddr, Nat.mul_add, Nat.add_assoc]

theorem dstPix_copied (ho : s.streamSource.overlaps s.frameDest = false) (hd : s.dst + n ≤ s.pixelCount)
    (hp : s.src + 4 * n ≤ s.payload) {q : Nat} (hq : q < n) :
    (s.copied n).dstPix (s.dst + q) = s.srcWord (s.src + 4 * q) := by
  rw [State.dstPix, State.copied_dstAddr, s.dstAddr_pixel_add]
  refine (Memory.read32_copyWords _ _ _ _ _ hq (payload_apart_from_pixels ho hd hp)).trans ?_
  rw [State.srcWord, State.srcAddr, State.srcAddr, Nat.add_assoc]

theorem dstPix_filled (s : State) {q : Nat} (hq : q < n) : (s.filled n).dstPix (s.dst + q) = s.srcWord s.src := by
  rw [State.dstPix, State.filled_dstAddr, s.dstAddr_pixel_add]
  exact Memory.read32_fillWords _ _ _ _ _ hq

/-- A literal record: its checks in their order, then the copy (42_decoder R185). -/
theorem literalRecord_checks_then_copies (count : Nat) (s : State) :
    if s.pixelCount < s.dst + count then completesOnly .destinationOverrun s (literalRecord count s)
    else if s.payload < s.src + 4 * count then completesOnly .sourceOverrun s (literalRecord count s)
    else regionsInRange s.streamSource s.frameDest = true → literalRecord count s = .next (s.copied count) := by
  split
  · next hd => exact completesOnly_of_complete (literalRecord_destination hd)
  next hd =>
  have hd := Nat.not_lt.1 hd
  split
  · next hp => exact completesOnly_of_complete (literalRecord_source hd hp)
  next hp =>
  have hp := Nat.not_lt.1 hp
  exact fun hr => literalRecord_copies hd hp (spanFits_payload hr hp) (spanFits_pixels hr hd)

/-- A run record: its checks in their order, then the fill (42_decoder R187). -/
theorem runRecord_checks_then_fills (count : Nat) (s : State) :
    if s.pixelCount < s.dst + count then completesOnly .destinationOverrun s (runRecord count s)
    else if s.payload < s.src + 4 then completesOnly .sourceOverrun s (runRecord count s)
    else regionsInRange s.streamSource s.frameDest = true → runRecord count s = .next (s.filled count) := by
  split
  · next hd => exact completesOnly_of_complete (runRecord_destination hd)
  next hd =>
  have hd := Nat.not_lt.1 hd
  split
  · next hp => exact completesOnly_of_complete (runRecord_source hd hp)
  next hp =>
  have hp := Nat.not_lt.1 hp
  exact fun hr => runRecord_fills hd hp (spanFits_payload (n := 1) hr hp) (spanFits_pixels hr hd)

/-- What a literal or run record of `count` pixels run from s leaves alone, completed or not (42_decoder R185, R187, R190). -/
def RecordKept (count : Nat) (s t : State) : Prop :=
  memoryKeptOutside (s.dstAddr (4 * s.dst)) (4 * count) s t ∧ sameRegisters s t ∧ sameEncoder s t ∧ sameOutside s t ∧
    (sameStatus s t ∧ sameUnseen s t ∨
      (completedWith .destinationOverrun s t ∨ completedWith .sourceOverrun s t) ∧ t.mem = s.mem ∧ addsUnseen s t)

theorem RecordKept.of_recordFrame (hm : memoryKeptOutside (s.dstAddr (4 * s.dst)) (4 * count) s t) (h : recordFrame s t) :
    RecordKept count s t := by
  obtain ⟨hregisters, hstatus, hencoder, -, -, -, hunseen, houtside⟩ := h
  exact ⟨hm, hregisters, hencoder, houtside, .inl ⟨hstatus, hunseen⟩⟩

theorem RecordKept.of_complete (count : Nat) (s : State) (hcode : code = .destinationOverrun ∨ code = .sourceOverrun) :
    RecordKept count s (s.complete code) := by
  obtain ⟨_, ht, hcompleted, hregisters, hmem, hencoder, hunseen, houtside⟩ :=
    completesOnly_of_complete (s := s) (code := code) rfl
  cases ht
  refine ⟨fun _ _ => rfl, hregisters, hencoder, houtside, .inr ⟨?_, hmem, hunseen⟩⟩
  rcases hcode with rfl | rfl
  · exact .inl hcompleted
  · exact .inr hcompleted

theorem literalRecord_kept (h : literalRecord count s = .next t) : RecordKept count s t := by
  rcases literalRecord_next h with ⟨-, rfl⟩ | ⟨-, -, rfl⟩ | ⟨-, -, -, -, rfl⟩
  · exact .of_complete count s (.inl rfl)
  · exact .of_complete count s (.inr rfl)
  · exact .of_recordFrame (memoryKeptOutside_copied s count) (recordFrame_written s _ _ _)

theorem runRecord_kept (h : runRecord count s = .next t) : RecordKept count s t := by
  rcases runRecord_next h with ⟨-, rfl⟩ | ⟨-, -, rfl⟩ | ⟨-, -, -, -, rfl⟩
  · exact .of_complete count s (.inl rfl)
  · exact .of_complete count s (.inr rfl)
  · exact .of_recordFrame (memoryKeptOutside_filled s count) (recordFrame_written s _ _ _)

/-! ### The record of a control word by its KIND (42_decoder R183) -/

/-- The pixel index the record of a control word starts at: its start line's, or the cursor. -/
def State.recordCursor (s : State) (w : Word) : Nat :=
  if kindOf w = 0x2 ∨ kindOf w = 0x4 then (lineOf w).toNat * s.width.toNat else s.dst

theorem exec_literalKind (h : kindOf w = 0x1 ∨ kindOf w = 0x2) (s : State) :
    exec (decodeRecord w) s = literalRecord (countOf w).toNat { s with dst := s.recordCursor w } := by
  rcases h with h | h
  · simp [decodeRecord_kind1 h, State.recordCursor, h, exec, execLit]
  · simp [decodeRecord_kind2 h, State.recordCursor, h, exec, execLitWsl, State.repositioned, State.lineStart]

theorem exec_runKind (h : kindOf w = 0x3 ∨ kindOf w = 0x4) (s : State) :
    exec (decodeRecord w) s = runRecord (countOf w).toNat { s with dst := s.recordCursor w } := by
  rcases h with h | h
  · simp [decodeRecord_kind3 h, State.recordCursor, h, exec, execRun]
  · simp [decodeRecord_kind4 h, State.recordCursor, h, exec, execRunWsl, State.repositioned, State.lineStart]

theorem exec_eosKind (h : kindOf w = 0xF) (s : State) : exec (decodeRecord w) s = .next (s.complete .success) := by
  rw [decodeRecord_kindF h]
  rfl

/-- The eleven other kinds are the reserved ones (42_decoder R189). -/
theorem exec_otherKind (h : kindOf w ∉ [0x1, 0x2, 0x3, 0x4, 0xF]) (s : State) :
    exec (decodeRecord w) s = .next (s.complete .unknownCode) := by
  have hkind := kind_cases (kindOf w)
  simp only [List.mem_cons, List.not_mem_nil, or_false, not_or] at h
  simp only [h, false_or, or_false] at hkind
  rcases hkind with h | h | h | h | h | h | h | h | h | h | h <;>
    · rw [decodeRecord, h]
      rfl

/-! ### A turn of a running DECODE (42_decoder R182, R191) -/

/-- A record whose checks end in a completion, or past them in a next state, answers. -/
theorem answers_of_checks {p q c : Prop} [Decidable p] [Decidable q] {code' : ResultCode}
    (h : if p then completesOnly code s r else if q then completesOnly code' s r else c → r = .next t) (hc : c) :
    ∃ t, r = .next t := by
  split_ifs at h
  · exact h.imp fun _ h => h.1
  · exact h.imp fun _ h => h.1
  · exact ⟨t, h hc⟩

/-- Every record answers when its regions lie in the space: only an access past 2^32 stops one (42_decoder R192; log 10). -/
theorem exec_record_answers (hl : i.lang = .record) (hr : regionsInRange s.streamSource s.frameDest = true) :
    ∃ t, exec i s = .next t := by
  cases i with
  | lit g n => exact answers_of_checks (literalRecord_checks_then_copies n s) hr
  | litWsl l n => exact answers_of_checks (literalRecord_checks_then_copies n (s.repositioned l)) hr
  | run g n => exact answers_of_checks (runRecord_checks_then_fills n s) hr
  | runWsl l n => exact answers_of_checks (runRecord_checks_then_fills n (s.repositioned l)) hr
  | eos | reservedKind0 | reservedKind5 | reservedKind6 | reservedKind7 | reservedKind8 | reservedKind9
  | reservedKindA | reservedKindB | reservedKindC | reservedKindD | reservedKindE => exact ⟨_, rfl⟩
  | hdrInit | encode | encodePartial | decode | reservedCmd0 | reservedCmd5 | reservedCmd6 | reservedCmd7 => cases hl

theorem decodeTurn_answers (hr : regionsInRange s.streamSource s.frameDest = true) : ∃ t, decodeTurn s = .next t := by
  rcases Nat.lt_or_ge s.payload (s.src + 4) with hp | hp
  · exact ⟨_, decodeTurn_overrun hp⟩
  · rw [decodeTurn_record hp (spanFits_payload (n := 1) hr hp)]
    exact exec_record_answers (s := s.fetched) (decodeRecord_lang _) hr

/-- What a turn of a running DECODE leaves: a completion and nothing else, or n pixels of the frame written from pixel d on, with
src moved on inside the stream. -/
inductive DecodeTurnOutcome (s t : State) : Prop where
  | completed (code : ResultCode) (h : completesOnly code s (.next t))
  | advanced (m : Memory) (src d n : Nat) (hsrc : s.src + 4 ≤ src) (hpayload : src ≤ s.payload)
      (hframe : d + n ≤ s.pixelCount) (hm : memoryKeptOutside (s.dstAddr (4 * d)) (4 * n) s (s.withMemory m))
      (ht : t = s.afterRecord m src (d + n))

/-- A record runs from s or from s with the cursor moved. -/
theorem exists_cursor_of_repositioned {u : State} (hu : u = s ∨ ∃ line, u = s.repositioned line) :
    ∃ d, u = { s with dst := d } := by
  rcases hu with rfl | ⟨line, rfl⟩
  · exact ⟨_, rfl⟩
  · exact ⟨_, rfl⟩

/-- A turn that answers completed the DECODE or ran a record behind the fetch. -/
theorem decodeTurn_outcome (h : decodeTurn s = .next t) : DecodeTurnOutcome s t := by
  rcases decodeTurn_next h with ⟨_, rfl⟩ | ⟨hfetch, _, hx⟩
  · exact .completed _ (completesOnly_of_complete rfl)
  cases exec_record_next (decodeRecord_lang _) hx with
  | completed u code hu ht =>
    obtain ⟨d, rfl⟩ := exists_cursor_of_repositioned hu
    exact ht ▸ .completed code (completesOnly_of_complete (s := { s.fetched with dst := d }) rfl)
  | copied u n hu hd hp _ _ ht =>
    obtain ⟨d, rfl⟩ := exists_cursor_of_repositioned hu
    exact ht ▸ .advanced _ _ d n (Nat.le_add_right _ _) hp hd (memoryKeptOutside_copied { s.fetched with dst := d } n) rfl
  | filled u n hu hd hp _ _ ht =>
    obtain ⟨d, rfl⟩ := exists_cursor_of_repositioned hu
    exact ht ▸ .advanced _ _ d n (Nat.le_add_right _ _) hp hd (memoryKeptOutside_filled { s.fetched with dst := d } n) rfl

/-- Every pixel of the frame lies in the frame's bytes at DST_BASE. -/
theorem memoryKeptOutside_frame {d : Nat} (hd : d + n ≤ s.pixelCount)
    (hm : memoryKeptOutside (s.dstAddr (4 * d)) (4 * n) s t) : memoryKeptOutside s.dstBase.toNat s.frameBytes s t := by
  refine fun addr h => hm addr ?_
  rw [State.frameBytes] at h
  rw [State.dstAddr]
  omega

theorem decodeTurn_memoryKept (h : decodeTurn s = .next t) : memoryKeptOutside s.dstBase.toNat s.frameBytes s t := by
  cases decodeTurn_outcome h with
  | completed code h =>
    obtain ⟨_, ht, -, -, hmem, -⟩ := h
    cases ht
    exact fun _ _ => by rw [hmem]
  | advanced m src d n _ _ hframe hm ht =>
    subst ht
    exact memoryKeptOutside_frame hframe hm

/-! ### The end of a DECODE (42_decoder R191, R192; 60_exceptions R237) -/

/-- u is s after its DECODE completed, with whatever code: no register changed but STATUS and RESULT, and no byte outside the
frame. -/
structure DecodeEnded (s u : State) : Prop where
  phase : u.phase = .idle
  done : u.done = true
  unseen : addsUnseen s u
  registers : sameRegisters s u
  kept : memoryKeptOutside s.dstBase.toNat s.frameBytes s u

theorem DecodeEnded.of_completesOnly (h : completesOnly code s (.next t)) : DecodeEnded s t := by
  obtain ⟨_, ht, ⟨hphase, hdone, -⟩, hregisters, hmem, -, hunseen, -⟩ := h
  cases ht
  exact ⟨hphase, hdone, hunseen, hregisters, fun _ _ => by rw [hmem]⟩

/-- A record that wrote only pixels of the frame leaves the rest of the run to the records after it. -/
theorem DecodeEnded.after_record {u : State} {src dst : Nat} (h : DecodeEnded (s.afterRecord m src dst) u)
    (hm : memoryKeptOutside s.dstBase.toNat s.frameBytes s (s.withMemory m)) : DecodeEnded s u :=
  ⟨h.phase, h.done, h.unseen, h.registers, fun addr ha => (h.kept addr ha).trans (hm addr ha)⟩

/-- A running DECODE completes: every record takes at least the four bytes of its control word from what is left of the stream. -/
theorem decode_ends (h : s.Inv) (hp : s.phase = .busy .decode) (hin : s.inputs = []) :
    ∃ n u, n ≤ (s.payload - s.src) / 4 + 1 ∧ steps n s = .next u ∧ DecodeEnded s u := by
  induction hleft : s.payload - s.src using Nat.strong_induction_on generalizing s with
  | _ left ih =>
    obtain ⟨t, ht⟩ := decodeTurn_answers (decoding_regionsKept hp h.regions).1
    have hstep : step s = .next t := by rw [step_engine hin, engineTurn_decode hp, ht]
    cases decodeTurn_outcome ht with
    | completed code hc =>
      refine ⟨1, t, Nat.le_add_left _ _, ?_, .of_completesOnly hc⟩
      rw [steps_succ, hstep, andThen_next, steps_zero]
    | advanced m src d n hsrc hpayload hframe hm htm =>
      subst htm
      have hless : s.payload - src < left := by omega
      obtain ⟨k, u, hk, hrun, hu⟩ := ih _ hless (decodeTurn_keeps_inv h hp ht) hp hin rfl
      refine ⟨k + 1, u, by omega, ?_, hu.after_record (memoryKeptOutside_frame hframe hm)⟩
      rw [steps_succ, hstep, andThen_next, hrun]

/-! ### What a DECODE reads (42_decoder R191, R193) -/

@[simp] theorem State.withMemory_src (s : State) (m : Memory) : (s.withMemory m).src = s.src := rfl

/-- The n words that stand in memory from an address upward. -/
def Memory.wordsFrom (m : Memory) (addr n : Nat) : List Word := pixelsFrom (fun q => m.read32 (addr + 4 * q)) 0 n

theorem Memory.wordsFrom_congr {m m' : Memory} {addr : Nat} (h : ∀ q < n, m'.read32 (addr + 4 * q) = m.read32 (addr + 4 * q)) :
    m'.wordsFrom addr n = m.wordsFrom addr n := by
  refine List.map_congr_left fun q hq => ?_
  rw [Nat.zero_add]
  exact h q (List.mem_range.1 hq)

theorem Memory.wordsFrom_succ (m : Memory) (addr n : Nat) :
    m.wordsFrom addr (n + 1) = m.read32 addr :: m.wordsFrom (addr + 4) n := by
  simp [Memory.wordsFrom, pixelsFrom, List.range_succ_eq_map, Nat.mul_add, Nat.add_assoc, Nat.add_comm 4]

/-- A copy to a place apart from its source is a write of the source's words. -/
theorem Memory.copyWords_eq_writeWords (m : Memory) {source dest n : Nat}
    (h : source + 4 * n ≤ dest ∨ dest + 4 * n ≤ source) :
    m.copyWords source dest n = m.writeWords dest (m.wordsFrom source n) := by
  induction n generalizing m source dest with
  | zero => rfl
  | succ n ih =>
    rw [Memory.copyWords, ih _ (by omega), Memory.wordsFrom_succ, Memory.writeWords]
    refine congrArg _ (Memory.wordsFrom_congr fun q hq => ?_)
    exact Memory.read32_write32_ne _ _ (by omega)

/-- A fill is a write of the same word again and again. -/
theorem Memory.fillWords_eq_writeWords (m : Memory) (dest : Nat) (w : Word) (n : Nat) :
    m.fillWords dest w n = m.writeWords dest (List.replicate n w) := by
  induction n generalizing m dest with
  | zero => rfl
  | succ n ih => exact ih _ _

/-- Another memory holds the same bytes in the stream. -/
def StreamAgrees (s : State) (m : Memory) : Prop :=
  ∀ addr, s.streamSource.contains addr = true → m.read addr = s.mem.read addr

theorem StreamAgrees.read32 (h : StreamAgrees s m) {off : Nat} (hp : off + 4 ≤ s.payload) :
    m.read32 (s.srcAddr off) = s.srcWord off := by
  refine Memory.read32_congr fun c hc hc' => h c ?_
  rw [State.srcAddr] at hc hc'
  rw [Region.contains, decide_eq_true_eq]
  simp only [State.streamSource]
  omega

theorem StreamAgrees.wordsFrom (h : StreamAgrees s m) (hp : s.src + 4 * n ≤ s.payload) :
    m.wordsFrom (s.srcAddr s.src) n = s.mem.wordsFrom (s.srcAddr s.src) n := by
  refine Memory.wordsFrom_congr fun q hq => ?_
  rw [State.srcAddr, Nat.add_assoc]
  exact h.read32 (off := s.src + 4 * q) (by omega)

/-- t is s with some words written, and the answer r is t over the memory m with the same words written at the same place. -/
def WritesAlike (m : Memory) (s t : State) (r : Answer) : Prop :=
  ∃ addr ws, t.mem = s.mem.writeWords addr ws ∧ r = .next (t.withMemory (m.writeWords addr ws))

theorem WritesAlike.of_complete (s : State) (m : Memory) (code : ResultCode) :
    WritesAlike m s (s.complete code) (.next ((s.withMemory m).complete code)) :=
  ⟨0, [], rfl, rfl⟩

/-- Each byte is written alike in both memories or in neither. -/
theorem WritesAlike.bytes (h : WritesAlike m s t r) :
    ∃ t', r = .next t' ∧ { t' with mem := t.mem } = t ∧
      ∀ addr, t'.mem.read addr = t.mem.read addr ∨
        (t.mem.read addr = s.mem.read addr ∧ t'.mem.read addr = m.read addr) := by
  obtain ⟨addr, ws, hmem, hr⟩ := h
  refine ⟨_, hr, rfl, fun c => ?_⟩
  rw [hmem, State.withMemory_mem]
  exact Memory.read_writeWords_alike _ _ _ _ _

theorem literalRecord_withMemory (ho : s.streamSource.overlaps s.frameDest = false) (hm : StreamAgrees s m)
    (ht : literalRecord count s = .next t) : WritesAlike m s t (literalRecord count (s.withMemory m)) := by
  rcases literalRecord_next ht with ⟨hd, rfl⟩ | ⟨hd, hp, rfl⟩ | ⟨hd, hp, hfs, hfd, rfl⟩
  · rw [literalRecord_destination (s := s.withMemory m) hd]
    exact .of_complete s m _
  · rw [literalRecord_source (s := s.withMemory m) hd hp]
    exact .of_complete s m _
  · have hcopy := fun m' : Memory => m'.copyWords_eq_writeWords (payload_apart_from_pixels ho hd hp)
    refine ⟨_, _, hcopy s.mem, (literalRecord_copies (s := s.withMemory m) hd hp hfs hfd).trans ?_⟩
    rw [← hm.wordsFrom hp, ← hcopy m]
    rfl

theorem runRecord_withMemory (hm : StreamAgrees s m) (ht : runRecord count s = .next t) :
    WritesAlike m s t (runRecord count (s.withMemory m)) := by
  rcases runRecord_next ht with ⟨hd, rfl⟩ | ⟨hd, hp, rfl⟩ | ⟨hd, hp, hfs, hfd, rfl⟩
  · rw [runRecord_destination (s := s.withMemory m) hd]
    exact .of_complete s m _
  · rw [runRecord_source (s := s.withMemory m) hd hp]
    exact .of_complete s m _
  · refine ⟨_, _, s.mem.fillWords_eq_writeWords _ _ _, (runRecord_fills (s := s.withMemory m) hd hp hfs hfd).trans ?_⟩
    rw [← m.fillWords_eq_writeWords, ← hm.read32 hp]
    rfl

theorem exec_record_withMemory (hl : i.lang = .record) (ho : s.streamSource.overlaps s.frameDest = false)
    (hm : StreamAgrees s m) (ht : exec i s = .next t) : WritesAlike m s t (exec i (s.withMemory m)) := by
  cases i with
  | lit g n => exact literalRecord_withMemory ho hm ht
  | litWsl l n => exact literalRecord_withMemory (s := s.repositioned l) ho hm ht
  | run g n => exact runRecord_withMemory hm ht
  | runWsl l n => exact runRecord_withMemory (s := s.repositioned l) hm ht
  | eos | reservedKind0 | reservedKind5 | reservedKind6 | reservedKind7 | reservedKind8 | reservedKind9
  | reservedKindA | reservedKindB | reservedKindC | reservedKindD | reservedKindE =>
    cases Host.Outcome.next.inj ht
    exact .of_complete s m _
  | hdrInit | encode | encodePartial | decode | reservedCmd0 | reservedCmd5 | reservedCmd6 | reservedCmd7 => cases hl

/-- A turn fetches the same word and runs the same record over every memory that agrees on the stream. -/
theorem decodeTurn_withMemory (ho : s.streamSource.overlaps s.frameDest = false) (hm : StreamAgrees s m)
    (ht : decodeTurn s = .next t) : WritesAlike m s t (decodeTurn (s.withMemory m)) := by
  rcases decodeTurn_next ht with ⟨hp, rfl⟩ | ⟨hp, hf, hx⟩
  · rw [decodeTurn_overrun (s := s.withMemory m) hp]
    exact .of_complete s m _
  · have hword : (s.withMemory m).srcWord s.src = s.srcWord s.src := hm.read32 hp
    have hfetched : (s.withMemory m).fetched = s.fetched.withMemory m := by
      rw [State.fetched, State.fetched, State.withMemory_src, hword]
      rfl
    rw [decodeTurn_record (s := s.withMemory m) hp hf, hfetched, State.withMemory_src, hword]
    exact exec_record_withMemory (s := s.fetched) (decodeRecord_lang _) ho hm hx

/-! ### The first failing check (42_decoder R195) -/

/-- What two checks in a row report, whatever stands behind them. -/
theorem first_check_of_checks {p q a b c : Prop} [Decidable p] [Decidable q] (h : if p then a else if q then b else c) :
    if p then a else q → b := by
  split at h
  · next hp => rwa [if_pos hp]
  · next hp =>
    rw [if_neg hp]
    exact fun hq => by rwa [if_pos hq] at h

/-! ### The statements -/

/-- Settles O9: the checks in their order, and what the copy leaves. -/
theorem litChecksThenCopies : Obligations.LitChecksThenCopies := by
  intro s g count
  have hchecks := literalRecord_checks_then_copies count s
  split_ifs at hchecks ⊢ with hd hp
  · exact hchecks
  · exact hchecks
  · exact fun hr ho => ⟨s.copied count, hchecks hr, rfl, rfl,
      fun q hq => dstPix_copied ho (Nat.not_lt.1 hd) (Nat.not_lt.1 hp) hq, memoryKeptOutside_copied s count,
      recordFrame_written s _ _ _⟩

/-- Settles O10: LIT_WSL is LIT with the cursor at line * WIDTH. -/
theorem litWslRepositionsThenCopies : Obligations.LitWslRepositionsThenCopies :=
  fun s line count => litChecksThenCopies (s.repositioned line) 0 count

/-- Settles O11: the checks in their order, and what the fill leaves. -/
theorem runChecksThenFills : Obligations.RunChecksThenFills := by
  intro s g count
  have hchecks := runRecord_checks_then_fills count s
  split_ifs at hchecks ⊢
  · exact hchecks
  · exact hchecks
  · exact fun hr => ⟨s.filled count, hchecks hr, rfl, rfl, fun q hq => dstPix_filled s hq, memoryKeptOutside_filled s count,
      recordFrame_written s _ _ _⟩

/-- Settles O12: RUN_WSL is RUN with the cursor at line * WIDTH. -/
theorem runWslRepositionsThenFills : Obligations.RunWslRepositionsThenFills :=
  fun s line count => runChecksThenFills (s.repositioned line) 0 count

/-- Settles O15: both records complete, or write their pixels alone. -/
theorem plainRecordsKeepEverythingElse : Obligations.PlainRecordsKeepEverythingElse := by
  intro s t g count i hi ht
  simp only [List.mem_cons, List.not_mem_nil, or_false] at hi
  rcases hi with rfl | rfl
  · exact literalRecord_kept ht
  · exact runRecord_kept ht

/-- Settles O16: as for LIT and RUN, from the repositioned cursor. -/
theorem startLineRecordsKeepEverythingElse : Obligations.StartLineRecordsKeepEverythingElse := by
  intro s t line count i hi ht
  simp only [List.mem_cons, List.not_mem_nil, or_false] at hi
  rcases hi with rfl | rfl
  · exact literalRecord_kept (s := s.repositioned line) ht
  · exact runRecord_kept (s := s.repositioned line) ht

/-- Settles O18: the fetch comes first, KIND says which record follows, and the record tests its destination before its source. -/
theorem firstFailingCheckIsReported : Obligations.FirstFailingCheckIsReported := by
  intro s hp hin kind count dst need
  rw [step_engine hin, engineTurn_decode hp]
  split
  · next hfetch => exact completesOnly_of_complete (decodeTurn_overrun hfetch)
  next hfetch =>
  intro hspace
  rw [decodeTurn_record (Nat.not_lt.1 hfetch) ((spanFits_iff _ _).2 (.inr hspace))]
  split
  · next hkind => exact completesOnly_of_complete (s := s.fetched) (exec_otherKind hkind _)
  next hkind =>
  split
  · next heos => exact completesOnly_of_complete (s := s.fetched) (exec_eosKind heos _)
  next heos =>
  have hkinds : (kind = 0x1 ∨ kind = 0x2) ∨ kind = 0x3 ∨ kind = 0x4 := by
    simp only [List.mem_cons, List.not_mem_nil, or_false, heos, Decidable.not_not] at hkind
    rwa [or_assoc]
  rcases hkinds with hlit | hrun
  · have hneed : need = 4 * count := if_pos hlit
    rw [exec_literalKind hlit, hneed]
    exact first_check_of_checks (literalRecord_checks_then_copies count { s.fetched with dst := dst })
  · have hneed : need = 4 := if_neg fun hlit => by rcases hrun with h | h <;> simp [kind, h] at hlit
    rw [exec_runKind hrun, hneed]
    exact first_check_of_checks (runRecord_checks_then_fills count { s.fetched with dst := dst })

/-- Settles O19: the frame holds every pixel a record may write. -/
theorem decodeWritesOnlyTheFrame : Obligations.DecodeWritesOnlyTheFrame := by
  intro s t hp hin ht
  rw [step_engine hin, engineTurn_decode hp] at ht
  exact decodeTurn_memoryKept ht

/-- Settles O20: the words a turn reads stand in the stream, and it writes the same words over either memory. -/
theorem decodeReadsOnlyTheStream : Obligations.DecodeReadsOnlyTheStream := by
  intro s t m hp hin hr hm ht
  rw [step_engine hin, engineTurn_decode hp] at ht
  rw [step_engine (s := { s with mem := m }) hin, engineTurn_decode (s := { s with mem := m }) hp]
  exact (decodeTurn_withMemory (decoding_regionsKept hp hr).2 hm ht).bytes

/-- Settles O21: by induction on the bytes of the stream that are left. -/
theorem decodeAlwaysCompletes : Obligations.DecodeAlwaysCompletes := by
  intro s h hp hin
  obtain ⟨n, u, hn, hrun, hu⟩ := decode_ends h hp hin
  have hbound : (s.payload - s.src) / 4 ≤ s.payload / 4 := Nat.div_le_div_right (Nat.sub_le _ _)
  exact ⟨n, u, by omega, hrun, hu.phase, hu.done, hu.unseen, hu.registers, hu.kept⟩

/-- Settles O7: the four bytes at src are the word the fetch loads, and the record is what it decodes to. -/
theorem stepRunsTheFetchedRecord : Obligations.StepRunsTheFetchedRecord := by
  intro s i hp hin hpayload hspace hdecode
  have hi : decodeRecord (s.srcWord s.src) = i := congrArg Prod.fst (Except.ok.inj hdecode)
  rw [step_engine hin, engineTurn_decode hp, decodeTurn_record hpayload ((spanFits_iff _ _).2 (.inr hspace)), hi]
  rfl

/-- Settles O13: EOS is the completion event with 0. -/
theorem eosFinishesWithSuccess : Obligations.EosFinishesWithSuccess :=
  fun _ _ => completesOnly_of_complete rfl

/-- Settles O14: every reserved kind is the completion event with -1. -/
theorem reservedKindsRaiseUnknownCode : Obligations.ReservedKindsRaiseUnknownCode :=
  fun _ _ _ hi => completesOnly_of_complete (exec_reservedKind hi)

/-- Settles O17: with ready regions nothing is refused, so an idle block accepts the command. -/
theorem decodeStartsAtTheStream : Obligations.DecodeStartsAtTheStream := by
  intro s g hidle hready
  exact (congrArg (command · _ s) (State.regionRefusal_ready hready)).trans (command_accepted (State.busy_eq_false.2 hidle))

end Sys2Proof.Machine
end

section
/-! PROOFS. Refusals, the interrupt, the cycle of a completion and the end of every accepted operation: which precondition a refusal
names, what a completion sets, and that the engine neither stops nor runs for ever (60_exceptions R224 to R238). -/

namespace Sys2Proof.Machine

variable {s t u : State} {r : Refusal} {source dest : Region} {rest : List Input} {w : Word} {i : Instr} {who : Nat} {c : Claim}

/-! ### The reason a refusal names (60_exceptions R238; log 12) -/

theorem State.regionsFail_of_regionRefusal (h : s.regionRefusal source dest = some r) : s.regionsFail source dest r := by
  unfold State.regionRefusal at h
  split at h
  · rename_i hrange
    cases h
    show regionsInRange source dest = false
    simpa using hrange
  split at h
  · rename_i hoverlap
    cases h
    exact hoverlap
  split at h
  · rename_i hdevice
    cases h
    exact (Bool.or_eq_true_iff ..).1 hdevice
  split at h
  · rename_i hrace
    cases h
    exact hrace
  · cases h

/-- Regions that are refused nothing have no failing precondition. -/
theorem State.not_regionsFail (h : s.regionRefusal source dest = none) : ¬s.regionsFail source dest r := by
  obtain ⟨hrange, hoverlap, hsource, hdest, hrace⟩ := State.regionRefusal_none h
  cases r <;> simp [State.regionsFail, hrange, hoverlap, hsource, hdest, hrace]

theorem State.capacityRefusal_some {a b : Nat} (h : s.capacityRefusal a b = some r) :
    r = .capacity ∧ s.dstCap.toNat < encLen s.pix a b := by
  unfold State.capacityRefusal at h
  split at h
  · rename_i hroom
    exact ⟨(Option.some.inj h).symm, hroom⟩
  · cases h

/-- CAPACITY is no failure of the regions (20_memory R78, R79, R89). -/
theorem State.encodeFails_iff :
    s.encodeFails r ↔
      r = .capacity ∧ s.dstCap.toNat < encLen s.pix 0 s.pixelCount ∨ s.regionsFail s.frameSource s.streamDest r := by
  cases r <;> simp [State.encodeFails, State.regionsFail]

theorem State.encodeFails_of_encodeRefusal (h : s.encodeRefusal = some r) : s.encodeFails r := by
  unfold State.encodeRefusal at h
  split at h
  · rename_i hregions
    cases h
    exact State.encodeFails_iff.2 (.inr (State.regionsFail_of_regionRefusal hregions))
  · exact State.encodeFails_iff.2 (.inl (State.capacityRefusal_some h))

theorem State.not_encodeFails (h : s.encodeRefusal = none) : ¬s.encodeFails r := by
  obtain ⟨hregions, hroom⟩ := State.encodeRefusal_none h
  rw [State.encodeFails_iff]
  rintro (⟨-, hcapacity⟩ | hfails)
  · exact hcapacity.not_ge hroom
  · exact State.not_regionsFail hregions hfails

/-- The band of a frame in range is in range, so RANGE is never the band's own (20_memory R78; log 7). -/
theorem State.band_inRange (hlines : s.firstLine + s.lineCount ≤ s.height.toNat)
    (h : regionsInRange s.frameSource s.streamDest = true) :
    regionsInRange (s.pixelSource s.bandStart s.bandEnd) s.streamDest = true := by
  rw [regionsInRange, Bool.and_eq_true, Region.inSpace_iff] at h ⊢
  have hstart := bandStart_le_bandEnd s
  have hend := bandEnd_le_pixelCount hlines
  simp only [State.frameSource, State.frameBytes, State.pixelSource, State.srcAddr] at h ⊢
  exact ⟨by omega, h.2⟩

/-- RANGE of an ENCODE_PARTIAL is that of its lines and of the whole frame (41_encoder R150; log 7). -/
theorem State.encodePartialFails_iff :
    s.encodePartialFails r ↔
      r = .capacity ∧ s.dstCap.toNat < encLen s.pix s.bandStart s.bandEnd ∨
      r = .range ∧ (s.height.toNat < s.firstLine + s.lineCount ∨ regionsInRange s.frameSource s.streamDest = false) ∨
      r ≠ .range ∧ s.regionsFail (s.pixelSource s.bandStart s.bandEnd) s.streamDest r := by
  cases r <;> simp [State.encodePartialFails, State.regionsFail]

theorem State.encodePartialFails_of_encodePartialRefusal (h : s.encodePartialRefusal = some r) : s.encodePartialFails r := by
  rw [State.encodePartialFails_iff]
  unfold State.encodePartialRefusal at h
  split at h
  · rename_i hlines
    exact .inr (.inl ⟨(Option.some.inj h).symm, .inl hlines⟩)
  rename_i hlines
  split at h
  · rename_i hframe
    exact .inr (.inl ⟨(Option.some.inj h).symm, .inr (by simpa using hframe)⟩)
  rename_i hframe
  split at h
  · rename_i hregions
    cases h
    have hfails := State.regionsFail_of_regionRefusal hregions
    refine .inr (.inr ⟨?_, hfails⟩)
    rintro rfl
    have hout : regionsInRange (s.pixelSource s.bandStart s.bandEnd) s.streamDest = false := hfails
    exact Bool.false_ne_true (hout.symm.trans (State.band_inRange (Nat.not_lt.1 hlines) (by simpa using hframe)))
  · exact .inl (State.capacityRefusal_some h)

theorem State.not_encodePartialFails (h : s.encodePartialRefusal = none) : ¬s.encodePartialFails r := by
  obtain ⟨hlines, hframe, hregions, hroom⟩ := State.encodePartialRefusal_none h
  rw [State.encodePartialFails_iff]
  rintro (⟨-, hcapacity⟩ | ⟨-, hpast | hout⟩ | ⟨-, hfails⟩)
  · exact hcapacity.not_ge hroom
  · exact hpast.not_ge hlines
  · exact Bool.false_ne_true (hout.symm.trans hframe)
  · exact State.not_regionsFail hregions hfails

/-- A command whose refusals are its failing preconditions is refused by one of them, in IDLE. -/
theorem command_refused_of_fails {fails : Refusal → Prop} {refusal : Option Refusal} (hidle : s.phase = .idle)
    (hsome : ∀ r, refusal = some r → fails r) (hnone : refusal = none → ∀ r, ¬fails r) (h : ∃ r, fails r) :
    ∃ r, fails r ∧ command refusal u s = .refused r := by
  cases hr : refusal with
  | none =>
    obtain ⟨r, hfails⟩ := h
    exact absurd hfails (hnone hr r)
  | some r => exact ⟨r, hsome r hr, command_refused (State.busy_eq_false.2 hidle)⟩

/-! ### What the engine's move does to DONE and DONE_IE (60_exceptions R224, R230) -/

/-- The engine leaves DONE_IE to the host (10_state R39). -/
theorem engineTurn_doneIe (ht : engineTurn s = .next t) : t.doneIe = s.doneIe := by
  cases hp : s.phase with
  | idle =>
    rw [engineTurn_idle hp] at ht
    cases ht
    rfl
  | busy op =>
    have hencode (he : s.encoding) : t.doneIe = s.doneIe := by
      obtain ⟨-, -, -, ⟨-, rfl⟩ | ⟨-, rfl⟩⟩ := encodeTurn_next (engineTurn_encoding he ▸ ht) <;> rfl
    cases op with
    | hdrInit =>
      rw [engineTurn_hdrInit hp] at ht
      cases ht
      rfl
    | encode => exact hencode (.inl hp)
    | encodePartial => exact hencode (.inr hp)
    | decode =>
      cases decodeTurn_outcome (engineTurn_decode hp ▸ ht) with
      | completed code h =>
        obtain ⟨_, ht, -, hregisters, -⟩ := h
        cases ht
        exact hregisters.1
      | advanced m src d n _ _ _ _ ht =>
        subst ht
        rfl

/-- A move of a busy engine that leads to IDLE is a completion: it sets DONE, whatever DONE held. -/
theorem engineTurn_done (hb : s.busy = true) (ht : engineTurn s = .next t) (hidle : t.busy = false) : t.done = true := by
  have hsame : engineTurn s = .next (t.afterMove s.done s.cmdErr) := engineTurn_withFlags (d := s.done) (c := s.cmdErr) hb ht
  rw [Host.Outcome.next.inj (ht.symm.trans hsame)]
  simp [State.afterMove, hidle]

theorem State.irq_eq_true (s : State) : s.irq = true ↔ s.done = true ∧ s.doneIe = true := Bool.and_eq_true_iff

/-- Without an interrupt there is none to take (log 3). -/
theorem interruptTaken_none (h : s.irq = false) : interruptTaken s = .next s := by
  simp [interruptTaken, h]

/-! ### A command in the engine's cycle (60_exceptions R228; log 11) -/

theorem step_sameCycle_writeCtrl_engineFirst (hin : s.inputs = .sameCycle (.regWrite 0x000 4 w) true :: rest) :
    step s = andThen (engineTurn { s with inputs := rest }) (writeCtrl w) := by
  rw [step_sameCycle hin]
  rfl

theorem step_sameCycle_writeCtrl_eventFirst (hin : s.inputs = .sameCycle (.regWrite 0x000 4 w) false :: rest) :
    step s = andThen (writeCtrl w { s with inputs := rest }) engineTurn := by
  rw [step_sameCycle hin]
  rfl

/-! ### An accepted operation runs to its completion (60_exceptions R237) -/

theorem encodeTurn_answers (he : s.encoding) (hr : s.regionsKept) (hk : s.encoderKept) : ∃ t, encodeTurn s = .next t := by
  obtain ⟨hroom, hsource, hdest⟩ := encoding_fits he hr hk
  by_cases hi : s.i < s.b
  · exact ⟨_, encodeTurn_pass hroom hsource hdest hi⟩
  · exact ⟨_, encodeTurn_tail hroom hsource hdest hi⟩

/-- Under the invariant the issue's tests still hold, so no turn's own test stops it (log 10). -/
theorem engineTurn_answers (h : s.Inv) : ∃ t, engineTurn s = .next t := by
  cases hp : s.phase with
  | idle => exact ⟨s, engineTurn_idle hp⟩
  | busy op =>
    cases op with
    | hdrInit => exact ⟨_, engineTurn_hdrInit hp⟩
    | encode => exact engineTurn_encoding (.inl hp) ▸ encodeTurn_answers (.inl hp) h.regions h.encoder
    | encodePartial => exact engineTurn_encoding (.inr hp) ▸ encodeTurn_answers (.inr hp) h.regions h.encoder
    | decode => exact engineTurn_decode hp ▸ decodeTurn_answers (decoding_regionsKept hp h.regions).1

/-! ### Other instances (60_exceptions R227; log 9) -/

theorem claimsClash_iff :
    claimsClash source dest c = true ↔
      c.writes.overlaps source = true ∨ c.writes.overlaps dest = true ∨ c.reads.overlaps dest = true := by
  simp [claimsClash, or_assoc]

theorem otherBegins_noSuchInstance (h : who = 0 ∨ s.instances ≤ who) : otherBegins who c s = .refused .noSuchInstance :=
  if_pos h

section Begins

variable (hwho : ¬(who = 0 ∨ s.instances ≤ who))
include hwho

theorem otherBegins_running (h : ∃ o ∈ s.others, o.who = who) : otherBegins who c s = .next s := by
  have hany : (s.others.any fun o => decide (o.who = who)) = true := by simpa using h
  rw [otherBegins, if_neg hwho, if_pos hany]

theorem otherBegins_race (hnew : ¬∃ o ∈ s.others, o.who = who) (h : claimsClash s.activeSource s.activeDest c = true) :
    otherBegins who c s = .refused .race := by
  have hany : ¬(s.others.any fun o => decide (o.who = who)) = true := by simpa using hnew
  rw [otherBegins, if_neg hwho, if_neg hany, if_pos h]

theorem otherBegins_joins (hnew : ¬∃ o ∈ s.others, o.who = who) (h : ¬claimsClash s.activeSource s.activeDest c = true) :
    otherBegins who c s = .next { s with others := ⟨who, c⟩ :: s.others } := by
  have hany : ¬(s.others.any fun o => decide (o.who = who)) = true := by simpa using hnew
  rw [otherBegins, if_neg hwho, if_neg hany, if_neg h]

end Begins

/-! ### The statements -/

/-- Settles O36: each operation's refusals are its failing preconditions, and an idle block refuses by the one it finds. -/
theorem failedPreconditionsAreRefused : Obligations.FailedPreconditionsAreRefused := fun _ _ hidle =>
  ⟨command_refused_of_fails hidle (fun _ => State.encodeFails_of_encodeRefusal) fun h _ => State.not_encodeFails h,
    command_refused_of_fails hidle (fun _ => State.encodePartialFails_of_encodePartialRefusal)
      fun h _ => State.not_encodePartialFails h,
    command_refused_of_fails hidle (fun _ => State.regionsFail_of_regionRefusal) fun h _ => State.not_regionsFail h⟩

/-- Settles O43: each clause is what its step leaves in DONE or in DONE_IE. -/
theorem interruptFollowsDoneAndEnable : Obligations.InterruptFollowsDoneAndEnable := by
  intro s
  have hirqEn : ∀ rest v, s.inputs = .external (.regWrite 0x00C 4 v) :: rest →
      step s = .next { s with inputs := rest, doneIe := v.getLsbD 0 } :=
    fun rest v hin => step_writeReg (r := .irqEn) hin rfl rfl (by decide)
  refine ⟨s.irq_eq_true, fun rest v hin hv => ?_, fun rest v hin hv => ?_, hirqEn, fun rest hin hirq => ?_,
    fun i t hl hidle ht hbusy => ?_, fun t hbusy hin ht hidle => ?_⟩
  · refine ⟨_, step_writeReg (r := .status) hin rfl rfl (by decide), ?_⟩
    simp [State.irq, State.writeReg, State.writeStatus, hv]
  · refine ⟨_, hirqEn rest v hin, ?_⟩
    rw [State.irq, hv, Bool.and_false]
  · rw [step_external hin]
    exact interruptTaken_none (s := { s with inputs := rest }) hirq
  · obtain ⟨-, -, -, -, -, rfl | ⟨-, -, hdone, -⟩⟩ := commandsKeepRegistersAndMemory s t i hl ht
    · exact absurd (hidle.symm.trans hbusy) (by decide)
    · simp [State.irq, hdone]
  · rw [step_engine hin] at ht
    rw [State.irq, engineTurn_done hbusy ht hidle, engineTurn_doneIe ht, Bool.true_and]

/-- Settles O45: after the completion the word is a command like any other; before it the block is busy and only CMD_ERR moves,
which the engine does not look at. -/
theorem commandAndCompletionMayComeInEitherOrder : Obligations.CommandAndCompletionMayComeInEitherOrder := by
  intro s u rest w i engineFirst hin hbusy hi hu hidle
  cases engineFirst with
  | true =>
    rw [if_pos rfl, step_sameCycle_writeCtrl_engineFirst hin, hu, andThen_next, writeCtrl_command hi]
  | false =>
    have hreject : writeCtrl w { s with inputs := rest } = .next (State.withFlags { s with inputs := rest } s.done true) :=
      (writeCtrl_command hi _).trans (exec_command_busy (decodeCommand_lang hi) hbusy)
    have hmove := engineTurn_withFlags (s := { s with inputs := rest }) (d := s.done) (c := true) hbusy hu
    rw [if_neg Bool.false_ne_true, step_sameCycle_writeCtrl_eventFirst hin, hreject, andThen_next, hmove]
    exact ⟨_, rfl, by simp [State.afterMove, hidle]⟩

/-- Settles O57: with nothing from outside a step is the engine's turn. -/
theorem acceptedOperationsNeverStop : Obligations.AcceptedOperationsNeverStop :=
  fun _ h hin => step_engine hin ▸ engineTurn_answers h

/-- Settles O58: HDR_INIT needs one move, an encode ends with its range and a DECODE with its stream. -/
theorem acceptedOperationsComplete : Obligations.AcceptedOperationsComplete := by
  intro s h hbusy hin
  have hencode (he : s.encoding) : ∃ n u, steps n s = .next u ∧ u.phase = .idle ∧ u.done = true := by
    obtain ⟨n, u, hrun, hu⟩ := encode_completes he hin h.regions h.encoder
    obtain ⟨hphase, hdone, -⟩ := hu.completed
    exact ⟨n, u, hrun, hphase, hdone⟩
  obtain ⟨op, hp⟩ := State.busy_eq_true.1 hbusy
  cases op with
  | hdrInit =>
    refine ⟨1, s.headerInitialised.complete .success, ?_, rfl, rfl⟩
    rw [steps_succ, step_hdrInit hp hin, andThen_next, steps_zero]
  | encode => exact hencode (.inl hp)
  | encodePartial => exact hencode (.inr hp)
  | decode =>
    obtain ⟨n, u, -, hrun, hu⟩ := decode_ends h hp hin
    exact ⟨n, u, hrun, hu.phase, hu.done⟩

/-- Settles O51: the beginning of an operation elsewhere by its four cases, and its end as the list without that number. -/
theorem clashingInstancesRace : Obligations.ClashingInstancesRace := by
  refine ⟨fun s rest who c hin => ?_, fun s rest who hin => ⟨?_, fun habsent => ?_⟩⟩
  · rw [step_external hin]
    split_ifs with hwho hruns hclash
    · exact otherBegins_noSuchInstance (s := { s with inputs := rest }) hwho
    · exact otherBegins_running (s := { s with inputs := rest }) hwho hruns
    · exact otherBegins_race (s := { s with inputs := rest }) hwho hruns (claimsClash_iff.2 hclash)
    · exact otherBegins_joins (s := { s with inputs := rest }) hwho hruns (mt claimsClash_iff.1 hclash)
  · rw [step_external hin]
    rfl
  · rw [step_external hin]
    exact otherEnds_absent (s := { s with inputs := rest }) who habsent

end Sys2Proof.Machine
end

section
/-! PROOFS. Reset, the writes a busy block loses, what a running operation leaves until its completion, and that the engine makes
the same move under every input that lets it move (10_state R56; 60_exceptions R228; 70_reset R250 to R265). -/

namespace Sys2Proof.Machine

variable {s t : State} {e : Event} {i : Instr} {r : Reg} {v : Word}

/-! ### The registers after a reset (70_reset R250) -/

theorem State.reset_readReg (r : Reg) : State.reset.readReg r = 0 := by
  cases r with
  | reserved n => simp [State.readReg, State.reset]
  | _ => rfl

/-- The reset input clears each RESERVED[] word there is; every other register is that of the reset state. -/
theorem resetBlock_readReg (s : State) (r : Reg) : (resetBlock s).readReg r = 0 := by
  refine Eq.trans ?_ (State.reset_readReg r)
  cases r with
  | reserved n =>
    rw [State.reset_readReg]
    simp [State.readReg, resetBlock]
  | _ => rfl

/-! ### What the reset input leaves of memory (70_reset R250, R252) -/

theorem memoryKeptOutside_resetBlock (s : State) : memoryKeptOutside s.activeDest.base s.activeDest.len s (resetBlock s) :=
  fun _ h => Memory.read_scramble_outside _ _ h

theorem resetBlock_keepsSource (h : s.regionsKept) {addr : Nat} (ha : s.activeSource.contains addr = true) :
    (resetBlock s).mem.read addr = s.mem.read addr := by
  have hapart : s.activeDest.overlaps s.activeSource = false := by
    have := (Region.overlaps_eq_false _ _).1 h.2
    rw [Region.overlaps_eq_false]
    omega
  exact memoryKeptOutside_resetBlock s addr (Region.outside_of_contains hapart ha)

/-- In IDLE no operation is cut short. -/
theorem resetBlock_idle_mem (h : s.phase = .idle) : (resetBlock s).mem = s.mem := by
  show s.mem.scramble s.draws s.activeDest.base s.activeDest.len = s.mem
  simp [State.activeDest, h, Region.empty, Memory.scramble]

/-! ### Hazards while BUSY (70_reset R259, R261) -/

/-- A busy block takes no configuration (10_state R56). -/
theorem State.writeReg_busy (hb : s.busy = true) (h : r ∉ [.status, .irqEn]) : s.writeReg r v = s := by
  unfold State.writeReg
  split
  · simp at h
  · simp at h
  · exact if_pos hb

/-- What an operation leaves until its completion: RESULT, PAYLOAD_SIZE and the flags besides BUSY (10_state R38, 70_reset R261). -/
def resultsKept (s t : State) : Prop :=
  t.result = s.result ∧ t.payloadSize = s.payloadSize ∧ t.done = s.done ∧ t.cmdErr = s.cmdErr

/-- A move after which the operation still runs leaves the results. -/
theorem engineTurn_running_resultsKept (ht : engineTurn s = .next t) (hb : t.busy = true) : resultsKept s t := by
  have hencode (he : s.encoding) : resultsKept s t := by
    obtain ⟨-, -, -, ⟨-, rfl⟩ | ⟨-, rfl⟩⟩ := encodeTurn_next (engineTurn_encoding he ▸ ht)
    · exact ⟨rfl, rfl, rfl, rfl⟩
    · cases hb
  cases hp : s.phase with
  | idle =>
    rw [engineTurn_idle hp] at ht
    cases ht
    exact ⟨rfl, rfl, rfl, rfl⟩
  | busy op =>
    cases op with
    | hdrInit =>
      rw [engineTurn_hdrInit hp] at ht
      cases ht
      cases hb
    | encode => exact hencode (.inl hp)
    | encodePartial => exact hencode (.inr hp)
    | decode =>
      cases decodeTurn_outcome (engineTurn_decode hp ▸ ht) with
      | completed code h =>
        obtain ⟨_, ht, ⟨hidle, -⟩, -⟩ := h
        cases ht
        exact absurd hb (by simp [State.busy_eq_false.2 hidle])
      | advanced m src d n _ _ _ _ ht =>
        subst ht
        exact ⟨rfl, rfl, rfl, rfl⟩

/-! ### The engine does not look at the inputs and the last reply (log 3) -/

/-- The state with its inputs and its last reply changed. -/
def State.mapPort (s : State) (fi : List Input → List Input) (fr : Reply → Reply) : State :=
  { s with inputs := fi s.inputs, reply := fr s.reply }

/-- An answer with the inputs and the last reply of its next state changed. -/
def mapAnswerPort (fi : List Input → List Input) (fr : Reply → Reply) (r : Answer) : Answer :=
  andThen r fun t => .next (t.mapPort fi fr)

section Port

variable {fi : List Input → List Input} {fr : Reply → Reply}

theorem mapAnswerPort_ite {c : Prop} [Decidable c] {x y : Answer} :
    mapAnswerPort fi fr (if c then x else y) = if c then mapAnswerPort fi fr x else mapAnswerPort fi fr y :=
  apply_ite (mapAnswerPort fi fr) c x y

theorem literalRecord_mapPort (n : Nat) (s : State) :
    literalRecord n (s.mapPort fi fr) = mapAnswerPort fi fr (literalRecord n s) := by
  simp only [literalRecord, mapAnswerPort_ite]
  rfl

theorem runRecord_mapPort (n : Nat) (s : State) :
    runRecord n (s.mapPort fi fr) = mapAnswerPort fi fr (runRecord n s) := by
  simp only [runRecord, mapAnswerPort_ite]
  rfl

theorem exec_record_mapPort (hl : i.lang = .record) (s : State) :
    exec i (s.mapPort fi fr) = mapAnswerPort fi fr (exec i s) := by
  cases i with
  | lit g n => exact literalRecord_mapPort n s
  | litWsl l n => exact literalRecord_mapPort n (s.repositioned l)
  | run g n => exact runRecord_mapPort n s
  | runWsl l n => exact runRecord_mapPort n (s.repositioned l)
  | eos | reservedKind0 | reservedKind5 | reservedKind6 | reservedKind7 | reservedKind8 | reservedKind9
  | reservedKindA | reservedKindB | reservedKindC | reservedKindD | reservedKindE => rfl
  | hdrInit | encode | encodePartial | decode | reservedCmd0 | reservedCmd5 | reservedCmd6 | reservedCmd7 => cases hl

theorem encodeTurn_mapPort (s : State) : encodeTurn (s.mapPort fi fr) = mapAnswerPort fi fr (encodeTurn s) := by
  simp only [encodeTurn, mapAnswerPort_ite]
  rfl

theorem decodeTurn_mapPort (s : State) : decodeTurn (s.mapPort fi fr) = mapAnswerPort fi fr (decodeTurn s) := by
  have hrecord : exec (decodeRecord (s.srcWord s.src)) (s.fetched.mapPort fi fr) =
      mapAnswerPort fi fr (exec (decodeRecord (s.srcWord s.src)) s.fetched) := exec_record_mapPort (decodeRecord_lang _) _
  simp only [decodeTurn, mapAnswerPort_ite, ← hrecord]
  rfl

/-- The engine's move is the same whatever the inputs and the last reply are, and so are its stops. -/
theorem engineTurn_mapPort (s : State) : engineTurn (s.mapPort fi fr) = mapAnswerPort fi fr (engineTurn s) := by
  cases hp : s.phase with
  | idle =>
    rw [engineTurn_idle hp, engineTurn_idle (s := s.mapPort fi fr) hp]
    rfl
  | busy op =>
    have hencode (he : s.encoding) : engineTurn (s.mapPort fi fr) = mapAnswerPort fi fr (engineTurn s) := by
      rw [engineTurn_encoding he, engineTurn_encoding (s := s.mapPort fi fr) he, encodeTurn_mapPort]
    cases op with
    | hdrInit =>
      rw [engineTurn_hdrInit hp, engineTurn_hdrInit (s := s.mapPort fi fr) hp]
      rfl
    | encode => exact hencode (.inl hp)
    | encodePartial => exact hencode (.inr hp)
    | decode => rw [engineTurn_decode hp, engineTurn_decode (s := s.mapPort fi fr) hp, decodeTurn_mapPort]

end Port

/-- The engine's move with inputs at hand is the step with none, the inputs put back. -/
theorem engineTurn_withInputs (s : State) (ins : List Input) :
    engineTurn { s with inputs := ins } = andThen (step { s with inputs := [] }) fun t => .next { t with inputs := ins } :=
  engineTurn_mapPort (fi := fun _ => ins) (fr := id) { s with inputs := [] }

/-- The engine's move in a poll that has read a word of STATUS. -/
theorem engineTurn_withReply (s : State) (rp : Reply) :
    engineTurn { s with reply := rp } =
      andThen (step { s with inputs := [] }) fun t => .next { t with inputs := s.inputs, reply := rp } :=
  engineTurn_mapPort (fi := fun _ => s.inputs) (fr := fun _ => rp) { s with inputs := [] }

/-! ### Events leave the inputs to come (log 3) -/

theorem exec_command_inputs (hl : i.lang = .command) (hx : exec i s = .next t) : t.inputs = s.inputs := by
  rcases exec_command_next hl hx with rfl | ⟨_, rfl | ⟨_, rfl⟩ | ⟨_, rfl⟩ | ⟨_, rfl⟩⟩ <;> rfl

theorem State.writeReg_inputs (s : State) (r : Reg) (v : Word) : (s.writeReg r v).inputs = s.inputs := by
  unfold State.writeReg
  split
  · rfl
  · rfl
  · split
    · rfl
    · cases r <;> rfl

theorem eventTurn_inputs (ht : eventTurn e s = .next t) : t.inputs = s.inputs := by
  cases e with
  | regRead offset width =>
    obtain ⟨-, rfl⟩ := registerRead_next ht
    rw [State.afterReading_eq]
  | regWrite offset width v =>
    rcases registerWrite_next ht with ⟨i, hl, hx⟩ | rfl | ⟨r, rfl⟩
    · exact exec_command_inputs hl hx
    · rfl
    · exact s.writeReg_inputs r v
  | memRead addr len => rw [memoryRead_next ht]
  | memWrite agent addr bytes =>
    obtain ⟨-, -, rfl⟩ := memoryWrite_next ht
    rfl
  | takeIrq =>
    cases Host.Outcome.next.inj ht
    split <;> rfl
  | otherIssue who c => rcases otherBegins_next ht with rfl | ⟨-, -, -, rfl⟩ <;> rfl
  | otherComplete who =>
    cases Host.Outcome.next.inj ht
    rfl
  | reset =>
    cases Host.Outcome.next.inj ht
    rfl

/-- What follows an event may count on the inputs the event found. -/
theorem andThen_eventTurn_congr {f g : State → Answer} (h : ∀ t, t.inputs = s.inputs → f t = g t) :
    andThen (eventTurn e s) f = andThen (eventTurn e s) g := by
  cases ht : eventTurn e s with
  | next t => exact h t (eventTurn_inputs ht)
  | fault => rfl
  | refused => rfl

theorem andThen_assoc (x : Answer) (f g : State → Answer) : andThen (andThen x f) g = andThen x fun t => andThen (f t) g := by
  cases x <;> rfl

/-! ### The statements -/

/-- Settles O46: with nothing from outside a step is the engine's turn. -/
theorem resultsChangeOnlyAtCompletion : Obligations.ResultsChangeOnlyAtCompletion :=
  fun _ _ hin ht => engineTurn_running_resultsKept (step_engine hin ▸ ht)

/-- Settles O53: the step is the reset of the block, which sees neither the platform nor the inputs to come. -/
theorem resetInputClearsTheBlock : Obligations.ResetInputClearsTheBlock := by
  intro s rest hin
  refine ⟨_, step_external hin, fun offset => resetBlock_readReg _ _, rfl, rfl, rfl, rfl, ?_, fun hkept addr ha => ?_,
    fun hidle addr => ?_, List.length_map _, rfl, rfl, rfl, rfl, rfl⟩
  · exact memoryKeptOutside_resetBlock { s with inputs := rest }
  · exact resetBlock_keepsSource (s := { s with inputs := rest }) hkept ha
  · exact congrArg (·.read addr) (resetBlock_idle_mem (s := { s with inputs := rest }) hidle)

/-- Settles O59: each input that lets the engine move leaves it a state that differs in the inputs and the reply alone. -/
theorem engineMovesAlikeUnderEveryInput : Obligations.EngineMovesAlikeUnderEveryInput := by
  refine fun s rest => ⟨fun hin => ?_, fun hin hdone => ?_, fun e engineFirst hin => ?_⟩
  · rw [step_engine_input hin]
    exact engineTurn_withInputs s rest
  · rw [step_wait hin, pollTurn, if_neg (by simp [hdone])]
    exact engineTurn_withReply s _
  · rw [step_sameCycle hin, sameCycleTurn]
    simp only [Bool.and_eq_true, Bool.not_eq_true']
    split
    · rw [engineTurn_withInputs, andThen_assoc]
      rfl
    · rw [step_external (s := { s with inputs := .external e :: rest }) rfl]
      refine andThen_eventTurn_congr fun t ht => ?_
      have hrest : t.inputs = rest := ht
      rw [← engineTurn_withInputs, ← hrest]

/-- Settles O39: the write reaches a register that a busy block does not let change. -/
theorem configurationWritesWhileBusyAreLost : Obligations.ConfigurationWritesWhileBusyAreLost := by
  intro s rest offset v hin hbusy ha h
  obtain ⟨hctrl, hother⟩ := not_or.1 (List.mem_cons.not.1 h)
  rw [step_writeReg hin ha rfl hctrl, State.writeReg_busy (s := { s with inputs := rest }) hbusy hother]

/-- Settles O52: the state after reset reads 0 register by register. -/
theorem everyRegisterResetsToZero : Obligations.EveryRegisterResetsToZero :=
  ⟨fun _ => State.reset_readReg _, rfl, rfl⟩

/-- Settles O54: the engine's turn in IDLE is the state as it is. -/
theorem idleEngineWaits : Obligations.IdleEngineWaits :=
  fun _ hidle hin => (step_engine hin).trans (engineTurn_idle hidle)

end Sys2Proof.Machine
end
